-- ==== Sys2Proof/Word.lean ====
section
/-! DEFINITION. The widths of R7 (byte, word, long word) and the operand sizes. -/

namespace Sys2Proof

/-- バイト, 8 bits (R7). -/
abbrev Byte := BitVec 8

/-- ワード, 16 bits (R7). -/
abbrev Word := BitVec 16

/-- ロングワード, 32 bits (R7). -/
abbrev Long := BitVec 32

/-- The three operand sizes `.B`, `.W`, `.L` (R82). -/
inductive Size
  | byte
  | word
  | long
deriving DecidableEq, Repr

/-- `sz` of R82: the operand size in bytes. -/
@[reducible] def Size.bytes : Size → Nat
  | .byte => 1
  | .word => 2
  | .long => 4

/-- `W` of R130: the operand width in bits. -/
@[reducible] def Size.bits : Size → Nat
  | .byte => 8
  | .word => 16
  | .long => 32

end Sys2Proof
end

