-- ==== Sys2Proof/Config.lean ====
section
/-! DEFINITION. The parameters of R6: CPU, ADDR_BITS and MemMap. A launch state supplies them (R212) and no step changes
them, so `State` carries one `Config` and a claim over every state is a claim for every value of the OPEN parameters (log 5). -/

namespace Sys2Proof

/-- The six processors the page names (R1, R2). -/
inductive Cpu
  | mc68000
  | mc68010
  | mc68020
  | mc68030
  | mc68040
  | mc68060
deriving DecidableEq, Repr

/-- Addresses `base` to `base + size - 1` of the reduced address space. -/
structure Region where
  base : Nat
  size : Nat
deriving DecidableEq, Repr

/-- `MemMap` of R59: which reduced addresses are `code`, `data` and `vectors`. An address in none of them is not admitted. -/
structure MemMap where
  code : List Region
  data : List Region
  vectors : List Region
deriving DecidableEq, Repr

/-- The parameters of the model (R6). -/
structure Config where
  cpu : Cpu
  addrBits : Nat
  memMap : MemMap
deriving DecidableEq, Repr

end Sys2Proof
end

