-- ==== Sys2Proof/Syntax.lean ====
section
/-! DEFINITION. The syntax of the ANDI forms: one constructor of `Instr` for each row of spec/opcode_table.json. -/

namespace Sys2Proof

/-- The index register `Xn` of `(d8,Ar,Xn)`: a data or an address register (R157). -/
inductive IndexReg
  | d (r : Fin 8)
  | a (r : Fin 8)
deriving DecidableEq, Repr

/-- `Xn.W` (the low word, sign-extended) or `Xn.L` (the whole register), the W/L bit of R156. -/
inductive IndexSize
  | word
  | long
deriving DecidableEq, Repr

/-- What a brief extension word says (R156). -/
structure Brief where
  reg : IndexReg
  size : IndexSize
  disp : Byte
deriving DecidableEq, Repr

/-- The seven destinations in memory (R150). -/
inductive MemEa
  | ind (r : Fin 8)
  | postInc (r : Fin 8)
  | preDec (r : Fin 8)
  | disp (r : Fin 8) (d16 : Word)
  | index (r : Fin 8) (x : Brief)
  | absW (a : Word)
  | absL (a : Long)
deriving DecidableEq, Repr

/-- The eight destinations `<ea>` (R150): a data register, or an operand in memory. -/
inductive Ea
  | dr (r : Fin 8)
  | mem (m : MemEa)
deriving DecidableEq, Repr

/-- The 26 decodable forms (R14). `imm` is the immediate datum. -/
inductive Instr
  /-- `ANDI.B #<data>,CCR` (R110). -/
  | andiBCcr (imm : Byte)
  /-- `ANDI.W #<data>,SR` (R112). -/
  | andiWSr (imm : Word)
  /-- `ANDI.B #<data>,Dr` (R131, R151). -/
  | andiBDr (imm : Byte) (r : Fin 8)
  /-- `ANDI.B #<data>,(Ar)` (R131, R152). -/
  | andiBInd (imm : Byte) (r : Fin 8)
  /-- `ANDI.B #<data>,(Ar)+` (R131, R153). -/
  | andiBPostInc (imm : Byte) (r : Fin 8)
  /-- `ANDI.B #<data>,-(Ar)` (R131, R154). -/
  | andiBPreDec (imm : Byte) (r : Fin 8)
  /-- `ANDI.B #<data>,(d16,Ar)` (R131, R155). -/
  | andiBDisp (imm : Byte) (r : Fin 8) (d16 : Word)
  /-- `ANDI.B #<data>,(d8,Ar,Xn)` (R131, R156). -/
  | andiBIndex (imm : Byte) (r : Fin 8) (x : Brief)
  /-- `ANDI.B #<data>,(xxx).W` (R131, R158). -/
  | andiBAbsW (imm : Byte) (a : Word)
  /-- `ANDI.B #<data>,(xxx).L` (R131, R159). -/
  | andiBAbsL (imm : Byte) (a : Long)
  /-- `ANDI.W #<data>,Dr` (R132, R151). -/
  | andiWDr (imm : Word) (r : Fin 8)
  /-- `ANDI.W #<data>,(Ar)` (R132, R152). -/
  | andiWInd (imm : Word) (r : Fin 8)
  /-- `ANDI.W #<data>,(Ar)+` (R132, R153). -/
  | andiWPostInc (imm : Word) (r : Fin 8)
  /-- `ANDI.W #<data>,-(Ar)` (R132, R154). -/
  | andiWPreDec (imm : Word) (r : Fin 8)
  /-- `ANDI.W #<data>,(d16,Ar)` (R132, R155). -/
  | andiWDisp (imm : Word) (r : Fin 8) (d16 : Word)
  /-- `ANDI.W #<data>,(d8,Ar,Xn)` (R132, R156). -/
  | andiWIndex (imm : Word) (r : Fin 8) (x : Brief)
  /-- `ANDI.W #<data>,(xxx).W` (R132, R158). -/
  | andiWAbsW (imm : Word) (a : Word)
  /-- `ANDI.W #<data>,(xxx).L` (R132, R159). -/
  | andiWAbsL (imm : Word) (a : Long)
  /-- `ANDI.L #<data>,Dr` (R133, R151). -/
  | andiLDr (imm : Long) (r : Fin 8)
  /-- `ANDI.L #<data>,(Ar)` (R133, R152). -/
  | andiLInd (imm : Long) (r : Fin 8)
  /-- `ANDI.L #<data>,(Ar)+` (R133, R153). -/
  | andiLPostInc (imm : Long) (r : Fin 8)
  /-- `ANDI.L #<data>,-(Ar)` (R133, R154). -/
  | andiLPreDec (imm : Long) (r : Fin 8)
  /-- `ANDI.L #<data>,(d16,Ar)` (R133, R155). -/
  | andiLDisp (imm : Long) (r : Fin 8) (d16 : Word)
  /-- `ANDI.L #<data>,(d8,Ar,Xn)` (R133, R156). -/
  | andiLIndex (imm : Long) (r : Fin 8) (x : Brief)
  /-- `ANDI.L #<data>,(xxx).W` (R133, R158). -/
  | andiLAbsW (imm : Long) (a : Word)
  /-- `ANDI.L #<data>,(xxx).L` (R133, R159). -/
  | andiLAbsL (imm : Long) (a : Long)
deriving DecidableEq, Repr

end Sys2Proof
end

