-- ==== Sys2Proof/WellFormed.lean ====
section
/-! DEFINITION. What makes a term of the model meaningful on a processor: which forms exist where (R1, R150, R166), which
memory maps and configurations a launch state may carry (R59, R60, R212). -/

namespace Sys2Proof

/-- Whether the form exists on the processor: every form does on all six (R1), but for `(d8,Ar,Xn)`, which exists on the
68000 and 68010 only (R150, R166). -/
def wellFormed : Cpu → Instr → Bool
  | cpu, .andiBIndex _ _ _ => cpu = .mc68000 || cpu = .mc68010
  | cpu, .andiWIndex _ _ _ => cpu = .mc68000 || cpu = .mc68010
  | cpu, .andiLIndex _ _ _ => cpu = .mc68000 || cpu = .mc68010
  | _, .andiBCcr _ | _, .andiWSr _ => true
  | _, .andiBDr _ _ | _, .andiBInd _ _ | _, .andiBPostInc _ _ | _, .andiBPreDec _ _ => true
  | _, .andiBDisp _ _ _ | _, .andiBAbsW _ _ | _, .andiBAbsL _ _ => true
  | _, .andiWDr _ _ | _, .andiWInd _ _ | _, .andiWPostInc _ _ | _, .andiWPreDec _ _ => true
  | _, .andiWDisp _ _ _ | _, .andiWAbsW _ _ | _, .andiWAbsL _ _ => true
  | _, .andiLDr _ _ | _, .andiLInd _ _ | _, .andiLPostInc _ _ | _, .andiLPreDec _ _ => true
  | _, .andiLDisp _ _ _ | _, .andiLAbsW _ _ | _, .andiLAbsL _ _ => true

/-- Two regions share no address. -/
def Region.disjoint (r q : Region) : Bool :=
  r.base + r.size ≤ q.base || q.base + q.size ≤ r.base || r.size = 0 || q.size = 0

/-- `code` and `data` may not overlap, `data` and `vectors` may (R59). DESIGN CHOICE, log 23: the spec does not rule on `code` and
`vectors`; they may overlap here. -/
def MemMap.wf (m : MemMap) : Bool :=
  m.code.all fun c => m.data.all fun d => c.disjoint d

/-- The processors whose execution the spec gives: 68000 and 68010 (R2, R55, D1). -/
def Cpu.modelled : Cpu → Bool
  | .mc68000 | .mc68010 => true
  | .mc68020 | .mc68030 | .mc68040 | .mc68060 => false

/-- A configuration a launch state may carry: a modelled processor, an address width between 3 and 32, and a memory map with `code` and
`data` apart. DESIGN CHOICE, log 26: R6 and R60 leave ADDR_BITS open and give it no range. With 3 bits the eight bytes of the largest
exception frame are still distinct; with more than 32 no address has the bits (R60). -/
def Config.wf (c : Config) : Bool :=
  c.cpu.modelled && decide (3 ≤ c.addrBits) && decide (c.addrBits ≤ 32) && c.memMap.wf

end Sys2Proof
end

