-- ==== Sys2Proof/Decode.lean ====
section
/-! DEFINITION. The decoder (R96), total on any bytes and rejecting by name, and the encoder, both written from
the encoding tables of 30_encoding.md and 42_addressing_modes.md. -/

namespace Sys2Proof

/-- Why an operation word spells no ANDI instruction (R93, R96). -/
inductive NotAndi
  /-- `w0[15:8]` is not `0x02`. -/
  | otherOperationWord
  /-- The size field is 11. -/
  | sizeEleven
  /-- Mode 001, address register direct. -/
  | addressRegisterDirect
  /-- Mode 111 with a register field that is not 000 or 001. -/
  | modeSevenRegister
deriving DecidableEq, Repr

/-- Why the decoder rejects its words. -/
inductive DecodeError
  /-- The operation word `w` spells no ANDI (R93, R187). -/
  | notAndi (why : NotAndi) (w : Word)
  /-- The immediate word `w` of a byte form has a nonzero high byte (R94). -/
  | byteImmediateHighByte (w : Word)
  /-- The brief extension word `w` has a nonzero bit among 10 to 8 (R156). -/
  | briefExtensionBits (w : Word)
deriving DecidableEq, Repr

/-- Reading one thing from the front of a list of words: done with the words left over, more words needed, or rejected. -/
inductive Parsed (α : Type)
  | done (a : α) (rest : List Word)
  | incomplete
  | error (e : DecodeError)
deriving DecidableEq, Repr

/-- The eight rows of the mode table (R83), before their extension words. -/
inductive Mode
  | dr (r : Fin 8)
  | ind (r : Fin 8)
  | postInc (r : Fin 8)
  | preDec (r : Fin 8)
  | disp (r : Fin 8)
  | index (r : Fin 8)
  | absW
  | absL
deriving DecidableEq, Repr

/-- What an operation word alone says. -/
inductive Op
  | ccr
  | sr
  | ea (sz : Size) (m : Mode)
deriving DecidableEq, Repr

/-- An instruction in three shapes: to CCR, to SR, to an `<ea>` with its size. -/
inductive Form
  | ccr (imm : Byte)
  | sr (imm : Word)
  | ea (sz : Size) (imm : BitVec sz.bits) (e : Ea)

/-- The instruction as a form. -/
def Instr.form : Instr → Form
  | .andiBCcr imm => .ccr imm
  | .andiWSr imm => .sr imm
  | .andiBDr imm r => .ea .byte imm (.dr r)
  | .andiBInd imm r => .ea .byte imm (.mem (.ind r))
  | .andiBPostInc imm r => .ea .byte imm (.mem (.postInc r))
  | .andiBPreDec imm r => .ea .byte imm (.mem (.preDec r))
  | .andiBDisp imm r d16 => .ea .byte imm (.mem (.disp r d16))
  | .andiBIndex imm r x => .ea .byte imm (.mem (.index r x))
  | .andiBAbsW imm a => .ea .byte imm (.mem (.absW a))
  | .andiBAbsL imm a => .ea .byte imm (.mem (.absL a))
  | .andiWDr imm r => .ea .word imm (.dr r)
  | .andiWInd imm r => .ea .word imm (.mem (.ind r))
  | .andiWPostInc imm r => .ea .word imm (.mem (.postInc r))
  | .andiWPreDec imm r => .ea .word imm (.mem (.preDec r))
  | .andiWDisp imm r d16 => .ea .word imm (.mem (.disp r d16))
  | .andiWIndex imm r x => .ea .word imm (.mem (.index r x))
  | .andiWAbsW imm a => .ea .word imm (.mem (.absW a))
  | .andiWAbsL imm a => .ea .word imm (.mem (.absL a))
  | .andiLDr imm r => .ea .long imm (.dr r)
  | .andiLInd imm r => .ea .long imm (.mem (.ind r))
  | .andiLPostInc imm r => .ea .long imm (.mem (.postInc r))
  | .andiLPreDec imm r => .ea .long imm (.mem (.preDec r))
  | .andiLDisp imm r d16 => .ea .long imm (.mem (.disp r d16))
  | .andiLIndex imm r x => .ea .long imm (.mem (.index r x))
  | .andiLAbsW imm a => .ea .long imm (.mem (.absW a))
  | .andiLAbsL imm a => .ea .long imm (.mem (.absL a))

/-- The instruction `ANDI.<sz> #imm,<ea>`. -/
def Instr.andi : (sz : Size) → BitVec sz.bits → Ea → Instr
  | .byte, imm, .dr r => .andiBDr imm r
  | .byte, imm, .mem (.ind r) => .andiBInd imm r
  | .byte, imm, .mem (.postInc r) => .andiBPostInc imm r
  | .byte, imm, .mem (.preDec r) => .andiBPreDec imm r
  | .byte, imm, .mem (.disp r d16) => .andiBDisp imm r d16
  | .byte, imm, .mem (.index r x) => .andiBIndex imm r x
  | .byte, imm, .mem (.absW a) => .andiBAbsW imm a
  | .byte, imm, .mem (.absL a) => .andiBAbsL imm a
  | .word, imm, .dr r => .andiWDr imm r
  | .word, imm, .mem (.ind r) => .andiWInd imm r
  | .word, imm, .mem (.postInc r) => .andiWPostInc imm r
  | .word, imm, .mem (.preDec r) => .andiWPreDec imm r
  | .word, imm, .mem (.disp r d16) => .andiWDisp imm r d16
  | .word, imm, .mem (.index r x) => .andiWIndex imm r x
  | .word, imm, .mem (.absW a) => .andiWAbsW imm a
  | .word, imm, .mem (.absL a) => .andiWAbsL imm a
  | .long, imm, .dr r => .andiLDr imm r
  | .long, imm, .mem (.ind r) => .andiLInd imm r
  | .long, imm, .mem (.postInc r) => .andiLPostInc imm r
  | .long, imm, .mem (.preDec r) => .andiLPreDec imm r
  | .long, imm, .mem (.disp r d16) => .andiLDisp imm r d16
  | .long, imm, .mem (.index r x) => .andiLIndex imm r x
  | .long, imm, .mem (.absW a) => .andiLAbsW imm a
  | .long, imm, .mem (.absL a) => .andiLAbsL imm a

/-- The instruction of a form. -/
def Form.instr : Form → Instr
  | .ccr imm => .andiBCcr imm
  | .sr imm => .andiWSr imm
  | .ea sz imm e => Instr.andi sz imm e

/-! ### Decoding -/

/-- The register field as a register number. -/
def regOf (f : BitVec 3) : Fin 8 := f.toFin

/-- The size field (R82). -/
def sizeOf? (f : BitVec 2) : Option Size :=
  if f = 0b00 then some .byte else if f = 0b01 then some .word else if f = 0b10 then some .long else none

/-- The mode and register fields (R83), rejecting the rows that are not there (R96). -/
def decodeMode (mode reg : BitVec 3) : Except NotAndi Mode :=
  if mode = 0b000 then .ok (.dr (regOf reg))
  else if mode = 0b001 then .error .addressRegisterDirect
  else if mode = 0b010 then .ok (.ind (regOf reg))
  else if mode = 0b011 then .ok (.postInc (regOf reg))
  else if mode = 0b100 then .ok (.preDec (regOf reg))
  else if mode = 0b101 then .ok (.disp (regOf reg))
  else if mode = 0b110 then .ok (.index (regOf reg))
  else if reg = 0b000 then .ok .absW
  else if reg = 0b001 then .ok .absL
  else .error .modeSevenRegister

/-- The operation word, in the order of R96: the two fixed words first (R91), then the `F-EA` fields. -/
def decodeOp (w0 : Word) : Except NotAndi Op :=
  if w0 = 0x023C then .ok .ccr
  else if w0 = 0x027C then .ok .sr
  else if w0.extractLsb' 8 8 ≠ 0x02 then .error .otherOperationWord
  else
    match sizeOf? (w0.extractLsb' 6 2) with
    | none => .error .sizeEleven
    | some sz =>
      match decodeMode (w0.extractLsb' 3 3) (w0.extractLsb' 0 3) with
      | .error e => .error e
      | .ok m => .ok (.ea sz m)

/-- The immediate of a byte form: one word whose high byte is 0 (R86, R94). -/
def decodeImmByte : List Word → Parsed Byte
  | [] => .incomplete
  | w :: rest =>
    if w.extractLsb' 8 8 = 0 then .done (w.extractLsb' 0 8) rest else .error (.byteImmediateHighByte w)

/-- One word as it is: the immediate of a word form (R87), a displacement (R155), a short address (R158). -/
def decodeWord : List Word → Parsed Word
  | [] => .incomplete
  | w :: rest => .done w rest

/-- Two words, the upper one first: the immediate of a long form (R88), a long address (R159). -/
def decodeLong : List Word → Parsed Long
  | hi :: lo :: rest => .done (hi ++ lo) rest
  | _ => .incomplete

/-- The immediate at the width of the form (R86 to R88). -/
def decodeImm : (sz : Size) → List Word → Parsed (BitVec sz.bits)
  | .byte, ws => decodeImmByte ws
  | .word, ws => decodeWord ws
  | .long, ws => decodeLong ws

/-- The brief extension word (R156); its bits 10 to 8 must be 0. -/
def decodeBrief : List Word → Parsed Brief
  | [] => .incomplete
  | e :: rest =>
    if e.extractLsb' 8 3 = 0 then
      .done
        { reg := if e[15] then .a (regOf (e.extractLsb' 12 3)) else .d (regOf (e.extractLsb' 12 3))
          size := if e[11] then .long else .word
          disp := e.extractLsb' 0 8 } rest
    else .error (.briefExtensionBits e)

/-- Apply a function to what was read. -/
def Parsed.map {α β : Type} (f : α → β) : Parsed α → Parsed β
  | .done a rest => .done (f a) rest
  | .incomplete => .incomplete
  | .error e => .error e

/-- The EA extension words of the mode (R89). -/
def decodeEa : Mode → List Word → Parsed Ea
  | .dr r, ws => .done (.dr r) ws
  | .ind r, ws => .done (.mem (.ind r)) ws
  | .postInc r, ws => .done (.mem (.postInc r)) ws
  | .preDec r, ws => .done (.mem (.preDec r)) ws
  | .disp r, ws => (decodeWord ws).map fun d => .mem (.disp r d)
  | .index r, ws => (decodeBrief ws).map fun x => .mem (.index r x)
  | .absW, ws => (decodeWord ws).map fun a => .mem (.absW a)
  | .absL, ws => (decodeLong ws).map fun a => .mem (.absL a)

/-- The words after the operation word: the immediate, then the EA extension words (R89, R96). -/
def decodeOperands : Op → List Word → Parsed Instr
  | .ccr, ws => (decodeImmByte ws).map .andiBCcr
  | .sr, ws => (decodeWord ws).map .andiWSr
  | .ea sz m, ws =>
    match decodeImm sz ws with
    | .incomplete => .incomplete
    | .error e => .error e
    | .done imm rest => (decodeEa m rest).map (Instr.andi sz imm)

/-- The decoding procedure of R96 on the words at the instruction's address, as many as there are. -/
def decodeWords : List Word → Parsed Instr
  | [] => .incomplete
  | w0 :: ws =>
    match decodeOp w0 with
    | .error why => .error (.notAndi why w0)
    | .ok op => decodeOperands op ws

/-- Bytes in address order as words: the byte at the lower address is the high byte (R52). -/
def wordsOfBytes : List Byte → List Word
  | hi :: lo :: rest => (hi ++ lo) :: wordsOfBytes rest
  | _ => []

/-- The decoder on bytes in address order. -/
def decode (bs : List Byte) : Parsed Instr := decodeWords (wordsOfBytes bs)

/-! ### Encoding -/

/-- The size field (R82). -/
def sizeField : Size → BitVec 2
  | .byte => 0b00
  | .word => 0b01
  | .long => 0b10

/-- The register field of a register number. -/
def regField (r : Fin 8) : BitVec 3 := BitVec.ofFin r

/-- The mode and register fields (R83). -/
def modeField : Ea → BitVec 3 × BitVec 3
  | .dr r => (0b000, regField r)
  | .mem (.ind r) => (0b010, regField r)
  | .mem (.postInc r) => (0b011, regField r)
  | .mem (.preDec r) => (0b100, regField r)
  | .mem (.disp r _) => (0b101, regField r)
  | .mem (.index r _) => (0b110, regField r)
  | .mem (.absW _) => (0b111, 0b000)
  | .mem (.absL _) => (0b111, 0b001)

/-- The operation word of format `F-EA` (R81). -/
def eaOperationWord (sz : Size) (e : Ea) : Word :=
  0x02#8 ++ sizeField sz ++ (modeField e).1 ++ (modeField e).2

/-- The upper and the lower word of a long word. -/
def longWords (v : Long) : List Word := [v.extractLsb' 16 16, v.extractLsb' 0 16]

/-- The immediate words (R86 to R88). -/
def immWords : (sz : Size) → BitVec sz.bits → List Word
  | .byte, imm => [0x00#8 ++ imm]
  | .word, imm => [imm]
  | .long, imm => longWords imm

/-- The D/A bit and the register field of a brief extension word (R156). -/
def indexRegField : IndexReg → BitVec 1 × BitVec 3
  | .d r => (0, regField r)
  | .a r => (1, regField r)

/-- The W/L bit of a brief extension word (R156). -/
def indexSizeField : IndexSize → BitVec 1
  | .word => 0
  | .long => 1

/-- The brief extension word (R156). -/
def briefWord (x : Brief) : Word :=
  (indexRegField x.reg).1 ++ (indexRegField x.reg).2 ++ indexSizeField x.size ++ 0b000#3 ++ x.disp

/-- The EA extension words (R89). -/
def eaWords : Ea → List Word
  | .dr _ | .mem (.ind _) | .mem (.postInc _) | .mem (.preDec _) => []
  | .mem (.disp _ d16) => [d16]
  | .mem (.index _ x) => [briefWord x]
  | .mem (.absW a) => [a]
  | .mem (.absL a) => longWords a

/-- The words of a form. -/
def Form.words : Form → List Word
  | .ccr imm => [0x023C, 0x00#8 ++ imm]
  | .sr imm => [0x027C, imm]
  | .ea sz imm e => eaOperationWord sz e :: (immWords sz imm ++ eaWords e)

/-- The words of an instruction, in ascending address order. -/
def encode (i : Instr) : List Word := i.form.words

/-- The bytes of words in address order, high byte first (R52). -/
def bytesOfWords (ws : List Word) : List Byte :=
  ws.flatMap fun w => [w.extractLsb' 8 8, w.extractLsb' 0 8]

/-- Instruction length in bytes by R90: 4 for the CCR and SR forms; else the row of the size and the column of `<ea>`. -/
def eaLength (sz : Size) (e : Ea) : Nat :=
  let shortest := match sz with
    | .byte | .word => 4
    | .long => 6
  match e with
  | .dr _ | .mem (.ind _) | .mem (.postInc _) | .mem (.preDec _) => shortest
  | .mem (.disp _ _) | .mem (.index _ _) | .mem (.absW _) => shortest + 2
  | .mem (.absL _) => shortest + 4

/-- Instruction length in bytes (R90). -/
def Instr.length (i : Instr) : Nat :=
  match i.form with
  | .ccr _ | .sr _ => 4
  | .ea sz _ e => eaLength sz e

/-- The number of EA extension words of a mode (R89, `next` of R95). -/
def extensionWords : Mode → Nat
  | .dr _ | .ind _ | .postInc _ | .preDec _ => 0
  | .disp _ | .index _ | .absW => 1
  | .absL => 2

/-- Length in bytes from the operation word alone (R95). -/
def opLength : Op → Nat
  | .ccr | .sr => 2 + 2
  | .ea sz m => 2 + (if sz = .long then 4 else 2) + 2 * extensionWords m

/-! ### The host's table words -/

/-- The five words (the longest instruction, R90) of a number whose bit 0 is the least significant bit of the first word. -/
def tableWords (nbits w : Nat) : List Word :=
  (List.range 5).map fun k => BitVec.ofNat 16 ((w % 2 ^ nbits) >>> (16 * k))

/-- The instruction the decoder reads from a table word, laid out as bytes in address order. -/
def decodeTableWord (nbits w : Nat) : Option Instr :=
  match decode (bytesOfWords (tableWords nbits w)) with
  | .done i _ => some i
  | .incomplete => none
  | .error _ => none

end Sys2Proof
end

