-- ==== Sys2Proof/Machine/State.lean ====
section
/-! DEFINITION. The state of the machine (R13), why a step can stop, and the state after reset. -/

namespace Sys2Proof.Machine

/-- A fault ends the run and leaves no state (R15, R182, R183). -/
inductive Fault
  /-- A word or long-word access, or an instruction fetch, at the odd address `addr` (R54, R55, R182). Raised by
  `memRead`, `memWrite` and `fetch`. Safe: the machine stops. -/
  | addressError (addr : Long)
  /-- The memory map does not admit the access at `addr` (R59, R65, R183). Raised by `memRead`, `memWrite` and `fetch`.
  Safe: the machine stops. -/
  | busError (addr : Long)
deriving DecidableEq, Repr

/-- What can hold no value (R37): the registers by name, and the five flags together, as no form reads one of them alone. -/
inductive RegName
  | d (r : Fin 8)
  | a (r : Fin 7)
  | usp
  | ssp
  | flags
deriving DecidableEq, Repr

/-- A refusal says that the model gives no meaning (R15). -/
inductive Refusal
  /-- The instruction has no meaning yet. Raised by `exec`'s refused arms. Safe. -/
  | notModelled (mnemonic : String)
  /-- The words at `addr` are no instruction of the spec (R93, R94, R156, R187). Raised by `fetch`. Safe. -/
  | undecodable (e : DecodeError) (addr : Long)
  /-- The byte at the reduced address `addr` holds no value (R37, R138, D24). Raised by `memRead`. Safe. -/
  | valuelessByte (addr : Nat)
  /-- The register, or one of the flags, holds no value (R37, D24). Raised by `require`. Safe. -/
  | valuelessRegister (r : RegName)
  /-- The state has T = 1, which no launch state has (R188, D14). Raised by `step`. Safe. -/
  | traceOn
  /-- The processor is not one the spec gives the execution of (R2, R55, D1). Raised by `step`. Safe. -/
  | cpuNotModelled (cpu : Cpu)
  /-- The words of the instruction at `addr` pass from `0xFFFFFFFE` to 0 (R27, D21). Raised by `fetch`. Safe. -/
  | instructionWraps (addr : Long)
  /-- R192 describes the return from an exception for the MC68000 only. Raised by `returnFromException`. Safe. -/
  | returnFrameNotGiven (cpu : Cpu)
deriving DecidableEq, Repr

/-- Memory: the bytes that hold a value, by reduced address, addresses strictly rising. An address that is not listed holds no
value (R37, D24), so no entry equals what an unlisted address reads as. -/
abbrev Memory := List Host.Cell

/-- Which registers and flags hold no value (R37), as a launch state may say of each (R212). After reset none does (log 1, log 2). -/
structure NoValue where
  d : Vector Bool 8
  a : Vector Bool 7
  usp : Bool
  ssp : Bool
  x : Bool
  n : Bool
  z : Bool
  v : Bool
  c : Bool
deriving DecidableEq, Repr

/-- The state (R13, R24, R186, R212): the parameters, `D0`..`D7`, `A0`..`A6`, the two stack pointers, `pc`, `VBR` of the
68010, `SR`, memory, and which of the registers hold no value (R37): what a field holds of such a register is never read.
`A7` is one of the stack pointers (R24) and `CCR` is the low byte of `SR` (R33). -/
structure State where
  cfg : Config
  d : Vector Long 8
  a : Vector Long 7
  usp : Long
  ssp : Long
  pc : Long
  vbr : Long
  sr : Word
  mem : Memory
  noValue : NoValue
deriving DecidableEq, Repr

/-- The parameters at reset: the MC68000 (R2), 24 address bits (R60), the vector table of R59, no `code` and no `data`
declared (DESIGN CHOICE, log 5). -/
def resetConfig : Config :=
  { cpu := .mc68000
    addrBits := 24
    memMap := { code := [], data := [], vectors := [{ base := 0x000000, size := 0x400 }] } }

/-- Right after reset (R36, R210): S = 1, T = 0, mask 7, VBR 0 (R186). DESIGN CHOICE, unsafe: the registers R36 leaves
unspecified are 0 (log 1), the flags are 0 (log 2), and so are SSP and pc, whose source, the long words at 0 and 4,
holds no value in a memory with nothing listed (log 3). -/
def State.reset : State :=
  { cfg := resetConfig
    d := Vector.replicate 8 0
    a := Vector.replicate 7 0
    usp := 0
    ssp := 0
    pc := 0
    vbr := 0
    sr := 0x2700
    mem := []
    noValue :=
      { d := Vector.replicate 8 false
        a := Vector.replicate 7 false
        usp := false
        ssp := false
        x := false
        n := false
        z := false
        v := false
        c := false } }

end Sys2Proof.Machine
end

