-- ==== Sys2Proof/Machine/Flags.lean ====
section
/-! DEFINITION. The status register: its layouts, its fields, and every flag computation of the spec. -/

namespace Sys2Proof.Machine

/-- The implemented bits of SR (R29, R30, R31). -/
def srMask : Cpu → Word
  | .mc68000 | .mc68010 => 0xA71F
  | .mc68020 | .mc68030 | .mc68040 => 0xF71F
  | .mc68060 => 0xB71F

/-- Read SR: the bits the figure draws as 0 read as 0 (R35, log 14). -/
def readSr (s : State) : Word := s.sr &&& srMask s.cfg.cpu

/-- Write SR: a write to a bit the figure draws as 0 is ignored (R35, log 14). -/
def writeSr (s : State) (v : Word) : State := { s with sr := v &&& srMask s.cfg.cpu }

/-- T, bit 15 (R29). -/
def flagT (s : State) : Bool := (readSr s)[15]
/-- S, bit 13 (R29): supervisor mode when 1, user mode when 0 (R194, R195). -/
def supervisor (s : State) : Bool := (readSr s)[13]
/-- I2..I0, bits 10 to 8: the interrupt mask (R32). -/
def interruptMask (s : State) : BitVec 3 := (readSr s).extractLsb' 8 3
/-- X, bit 4 (R29). -/
def flagX (s : State) : Bool := (readSr s)[4]
/-- N, bit 3 (R29). -/
def flagN (s : State) : Bool := (readSr s)[3]
/-- Z, bit 2 (R29). -/
def flagZ (s : State) : Bool := (readSr s)[2]
/-- V, bit 1 (R29). -/
def flagV (s : State) : Bool := (readSr s)[1]
/-- C, bit 0 (R29). -/
def flagC (s : State) : Bool := (readSr s)[0]

/-- SR[15:8], which only ANDI to SR and trap entry write (R197). -/
def systemByte (s : State) : Byte := (readSr s).extractLsb' 8 8

/-- CCR is SR[7:0] (R33). -/
def readCcr (s : State) : Byte := (readSr s).extractLsb' 0 8

/-- Write CCR, leaving SR[15:8] (R33, R110). -/
def writeCcr (s : State) (v : Byte) : State := writeSr s (systemByte s ++ v)

/-- The flags of the data forms (R134): X keeps its value, N is the top bit of the result, Z says that the result is 0, V and C
are cleared. The four written flags hold values from then on; X does as before (R37). -/
def dataFlags {w : Nat} (s : State) (res : BitVec w) : State :=
  { writeCcr s ((readCcr s).extractLsb' 4 4 ++ BitVec.ofBool res.msb ++ BitVec.ofBool (res == 0) ++ 0b00#2) with
    noValue := { s.noValue with n := false, z := false, v := false, c := false } }

/-- The T bits that trap entry clears: bit 15 (R184); on the 68020 and later T1 and T0, bits 15 and 14 (R186). -/
def traceBits : Cpu → Word
  | .mc68000 | .mc68010 => 0x8000
  | .mc68020 | .mc68030 | .mc68040 | .mc68060 => 0xC000

/-- SR at trap entry: S set, trace off, mask and flags unchanged (R184). -/
def enterSupervisor (s : State) : State :=
  writeSr s ((readSr s ||| 0x2000) &&& ~~~traceBits s.cfg.cpu)

/-- SR at reset: S set, T clear, mask 7 (R210); the flags, unspecified there, are left (log 19). R210 is for the layout of the MC68000;
DESIGN CHOICE, log 19: on the 68020 and later T0 (bit 14) is cleared as well and M (bit 12) is left. -/
def resetSr (s : State) : State :=
  writeSr s ((readSr s ||| 0x2700) &&& ~~~traceBits s.cfg.cpu)

end Sys2Proof.Machine
end

