-- ==== Sys2Proof/Machine/Ops.lean ====
section
/-! DEFINITION. The shared operations: registers, memory (R50 to R60), taking an exception (R184, R186), returning from one
(R192), and reset (R210). -/

namespace Sys2Proof.Machine

/-- A result, a fault or a refusal. -/
abbrev Res (α : Type) := Host.Outcome α Fault Refusal

/-- Go on with a result; a fault or a refusal ends it. -/
def andThen {α β : Type} (x : Res α) (f : α → Res β) : Res β :=
  match x with
  | .next a => f a
  | .fault e => .fault e
  | .refused e => .refused e

/-! ### Registers -/

/-- The register, or some flag, holds no value (R37). -/
def NoValue.lacks (n : NoValue) : RegName → Bool
  | .d r => n.d[r]
  | .a r => n.a[r]
  | .usp => n.usp
  | .ssp => n.ssp
  | .flags => n.x || n.n || n.z || n.v || n.c

/-- The register, or every flag, has been given a value. -/
def NoValue.give (n : NoValue) : RegName → NoValue
  | .d r => { n with d := n.d.set r false }
  | .a r => { n with a := n.a.set r false }
  | .usp => { n with usp := false }
  | .ssp => { n with ssp := false }
  | .flags => { n with x := false, n := false, z := false, v := false, c := false }

/-- What is about to be read must hold values: refused at the first that holds none (R37). -/
def require : List RegName → State → Res Unit
  | [], _ => .next ()
  | r :: rs, s => if s.noValue.lacks r then .refused (.valuelessRegister r) else require rs s

/-- `D[r]` (R20). -/
def readD (s : State) (r : Fin 8) : Long := s.d[r]

/-- The operand of size `sz` in a data register: its low bits (R151). -/
def lowPart (sz : Size) (v : Long) : BitVec sz.bits := v.setWidth sz.bits

/-- The register after a write of its low part: the bits above the operand keep their values (R135). -/
def putLowPart : (sz : Size) → Long → BitVec sz.bits → Long
  | .byte, old, v => old.extractLsb' 8 24 ++ v
  | .word, old, v => old.extractLsb' 16 16 ++ v
  | .long, _, v => v

/-- `D[r][W-1:0] <- v` (R20, R135). A write of the whole register gives it a value; a register without a value stays without one under
a write of a part (R37). -/
def writeD (sz : Size) (s : State) (r : Fin 8) (v : BitVec sz.bits) : State :=
  { s with
    d := s.d.set r (putLowPart sz (readD s r) v)
    noValue :=
      match sz with
      | .byte | .word => s.noValue
      | .long => s.noValue.give (.d r) }

/-- The register that `A[r]` names (R22, R24): `A[7]` is SSP when S = 1 and USP when S = 0. -/
def addressReg (s : State) (r : Fin 8) : RegName :=
  if h : r.val < 7 then .a ⟨r.val, h⟩ else if supervisor s then .ssp else .usp

/-- `A[r]` (R22, R24). -/
def readA (s : State) (r : Fin 8) : Long :=
  if h : r.val < 7 then s.a[r.val] else if supervisor s then s.ssp else s.usp

/-- `A[r] <- v` (R22, R24). -/
def writeA (s : State) (r : Fin 8) (v : Long) : State :=
  if h : r.val < 7 then { s with a := s.a.set r.val v, noValue := s.noValue.give (.a ⟨r.val, h⟩) }
  else if supervisor s then { s with ssp := v, noValue := s.noValue.give .ssp }
  else { s with usp := v, noValue := s.noValue.give .usp }

/-- `pc <- pc + len`, modulo 2^32 (R27). -/
def advancePc (s : State) (len : Nat) : State := { s with pc := s.pc + BitVec.ofNat 32 len }

/-! ### One byte of memory -/

/-- The byte at a reduced address, if it holds a value. -/
def Memory.read : Memory → Nat → Option Byte
  | [], _ => none
  | (k, v) :: rest, a => if k = a then some v else Memory.read rest a

/-- Give the byte at a reduced address a value, keeping the list's order. -/
def Memory.write : Memory → Nat → Byte → Memory
  | [], a, b => [(a, b)]
  | (k, v) :: rest, a, b =>
    if a < k then (a, b) :: (k, v) :: rest
    else if a = k then (a, b) :: rest
    else (k, v) :: Memory.write rest a b

/-- Give several bytes their values, in order. -/
def Memory.writeAll : Memory → List (Nat × Byte) → Memory
  | m, [] => m
  | m, (a, b) :: rest => Memory.writeAll (Memory.write m a b) rest

/-- The canonical form: addresses strictly rising. -/
def Memory.wf : Memory → Bool
  | [] => true
  | [_] => true
  | x :: y :: rest => decide (x.1 < y.1) && Memory.wf (y :: rest)

/-! ### Addresses and regions -/

/-- Which access it is, for the memory map (R59). -/
inductive Access
  | fetch
  | data
  | vector
deriving DecidableEq, Repr

/-- The low `ADDR_BITS` bits of an address (R60). -/
def reduce (c : Config) (a : Long) : Nat := a.toNat % 2 ^ c.addrBits

/-- The reduced addresses of the `n` bytes at `a` (R50, R60, log 7). -/
def byteAddrs (c : Config) (a : Long) (n : Nat) : List Nat :=
  (List.range n).map fun k => reduce c (a + BitVec.ofNat 32 k)

/-- The address lies in one of the regions. -/
def inRegions (rs : List Region) (a : Nat) : Bool :=
  rs.any fun r => decide (r.base ≤ a) && decide (a < r.base + r.size)

/-- The memory map admits the access at a reduced address (R59). A data access never reaches `code` (R65, log 6). -/
def admits (c : Config) : Access → Nat → Bool
  | .fetch, a => inRegions c.memMap.code a
  | .data, a => inRegions c.memMap.data a && !inRegions c.memMap.code a
  | .vector, a => inRegions c.memMap.vectors a

/-- A byte may be at any address; a word and a long word must be at an even one (R54, R55). -/
def aligned : Size → Long → Bool
  | .byte, _ => true
  | .word, a => !a[0]
  | .long, a => !a[0]

/-- The memory map admits every byte of the access at `a` (R59). -/
def admitsAll (k : Access) (sz : Size) (c : Config) (a : Long) : Bool :=
  (byteAddrs c a sz.bytes).all (admits c k)

/-- The checks of an access after reducing its address: alignment, then the memory map (R50). -/
def checkAccess (k : Access) (sz : Size) (s : State) (a : Long) : Res Unit :=
  if !aligned sz a then .fault (.addressError a)
  else if !admitsAll k sz s.cfg a then .fault (.busError a)
  else .next ()

/-! ### Accesses of one, two and four bytes -/

/-- The byte that the 32-bit address names, if it holds a value: addresses that agree in their low bits name the same byte (R60). -/
def byteAt (s : State) (a : Long) : Option Byte := Memory.read s.mem (reduce s.cfg a)

/-- One byte that must hold a value (R37, D24). -/
def loadByte (s : State) (a : Long) : Res Byte :=
  match byteAt s a with
  | some b => .next b
  | none => .refused (.valuelessByte (reduce s.cfg a))

/-- The bytes at `a` as one value, the most significant byte at `a` (R52). -/
def loadBytes : (sz : Size) → State → Long → Res (BitVec sz.bits)
  | .byte, s, a => loadByte s a
  | .word, s, a =>
    andThen (loadByte s a) fun b0 =>
    andThen (loadByte s (a + 1)) fun b1 => .next (b0 ++ b1)
  | .long, s, a =>
    andThen (loadByte s a) fun b0 =>
    andThen (loadByte s (a + 1)) fun b1 =>
    andThen (loadByte s (a + 2)) fun b2 =>
    andThen (loadByte s (a + 3)) fun b3 => .next (b0 ++ b1 ++ b2 ++ b3)

/-- The bytes of a value, most significant first (R52). -/
def valueBytes : (sz : Size) → BitVec sz.bits → List Byte
  | .byte, v => [v]
  | .word, v => [v.extractLsb' 8 8, v.extractLsb' 0 8]
  | .long, v => [v.extractLsb' 24 8, v.extractLsb' 16 8, v.extractLsb' 8 8, v.extractLsb' 0 8]

/-- Store the bytes of a value at `a` (R52). -/
def storeBytes (sz : Size) (s : State) (a : Long) (v : BitVec sz.bits) : State :=
  { s with mem := Memory.writeAll s.mem ((byteAddrs s.cfg a sz.bytes).zip (valueBytes sz v)) }

/-- `MemRead(addr, n)` (R50). -/
def memRead (k : Access) (sz : Size) (s : State) (a : Long) : Res (BitVec sz.bits) :=
  andThen (checkAccess k sz s a) fun _ => loadBytes sz s a

/-- `MemWrite(addr, n, v)` (R50); every write of the machine is a data access (R59). -/
def memWrite (sz : Size) (s : State) (a : Long) (v : BitVec sz.bits) : Res State :=
  andThen (checkAccess .data sz s a) fun _ => .next (storeBytes sz s a v)

/-! ### Exceptions -/

/-- `VEC_PRIV`, the vector number of the privilege violation (R6, R180): the one exception with an entry here. -/
def privilegeViolationVector : Nat := 8
/-- `VEC_BUSERR` (R6, R180). -/
def busErrorVector : Nat := 2
/-- `VEC_ADDRERR` (R6, R180). -/
def addressErrorVector : Nat := 3
/-- `VEC_ILLEGAL` (R6, R180). -/
def illegalInstructionVector : Nat := 4
/-- `VEC_TRACE` (R6, R180). -/
def traceVector : Nat := 9
/-- The autovector of interrupt level `n`, 1 to 7 (R180). -/
def autovector (n : Nat) : Nat := 24 + n

/-- Where a vector stands in the vector table: at four times its number (R180). -/
abbrev vectorAddress (vector : Nat) : Long := BitVec.ofNat 32 (4 * vector)

/-- The vector number that names a fault (R6, R180); no entry is taken through it (R182, R183). -/
def faultVector : Fault → Nat
  | .addressError _ => addressErrorVector
  | .busError _ => busErrorVector

/-- The illegal-instruction vector for the words of R93; none for a word outside `0x02xx`, which may be another instruction (R187). -/
def notAndiVector : NotAndi → Option Nat
  | .sizeEleven | .addressRegisterDirect | .modeSevenRegister => some illegalInstructionVector
  | .otherOperationWord => none

/-- The vector number that names a refusal: illegal instruction (R93, R187) and T = 1 (R188); the other refusals have none (R180).
No entry is taken through it. -/
def refusalVector : Refusal → Option Nat
  | .undecodable (.notAndi why _) _ => notAndiVector why
  | .traceOn => some traceVector
  | _ => none

/-- Where the vector table starts: 0 on the MC68000 (R59), VBR on the 68010 and later (R186). -/
def vectorBase (s : State) : Long :=
  match s.cfg.cpu with
  | .mc68000 => 0
  | .mc68010 | .mc68020 | .mc68030 | .mc68040 | .mc68060 => s.vbr

/-- Push a value on the supervisor stack (R184). -/
def push (sz : Size) (v : BitVec sz.bits) (s : State) : Res State :=
  memWrite sz { s with ssp := s.ssp - BitVec.ofNat 32 sz.bytes } (s.ssp - BitVec.ofNat 32 sz.bytes) v

/-- The format and vector-offset word, pushed first on the 68010 and later: format 0, offset four times the vector (R186). -/
def pushFormat (vector : Nat) (s : State) : Res State :=
  match s.cfg.cpu with
  | .mc68000 => .next s
  | .mc68010 | .mc68020 | .mc68030 | .mc68040 | .mc68060 => push .word (BitVec.ofNat 16 (4 * vector)) s

/-- Taking an exception (R184, R185, R186): SR is saved as it was, S is set and trace turned off, `pc` (the address of the
instruction) and then the saved SR are pushed on the supervisor stack, and `pc` is loaded from the vector. Saving SR reads the flags and
pushing reads SSP, so they must hold values (R37, log 25). -/
def takeException (vector : Nat) (s : State) : Res State :=
  andThen (require [.flags, .ssp] s) fun _ =>
  andThen (pushFormat vector (enterSupervisor s)) fun s1 =>
  andThen (push .long s.pc s1) fun s2 =>
  andThen (push .word (readSr s) s2) fun s3 =>
  andThen (memRead .vector .long s3 (vectorBase s3 + vectorAddress vector)) fun target =>
  .next { s3 with pc := target }

/-- The privilege violation of R181. -/
def takePrivilegeViolation (s : State) : Res State := takeException privilegeViolationVector s

/-- Returning from an exception as R192 describes it for the MC68000: privileged; SR and then `pc` are popped from the
supervisor stack. No instruction of the spec calls it (R5, log 20). -/
def returnFromException (s : State) : Res State :=
  if !supervisor s then takePrivilegeViolation s
  else
    match s.cfg.cpu with
    | .mc68000 =>
      andThen (require [.ssp] s) fun _ =>
      andThen (memRead .data .word s s.ssp) fun sr =>
      andThen (memRead .data .long s (s.ssp + 2)) fun pc =>
      .next { writeSr s sr with ssp := s.ssp + 6, pc := pc, noValue := s.noValue.give .flags }
    | .mc68010 | .mc68020 | .mc68030 | .mc68040 | .mc68060 => .refused (.returnFrameNotGiven s.cfg.cpu)

/-- The reset sequence (R210): SR as `resetSr`, VBR 0 (R186), SSP from address 0 and `pc` from address 4. Everything else is
left (log 19). No step invokes it. -/
def takeReset (s : State) : Res State :=
  andThen (memRead .vector .long s 0x000000) fun ssp =>
  andThen (memRead .vector .long s 0x000004) fun pc =>
  .next { resetSr s with vbr := 0, ssp := ssp, pc := pc, noValue := s.noValue.give .ssp }

end Sys2Proof.Machine
end

