-- ==== Sys2Proof/Machine/Operands.lean ====
section
/-! DEFINITION. The operand forms: the effective address of each destination in memory and its register updates (R161). -/

namespace Sys2Proof.Machine

/-- `inc` of R160: the operand size, but 2 for a byte on `A7`. -/
def increment (sz : Size) (r : Fin 8) : Long :=
  if sz = .byte ∧ r = 7 then 2 else BitVec.ofNat 32 sz.bytes

/-- The index register `Xn` (R157). -/
def readIndexReg (s : State) : IndexReg → Long
  | .d r => readD s r
  | .a r => readA s r

/-- The register that `Xn` names. -/
def indexReg (s : State) : IndexReg → RegName
  | .d r => .d r
  | .a r => addressReg s r

/-- `index` of R156: the low word of `Xn` sign-extended, or all of it. -/
def indexValue (s : State) (x : Brief) : Long :=
  match x.size with
  | .word => ((readIndexReg s x.reg).setWidth 16).signExtend 32
  | .long => readIndexReg s x.reg

/-- `EA(mode, reg, sz)` from the state at the start of the instruction (R161, R165); `-(Ar)` gives the decremented value. -/
def effectiveAddress (sz : Size) (s : State) : MemEa → Long
  | .ind r => readA s r
  | .postInc r => readA s r
  | .preDec r => readA s r - increment sz r
  | .disp r d16 => readA s r + d16.signExtend 32
  | .index r x => readA s r + x.disp.signExtend 32 + indexValue s x
  | .absW a => a.signExtend 32
  | .absL a => a

/-- The registers that the effective address reads, the base first (R37, R161). -/
def eaRegisters (s : State) : MemEa → List RegName
  | .ind r | .postInc r | .preDec r | .disp r _ => [addressReg s r]
  | .index r x => [addressReg s r, indexReg s x.reg]
  | .absW _ | .absL _ => []

/-- The register update before the access: `-(Ar)` decrements (R154, R161). -/
def updateBefore (sz : Size) (s : State) : MemEa → State
  | .preDec r => writeA s r (readA s r - increment sz r)
  | .ind _ | .postInc _ | .disp _ _ | .index _ _ | .absW _ | .absL _ => s

/-- The register update after the access: `(Ar)+` increments (R153, R161). -/
def updateAfter (sz : Size) (s : State) : MemEa → State
  | .postInc r => writeA s r (readA s r + increment sz r)
  | .ind _ | .preDec _ | .disp _ _ | .index _ _ | .absW _ | .absL _ => s

end Sys2Proof.Machine
end

