-- ==== Sys2Proof/Machine/Andi.lean ====
section
/-! DEFINITION. The procedure common to `ANDI.B`, `ANDI.W` and `ANDI.L #<data>,<ea>` (R130). -/

namespace Sys2Proof.Machine

/-- `<ea>` is `Dr`: the state after reading the low part, AND, flags, writing the low part (R130, R135). -/
def registerResult (sz : Size) (imm : BitVec sz.bits) (r : Fin 8) (s : State) : State :=
  let res := lowPart sz (readD s r) &&& imm
  writeD sz (dataFlags s res) r res

/-- `<ea>` is `Dr`, which must hold a value (R37). -/
def andiRegister (sz : Size) (imm : BitVec sz.bits) (r : Fin 8) (s : State) : Res State :=
  andThen (require [.d r] s) fun _ => .next (registerResult sz imm r s)

/-- `<ea>` is in memory: the registers of the address must hold values (R37); then read, AND, flags, write at the one address
(R130, R136). -/
def andiMemory (sz : Size) (imm : BitVec sz.bits) (m : MemEa) (s : State) : Res State :=
  andThen (require (eaRegisters s m) s) fun _ =>
  let ea := effectiveAddress sz s m
  let s1 := updateBefore sz s m
  andThen (memRead .data sz s1 ea) fun old =>
  let res := old &&& imm
  andThen (memWrite sz (dataFlags s1 res) ea res) fun s2 =>
  .next (updateAfter sz s2 m)

/-- `ANDI.<sz> #imm,<ea>` (R130). -/
def andiEa (sz : Size) (imm : BitVec sz.bits) (e : Ea) (s : State) : Res State :=
  match e with
  | .dr r => andThen (andiRegister sz imm r s) fun s1 => .next (advancePc s1 (eaLength sz e))
  | .mem m => andThen (andiMemory sz imm m s) fun s1 => .next (advancePc s1 (eaLength sz e))

end Sys2Proof.Machine
end

