-- ==== Sys2Proof/Machine/AndiByte.lean ====
section
/-! DEFINITION. The meanings of `ANDI.B #<data>,<ea>` (R131), one for each destination of R150. -/

namespace Sys2Proof.Machine

/-- `ANDI.B #<data>,Dr` (R131, R151). -/
def execAndiBDr (imm : Byte) (r : Fin 8) (s : State) : Res State :=
  andiEa .byte imm (.dr r) s

/-- `ANDI.B #<data>,(Ar)` (R131, R152). -/
def execAndiBInd (imm : Byte) (r : Fin 8) (s : State) : Res State :=
  andiEa .byte imm (.mem (.ind r)) s

/-- `ANDI.B #<data>,(Ar)+` (R131, R153). -/
def execAndiBPostInc (imm : Byte) (r : Fin 8) (s : State) : Res State :=
  andiEa .byte imm (.mem (.postInc r)) s

/-- `ANDI.B #<data>,-(Ar)` (R131, R154). -/
def execAndiBPreDec (imm : Byte) (r : Fin 8) (s : State) : Res State :=
  andiEa .byte imm (.mem (.preDec r)) s

/-- `ANDI.B #<data>,(d16,Ar)` (R131, R155). -/
def execAndiBDisp (imm : Byte) (r : Fin 8) (d16 : Word) (s : State) : Res State :=
  andiEa .byte imm (.mem (.disp r d16)) s

/-- `ANDI.B #<data>,(d8,Ar,Xn)` (R131, R156). -/
def execAndiBIndex (imm : Byte) (r : Fin 8) (x : Brief) (s : State) : Res State :=
  andiEa .byte imm (.mem (.index r x)) s

/-- `ANDI.B #<data>,(xxx).W` (R131, R158). -/
def execAndiBAbsW (imm : Byte) (a : Word) (s : State) : Res State :=
  andiEa .byte imm (.mem (.absW a)) s

/-- `ANDI.B #<data>,(xxx).L` (R131, R159). -/
def execAndiBAbsL (imm : Byte) (a : Long) (s : State) : Res State :=
  andiEa .byte imm (.mem (.absL a)) s

end Sys2Proof.Machine
end

