-- ==== Sys2Proof/Machine/AndiLong.lean ====
section
/-! DEFINITION. The meanings of `ANDI.L #<data>,<ea>` (R133), one for each destination of R150. -/

namespace Sys2Proof.Machine

/-- `ANDI.L #<data>,Dr` (R133, R151). -/
def execAndiLDr (imm : Long) (r : Fin 8) (s : State) : Res State :=
  andiEa .long imm (.dr r) s

/-- `ANDI.L #<data>,(Ar)` (R133, R152). -/
def execAndiLInd (imm : Long) (r : Fin 8) (s : State) : Res State :=
  andiEa .long imm (.mem (.ind r)) s

/-- `ANDI.L #<data>,(Ar)+` (R133, R153). -/
def execAndiLPostInc (imm : Long) (r : Fin 8) (s : State) : Res State :=
  andiEa .long imm (.mem (.postInc r)) s

/-- `ANDI.L #<data>,-(Ar)` (R133, R154). -/
def execAndiLPreDec (imm : Long) (r : Fin 8) (s : State) : Res State :=
  andiEa .long imm (.mem (.preDec r)) s

/-- `ANDI.L #<data>,(d16,Ar)` (R133, R155). -/
def execAndiLDisp (imm : Long) (r : Fin 8) (d16 : Word) (s : State) : Res State :=
  andiEa .long imm (.mem (.disp r d16)) s

/-- `ANDI.L #<data>,(d8,Ar,Xn)` (R133, R156). -/
def execAndiLIndex (imm : Long) (r : Fin 8) (x : Brief) (s : State) : Res State :=
  andiEa .long imm (.mem (.index r x)) s

/-- `ANDI.L #<data>,(xxx).W` (R133, R158). -/
def execAndiLAbsW (imm : Long) (a : Word) (s : State) : Res State :=
  andiEa .long imm (.mem (.absW a)) s

/-- `ANDI.L #<data>,(xxx).L` (R133, R159). -/
def execAndiLAbsL (imm : Long) (a : Long) (s : State) : Res State :=
  andiEa .long imm (.mem (.absL a)) s

end Sys2Proof.Machine
end

