-- ==== Sys2Proof/Machine/AndiWord.lean ====
section
/-! DEFINITION. The meanings of `ANDI.W #<data>,<ea>` (R132), one for each destination of R150. -/

namespace Sys2Proof.Machine

/-- `ANDI.W #<data>,Dr` (R132, R151). -/
def execAndiWDr (imm : Word) (r : Fin 8) (s : State) : Res State :=
  andiEa .word imm (.dr r) s

/-- `ANDI.W #<data>,(Ar)` (R132, R152). -/
def execAndiWInd (imm : Word) (r : Fin 8) (s : State) : Res State :=
  andiEa .word imm (.mem (.ind r)) s

/-- `ANDI.W #<data>,(Ar)+` (R132, R153). -/
def execAndiWPostInc (imm : Word) (r : Fin 8) (s : State) : Res State :=
  andiEa .word imm (.mem (.postInc r)) s

/-- `ANDI.W #<data>,-(Ar)` (R132, R154). -/
def execAndiWPreDec (imm : Word) (r : Fin 8) (s : State) : Res State :=
  andiEa .word imm (.mem (.preDec r)) s

/-- `ANDI.W #<data>,(d16,Ar)` (R132, R155). -/
def execAndiWDisp (imm : Word) (r : Fin 8) (d16 : Word) (s : State) : Res State :=
  andiEa .word imm (.mem (.disp r d16)) s

/-- `ANDI.W #<data>,(d8,Ar,Xn)` (R132, R156). -/
def execAndiWIndex (imm : Word) (r : Fin 8) (x : Brief) (s : State) : Res State :=
  andiEa .word imm (.mem (.index r x)) s

/-- `ANDI.W #<data>,(xxx).W` (R132, R158). -/
def execAndiWAbsW (imm : Word) (a : Word) (s : State) : Res State :=
  andiEa .word imm (.mem (.absW a)) s

/-- `ANDI.W #<data>,(xxx).L` (R132, R159). -/
def execAndiWAbsL (imm : Word) (a : Long) (s : State) : Res State :=
  andiEa .word imm (.mem (.absL a)) s

end Sys2Proof.Machine
end

