-- ==== Sys2Proof/Machine/Status.lean ====
section
/-! DEFINITION. The meanings of ANDI to CCR (R110) and ANDI to SR (R112). -/

namespace Sys2Proof.Machine

/-- `ANDI.B #<data>,CCR` (R110, R111): reads the flags, which must hold values (R37, R211). -/
def execAndiBCcr (imm : Byte) (s : State) : Res State :=
  andThen (require [.flags] s) fun _ => .next (advancePc (writeCcr s (readCcr s &&& imm)) 4)

/-- `ANDI.W #<data>,SR` (R112 to R116): in user mode the privilege violation and nothing else (R114); else reads the flags,
which must hold values (R37, R211). -/
def execAndiWSr (imm : Word) (s : State) : Res State :=
  if supervisor s then andThen (require [.flags] s) fun _ => .next (advancePc (writeSr s (readSr s &&& imm)) 4)
  else takePrivilegeViolation s

end Sys2Proof.Machine
end

