-- ==== Sys2Proof/Machine/Dispatch.lean ====
section
/-! DEFINITION. `exec`: one arm per constructor of `Instr`, each one call of that instruction's own meaning. -/

namespace Sys2Proof.Machine

def exec (i : Instr) (s : State) : Host.Outcome State Fault Refusal :=
  match i with
  | .andiBCcr imm => Sys2Proof.Machine.execAndiBCcr imm s
  | .andiWSr imm => Sys2Proof.Machine.execAndiWSr imm s
  | .andiBDr imm r => Sys2Proof.Machine.execAndiBDr imm r s
  | .andiBInd imm r => Sys2Proof.Machine.execAndiBInd imm r s
  | .andiBPostInc imm r => Sys2Proof.Machine.execAndiBPostInc imm r s
  | .andiBPreDec imm r => Sys2Proof.Machine.execAndiBPreDec imm r s
  | .andiBDisp imm r d16 => Sys2Proof.Machine.execAndiBDisp imm r d16 s
  | .andiBIndex imm r x => Sys2Proof.Machine.execAndiBIndex imm r x s
  | .andiBAbsW imm a => Sys2Proof.Machine.execAndiBAbsW imm a s
  | .andiBAbsL imm a => Sys2Proof.Machine.execAndiBAbsL imm a s
  | .andiWDr imm r => Sys2Proof.Machine.execAndiWDr imm r s
  | .andiWInd imm r => Sys2Proof.Machine.execAndiWInd imm r s
  | .andiWPostInc imm r => Sys2Proof.Machine.execAndiWPostInc imm r s
  | .andiWPreDec imm r => Sys2Proof.Machine.execAndiWPreDec imm r s
  | .andiWDisp imm r d16 => Sys2Proof.Machine.execAndiWDisp imm r d16 s
  | .andiWIndex imm r x => Sys2Proof.Machine.execAndiWIndex imm r x s
  | .andiWAbsW imm a => Sys2Proof.Machine.execAndiWAbsW imm a s
  | .andiWAbsL imm a => Sys2Proof.Machine.execAndiWAbsL imm a s
  | .andiLDr imm r => Sys2Proof.Machine.execAndiLDr imm r s
  | .andiLInd imm r => Sys2Proof.Machine.execAndiLInd imm r s
  | .andiLPostInc imm r => Sys2Proof.Machine.execAndiLPostInc imm r s
  | .andiLPreDec imm r => Sys2Proof.Machine.execAndiLPreDec imm r s
  | .andiLDisp imm r d16 => Sys2Proof.Machine.execAndiLDisp imm r d16 s
  | .andiLIndex imm r x => Sys2Proof.Machine.execAndiLIndex imm r x s
  | .andiLAbsW imm a => Sys2Proof.Machine.execAndiLAbsW imm a s
  | .andiLAbsL imm a => Sys2Proof.Machine.execAndiLAbsL imm a s

end Sys2Proof.Machine
end

