-- ==== Sys2Proof/Machine/Fetch.lean ====
section
/-! DEFINITION. Fetching and decoding the instruction at `pc`, in the order of R190. -/

namespace Sys2Proof.Machine

/-- What the fetch finds. -/
inductive Fetched
  /-- The instruction at `pc`. -/
  | instr (i : Instr)
  /-- ANDI to SR in user mode, seen at the operation word (R114, step 3 of R190). -/
  | privilegeViolation
  | fault (e : Fault)
  | refused (e : Refusal)
deriving DecidableEq, Repr

/-- `FetchWord(addr)` (R54). -/
def fetchWord (s : State) (a : Long) : Res Word := memRead .fetch .word s a

/-- The operation word is ANDI to SR and the mode is user mode (R114). -/
def violatesPrivilege (s : State) (w0 : Word) : Bool := (w0 = 0x027C) && !supervisor s

/-- A launch state has a modelled processor and T = 0 (R2, R55, R188). -/
def launchRefusal (s : State) : Option Refusal :=
  if !s.cfg.cpu.modelled then some (.cpuNotModelled s.cfg.cpu)
  else if flagT s then some .traceOn
  else none

/-- Decode the words fetched so far; when they are not all there, fetch the next one, in ascending order (R96, R190). `fuel` bounds
the number of words still to fetch: no instruction has more than five (R90). The words may not pass the top of the
address space (R27, log 18). -/
def fetchRest (s : State) : (fuel : Nat) → (ws : List Word) → Fetched
  | 0, _ => .refused (.instructionWraps s.pc)
  | fuel + 1, ws =>
    match decodeWords ws with
    | .done i _ => .instr i
    | .error e => .refused (.undecodable e s.pc)
    | .incomplete =>
      if 2 ^ 32 ≤ s.pc.toNat + 2 * ws.length then .refused (.instructionWraps s.pc)
      else
        match fetchWord s (s.pc + BitVec.ofNat 32 (2 * ws.length)) with
        | .next w => fetchRest s fuel (ws ++ [w])
        | .fault e => .fault e
        | .refused e => .refused e

/-- Steps 1 to 4 of R190: the operation word, its decoding and the privilege check, then the words after it. -/
def fetch (s : State) : Fetched :=
  match fetchWord s s.pc with
  | .fault e => .fault e
  | .refused e => .refused e
  | .next w0 => if violatesPrivilege s w0 then .privilegeViolation else fetchRest s 6 [w0]

/-! ### The end of a sequence -/

/-- `END` is just past the last word of the sequence at `a` (R17), found by the length that each operation word tells (R95). Where the
word at `a` holds no value or spells no ANDI, a run is refused (R17 (c), R37): the sequence goes no further, and `END` is never reached
(log 24). `fuel` bounds the number of instructions. -/
def sequenceEnds (s : State) (endAddr : Long) : (fuel : Nat) → (a : Long) → Bool
  | 0, a => a = endAddr
  | fuel + 1, a =>
    if a = endAddr then true
    else
      match loadBytes .word s a with
      | .fault _ | .refused _ => true
      | .next w0 =>
        match decodeOp w0 with
        | .error _ => true
        | .ok op => decide (opLength op ≤ (endAddr - a).toNat) && sequenceEnds s endAddr fuel (a + BitVec.ofNat 32 (opLength op))

/-! ### Loading a program from outside (log 21) -/

/-- The words of a program in memory at `a`: their bytes, and the addresses declared as `code`, ten one-byte regions. -/
def loadCode (s : State) (a : Long) (ws : List Word) : State :=
  let bytes := bytesOfWords ws
  let addrs := byteAddrs s.cfg a bytes.length
  { s with
    mem := Memory.writeAll s.mem (addrs.zip bytes)
    cfg := { s.cfg with
      memMap := { s.cfg.memMap with
        code := addrs.map (fun k => { base := k, size := 1 }) ++ s.cfg.memMap.code } } }

end Sys2Proof.Machine
end

