-- ==== Sys2Proof/Machine/Step.lean ====
section
/-! DEFINITION. One step: a launch state of the spec, then the instruction at `pc`. -/

namespace Sys2Proof.Machine

/-- One ANDI instruction (R12), or the privilege violation (R184), or the stop the fetch found (R190). -/
def step (s : State) : Host.Outcome State Fault Refusal :=
  match launchRefusal s with
  | some e => .refused e
  | none =>
    match fetch s with
    | .instr i => exec i s
    | .privilegeViolation => takePrivilegeViolation s
    | .fault e => .fault e
    | .refused e => .refused e

/-- `s` with the instruction of a table word loaded at `pc`, where `step` fetches (log 21). -/
def State.withFetchWord (s : State) (nbits w : Nat) : State := loadCode s s.pc (tableWords nbits w)

end Sys2Proof.Machine
end

