-- ==== Sys2Proof/Assembler.lean ====
section
/-! DEFINITION. The written form of an instruction (R97): mnemonic, size suffix, immediate, destination. No step reads it. -/

namespace Sys2Proof

/-- The low `n` hexadecimal digits of `v`. -/
def hexDigits : Nat → Nat → List Char
  | 0, _ => []
  | n + 1, v => hexDigits n (v / 16) ++ [(Nat.digitChar (v % 16)).toUpper]

/-- A number in hexadecimal with a leading `$` (R97, log 22). -/
def asmHex {w : Nat} (v : BitVec w) : String := String.ofList ('$' :: hexDigits (w / 4) v.toNat)

/-- A signed displacement in decimal (log 22). -/
def asmSigned {w : Nat} (v : BitVec w) : String := toString v.toInt

def asmD (r : Fin 8) : String := "D" ++ toString r.val
def asmA (r : Fin 8) : String := "A" ++ toString r.val

/-- `Dn.W`, `Dn.L`, `An.W`, `An.L` (R97). -/
def asmIndex (x : Brief) : String :=
  (match x.reg with
    | .d r => asmD r
    | .a r => asmA r) ++
  (match x.size with
    | .word => ".W"
    | .long => ".L")

/-- The destination (R97). -/
def asmEa : Ea → String
  | .dr r => asmD r
  | .mem (.ind r) => "(" ++ asmA r ++ ")"
  | .mem (.postInc r) => "(" ++ asmA r ++ ")+"
  | .mem (.preDec r) => "-(" ++ asmA r ++ ")"
  | .mem (.disp r d16) => "(" ++ asmSigned d16 ++ "," ++ asmA r ++ ")"
  | .mem (.index r x) => "(" ++ asmSigned x.disp ++ "," ++ asmA r ++ "," ++ asmIndex x ++ ")"
  | .mem (.absW a) => "(" ++ asmHex a ++ ").W"
  | .mem (.absL a) => "(" ++ asmHex a ++ ").L"

/-- The size suffix (R97). -/
def asmSize : Size → String
  | .byte => ".B"
  | .word => ".W"
  | .long => ".L"

/-- The instruction as the page writes it (R97). -/
def Instr.asm (i : Instr) : String :=
  match i.form with
  | .ccr imm => "ANDI.B #" ++ asmHex imm ++ ",CCR"
  | .sr imm => "ANDI.W #" ++ asmHex imm ++ ",SR"
  | .ea sz imm e => "ANDI" ++ asmSize sz ++ " #" ++ asmHex imm ++ "," ++ asmEa e

end Sys2Proof
end

