-- ==== Sys2Proof/Machine/Timing.lean ====
section
/-! DEFINITION. The execution-time tables R221 to R223 and the bus-cycle count of R224, as data: no step reads them (R225). -/

namespace Sys2Proof.Machine

/-- A time cell `n(r/w)`: clock periods, read bus cycles, write bus cycles (R220). -/
structure ExecTime where
  clocks : Nat
  reads : Nat
  writes : Nat
deriving DecidableEq, Repr

/-- R222: the byte and word forms. -/
def timeByteWord : Ea → ExecTime
  | .dr _ => ⟨8, 2, 0⟩
  | .mem (.ind _) => ⟨16, 3, 1⟩
  | .mem (.postInc _) => ⟨16, 3, 1⟩
  | .mem (.preDec _) => ⟨18, 3, 1⟩
  | .mem (.disp _ _) => ⟨20, 4, 1⟩
  | .mem (.index _ _) => ⟨22, 4, 1⟩
  | .mem (.absW _) => ⟨20, 4, 1⟩
  | .mem (.absL _) => ⟨24, 5, 1⟩

/-- R223: the long form. -/
def timeLong : Ea → ExecTime
  | .dr _ => ⟨16, 3, 0⟩
  | .mem (.ind _) => ⟨28, 5, 2⟩
  | .mem (.postInc _) => ⟨28, 5, 2⟩
  | .mem (.preDec _) => ⟨30, 5, 2⟩
  | .mem (.disp _ _) => ⟨32, 6, 2⟩
  | .mem (.index _ _) => ⟨34, 6, 2⟩
  | .mem (.absW _) => ⟨32, 6, 2⟩
  | .mem (.absL _) => ⟨36, 7, 2⟩

/-- The page's time of an instruction that completes; none where the page's cell is empty or says that the form is not there. -/
def execTime (cpu : Cpu) (i : Instr) : Option ExecTime :=
  match cpu with
  | .mc68000 | .mc68010 =>
    match i.form with
    | .ccr _ | .sr _ => some ⟨20, 2, 0⟩
    | .ea .byte _ e | .ea .word _ e => some (timeByteWord e)
    | .ea .long _ e => some (timeLong e)
  | .mc68020 | .mc68030 | .mc68040 | .mc68060 => none

/-- Bus cycles of one operand access on a 16-bit data bus: two for a long word (R224). -/
def accessCycles : Size → Nat
  | .byte | .word => 1
  | .long => 2

/-- Data reads, and as many data writes, of an instruction in bus cycles (R56, R224). -/
def dataCycles (i : Instr) : Nat :=
  match i.form with
  | .ccr _ | .sr _ => 0
  | .ea _ _ (.dr _) => 0
  | .ea sz _ (.mem _) => accessCycles sz

end Sys2Proof.Machine
end

