-- ==== Sys2Proof/Safety.lean ====
section
/-! DEFINITION. What a launch state is (R212), how a run ends (R17), the invariant of a run, and the readiness conditions
that claims use. -/

namespace Sys2Proof.Machine

/-! ### Launch states and runs -/

/-! The named premises of R212. -/

/-- `pc` is even. -/
abbrev PcEven (s : State) : Prop := s.pc[0] = false
/-- `END` is even. -/
abbrev EndEven (endAddr : Long) : Prop := endAddr[0] = false
/-- `SR & ~SR_MASK = 0`. -/
abbrev SrReservedZero (s : State) : Prop := s.sr &&& ~~~srMask s.cfg.cpu = 0
/-- `SR[15] = 0`. -/
abbrev TraceOff (s : State) : Prop := flagT s = false
/-- The words from `pc` to `END` lie in `code`. -/
abbrev CodeInCode (endAddr : Long) (s : State) : Prop :=
  ∀ k < (endAddr - s.pc).toNat, admits s.cfg .fetch (reduce s.cfg (s.pc + BitVec.ofNat 32 k)) = true
/-- `END` is just past the last instruction word of the sequence at `pc` (R17). The fuel is a byte count, and every
instruction has a byte. -/
abbrev EndPastLastWord (endAddr : Long) (s : State) : Prop := sequenceEnds s endAddr (endAddr - s.pc).toNat s.pc = true
/-- No interrupt above the mask is requested (R189): true of every state, as the model has no interrupt agent; a claim carries the
assumption to the hardware (log 16). -/
abbrev NoInterrupts (_ : State) : Prop := True
/-- The processor alone writes the memory it uses (R62): true of every state, as the model has no other agent; a claim carries the
assumption to the hardware (log 17). -/
abbrev SoleBusMaster (_ : State) : Prop := True
/-- The map and the parameters are ones a launch may give (`Config.wf`, log 26), and the bytes that hold a value are a memory of that many
address bits. -/
abbrev LaunchMemory (s : State) : Prop :=
  s.cfg.wf = true ∧ Memory.wf s.mem = true ∧ ∀ c ∈ s.mem, c.1 < 2 ^ s.cfg.addrBits

/-- A launch state with its `END` (R212, R17); which registers hold no value is free. -/
abbrev LaunchState (endAddr : Long) (s : State) : Prop :=
  PcEven s ∧ EndEven endAddr ∧ SrReservedZero s ∧ TraceOff s ∧ LaunchMemory s ∧ CodeInCode endAddr s ∧
    EndPastLastWord endAddr s ∧ NoInterrupts s ∧ SoleBusMaster s

/-- How a run ends (R17). -/
inductive RunEnd
  /-- `pc` has reached `END`. -/
  | normal (s : State)
  /-- An instruction took an exception; `s` is the state after trap entry. -/
  | trapped (s : State)
  | fault (e : Fault)
  | refused (e : Refusal)
  /-- The steps allowed are used up. -/
  | running (s : State)
deriving DecidableEq, Repr

/-- The instruction at `pc` takes the privilege violation. -/
def traps (s : State) : Bool :=
  match fetch s with
  | .privilegeViolation => true
  | .instr _ | .fault _ | .refused _ => false

/-- A run to the address `END` (R17): it stops at `END`, after a trap's entry, at a fault, or at a refusal. `launch` starts it only where
`END` is just past the last instruction word. -/
def runToEnd (endAddr : Long) : Nat → State → RunEnd
  | 0, s => if s.pc = endAddr then .normal s else .running s
  | k + 1, s =>
    if s.pc = endAddr then .normal s
    else
      match step s with
      | .next t => if traps s then .trapped t else runToEnd endAddr k t
      | .fault e => .fault e
      | .refused e => .refused e

/-- A run from a launch state (R17, R212); none where `s` and `END` are no launch. -/
def launch (endAddr : Long) (k : Nat) (s : State) : Option RunEnd :=
  if LaunchState endAddr s then some (runToEnd endAddr k s) else none

/-! ### The invariant of a run -/

/-- What every step keeps: memory in canonical form and inside the reduced address space (R60), the bits of SR drawn as 0
stored as 0 (R35), T = 0 (R188). -/
structure Inv (s : State) : Prop where
  memory : Memory.wf s.mem = true
  inRange : ∀ c ∈ s.mem, c.1 < 2 ^ s.cfg.addrBits
  srReservedZero : s.sr &&& ~~~srMask s.cfg.cpu = 0
  traceOff : flagT s = false

/-! ### Values and their absence -/

/-- The bits of SR that hold values: all but the flags that hold none (R37). -/
def seenSr (n : NoValue) : Word :=
  0b11111111111#11 ++ BitVec.ofBool (!n.x) ++ BitVec.ofBool (!n.n) ++ BitVec.ofBool (!n.z) ++ BitVec.ofBool (!n.v) ++
    BitVec.ofBool (!n.c)

/-- The states are one but for what their fields hold of registers and flags that hold no value (R37). -/
structure SameSeen (s t : State) : Prop where
  noValue : t.noValue = s.noValue
  cfg : t.cfg = s.cfg
  pc : t.pc = s.pc
  vbr : t.vbr = s.vbr
  mem : t.mem = s.mem
  d : ∀ r : Fin 8, s.noValue.lacks (.d r) = false → t.d[r] = s.d[r]
  a : ∀ r : Fin 7, s.noValue.lacks (.a r) = false → t.a[r] = s.a[r]
  usp : s.noValue.lacks .usp = false → t.usp = s.usp
  ssp : s.noValue.lacks .ssp = false → t.ssp = s.ssp
  sr : t.sr &&& seenSr s.noValue = s.sr &&& seenSr s.noValue

/-! ### Readiness: conditions on the state and the operands alone -/

/-- Every one of the registers, and the flags if they are among them, holds a value (R37). -/
def holds (s : State) (rs : List RegName) : Bool := rs.all fun r => !s.noValue.lacks r

/-- Every byte of the operand at `a` holds a value. -/
def holdsValues (sz : Size) (s : State) (a : Long) : Bool :=
  (List.range sz.bytes).all fun k => (byteAt s (a + BitVec.ofNat 32 k)).isSome

/-- An operand of `sz` bytes at `a` can be read: aligned, admitted, and every byte holds a value (R213). -/
def readable (k : Access) (sz : Size) (s : State) (a : Long) : Bool :=
  aligned sz a && admitsAll k sz s.cfg a && holdsValues sz s a

/-- A value of `sz` bytes can be written at `a`: aligned and inside `data` (R213). -/
def writable (sz : Size) (s : State) (a : Long) : Bool :=
  aligned sz a && admitsAll .data sz s.cfg a

/-- The entry of the privilege violation succeeds on the MC68000 (R184): SSP and the flags hold values, the six bytes below SSP are in
`data` and aligned, and vector 8 is readable. -/
def trapReady (s : State) : Bool :=
  holds s [.flags, .ssp] && writable .long s (s.ssp - 4) && writable .word s (s.ssp - 6) && readable .vector .long s 0x000020

/-- Vector 8 holds an even address (R213). -/
def handlerEven (s : State) : Bool :=
  match loadBytes .long s 0x000020 with
  | .next a => !a[0]
  | .fault _ | .refused _ => false

/-- What R213 asks before an ANDI to SR that may execute in user mode: `trapReady`, and the even address of a handler. -/
def trapPrepared (s : State) : Bool := trapReady s && handlerEven s

/-- The entry succeeds on the 68010 (R186): eight bytes below SSP, and the vector at VBR + 0x20. -/
def trapReady010 (s : State) : Bool :=
  holds s [.flags, .ssp] && writable .word s (s.ssp - 2) && writable .long s (s.ssp - 6) && writable .word s (s.ssp - 8) &&
    readable .vector .long s (s.vbr + 0x20)

/-- The address lies among the `n` bytes at `a`, as memory sees them (R60). -/
def within (c : Config) (a : Long) (n : Nat) (x : Long) : Bool := (byteAddrs c a n).contains (reduce c x)

end Sys2Proof.Machine
end

