-- ==== Sys2Proof/Certificates/Slice0/Obligations.lean ====
section
/-! DEFINITION. The statements for the provers. `Instr.andi sz imm e` is the constructor of `ANDI.<sz> #imm,<e>`, so a statement over
`sz` and `Ea` speaks of the 24 constructors `andiB…`, `andiW…`, `andiL…`. -/

open Sys2Proof Sys2Proof.Machine

/-! ### Encoding -/

/-- Decoding the words of an instruction gives the instruction and leaves what follows, for all 26 forms and every operand value;
the same on bytes. -/
def Obligations.DecodeOfEncode : Prop :=
  ∀ (i : Instr) (rest : List Word),
    decodeWords (encode i ++ rest) = .done i rest ∧
    decode (bytesOfWords (encode i ++ rest)) = .done i rest

/-- Whatever words decode to an instruction are the words of its encoding: each accepted spelling is the only one. -/
def Obligations.EncodeOfDecode : Prop :=
  ∀ (ws : List Word) (i : Instr) (rest : List Word),
    decodeWords ws = .done i rest → encode i ++ rest = ws

/-- Words written out in 42_addressing_modes.md section 3 and in R84, R85 decode to the instructions they are written for. -/
def Obligations.SpecWordsDecode : Prop :=
  decodeWords [0x023C, 0x001E] = .done (.andiBCcr 0x1E) [] ∧
  decodeWords [0x027C, 0xDFFF] = .done (.andiWSr 0xDFFF) [] ∧
  decodeWords [0x0284, 0x8000, 0x0000] = .done (.andiLDr 0x80000000 4) [] ∧
  decodeWords [0x0259, 0x0FF0] = .done (.andiWPostInc 0x0FF0 1) [] ∧
  decodeWords [0x026B, 0x00FF, 0xFFFE] = .done (.andiWDisp 0x00FF 3 (-2)) [] ∧
  decodeWords [0x0234, 0x000F, 0xD8FF] = .done (.andiBIndex 0x0F 4 ⟨.a 5, .long, -1⟩) [] ∧
  decodeWords [0x02B9, 0x0000, 0xFFFF, 0x0001, 0x2344] = .done (.andiLAbsL 0x0000FFFF 0x00012344) []

/-- R92: the map of the operation words 0x0200 to 0x02FF, row by row, and the count of those that spell an ANDI. -/
def Obligations.OperationWordMap : Prop :=
  (∀ (sz : Size) (r : Fin 8) (base : Word),
    base = (match sz with | .byte => 0x0200 | .word => 0x0240 | .long => 0x0280) →
    decodeOp (base + BitVec.ofNat 16 r) = .ok (.ea sz (.dr r)) ∧
    decodeOp (base + 0x08 + BitVec.ofNat 16 r) = .error .addressRegisterDirect ∧
    decodeOp (base + 0x10 + BitVec.ofNat 16 r) = .ok (.ea sz (.ind r)) ∧
    decodeOp (base + 0x18 + BitVec.ofNat 16 r) = .ok (.ea sz (.postInc r)) ∧
    decodeOp (base + 0x20 + BitVec.ofNat 16 r) = .ok (.ea sz (.preDec r)) ∧
    decodeOp (base + 0x28 + BitVec.ofNat 16 r) = .ok (.ea sz (.disp r)) ∧
    decodeOp (base + 0x30 + BitVec.ofNat 16 r) = .ok (.ea sz (.index r)) ∧
    decodeOp (base + 0x38) = .ok (.ea sz .absW) ∧
    decodeOp (base + 0x39) = .ok (.ea sz .absL) ∧
    (∀ k ∈ [0x3A, 0x3B, 0x3D, 0x3E, 0x3F], decodeOp (base + BitVec.ofNat 16 k) = .error .modeSevenRegister)) ∧
  decodeOp 0x023C = .ok .ccr ∧ decodeOp 0x027C = .ok .sr ∧ decodeOp 0x02BC = .error .modeSevenRegister ∧
  (∀ k : Fin 64, decodeOp (0x02C0 + BitVec.ofNat 16 k) = .error .sizeEleven) ∧
  (∀ w0 : Word, w0.extractLsb' 8 8 ≠ 0x02 → decodeOp w0 = .error .otherOperationWord) ∧
  ((List.range 256).filter fun k => (decodeOp (0x0200 + BitVec.ofNat 16 k)).isOk).length = 152

/-- R90 and R95: the length of every form, and that the operation word alone tells it. -/
def Obligations.LengthFromOperationWord : Prop :=
  (∀ w0 ws op i rest, decodeOp w0 = .ok op → decodeWords (w0 :: ws) = .done i rest →
    i.length = opLength op ∧ opLength op + 2 * rest.length = 2 + 2 * ws.length) ∧
  (∀ i, 2 * (encode i).length = i.length) ∧
  (∀ imm, (Instr.andiBCcr imm).length = 4) ∧ (∀ imm, (Instr.andiWSr imm).length = 4) ∧
  (∀ (sz : Size) (imm : BitVec sz.bits) (r : Fin 8) (d16 a : Word) (x : Brief) (l : Long),
    let n := if sz = .long then 6 else 4
    (Instr.andi sz imm (.dr r)).length = n ∧ (Instr.andi sz imm (.mem (.ind r))).length = n ∧
    (Instr.andi sz imm (.mem (.postInc r))).length = n ∧ (Instr.andi sz imm (.mem (.preDec r))).length = n ∧
    (Instr.andi sz imm (.mem (.disp r d16))).length = n + 2 ∧ (Instr.andi sz imm (.mem (.index r x))).length = n + 2 ∧
    (Instr.andi sz imm (.mem (.absW a))).length = n + 2 ∧ (Instr.andi sz imm (.mem (.absL l))).length = n + 4)

/-- R94: a byte form whose immediate word has a nonzero high byte is rejected, and `step` refuses it. -/
def Obligations.ByteImmediateHighByteRefused : Prop :=
  ∀ (s : State) (w0 w1 : Word) (rest : List Word),
    (decodeOp w0 = .ok .ccr ∨ ∃ m, decodeOp w0 = .ok (.ea .byte m)) → w1.extractLsb' 8 8 ≠ 0 →
    decodeWords (w0 :: w1 :: rest) = .error (.byteImmediateHighByte w1) ∧
    (launchRefusal s = none → s.pc.toNat + 4 ≤ 2 ^ 32 →
      memRead .fetch .word s s.pc = .next w0 → memRead .fetch .word s (s.pc + 2) = .next w1 →
      step s = .refused (.undecodable (.byteImmediateHighByte w1) s.pc))

/-- R156: the brief extension word, field by field, for every word; a nonzero bit among 10 to 8 is rejected. -/
def Obligations.BriefExtensionWordFields : Prop :=
  ∀ (e : Word) (rest : List Word),
    (e.extractLsb' 8 3 ≠ 0 → decodeBrief (e :: rest) = .error (.briefExtensionBits e)) ∧
    (e.extractLsb' 8 3 = 0 → ∃ x, decodeBrief (e :: rest) = .done x rest ∧
      x.disp = e.extractLsb' 0 8 ∧
      (x.size = .long ↔ e[11] = true) ∧
      (∀ r : Fin 8, x.reg = .d r ↔ (e[15] = false ∧ (e.extractLsb' 12 3).toNat = r.val)) ∧
      (∀ r : Fin 8, x.reg = .a r ↔ (e[15] = true ∧ (e.extractLsb' 12 3).toNat = r.val)))

/-! ### The step -/

/-- When the words at `pc` decode to `i`, a step is `exec i`. -/
def Obligations.StepRunsDecodedInstruction : Prop :=
  ∀ (s : State) (ws : List Word) (i : Instr),
    launchRefusal s = none → decodeWords ws = .done i [] → s.pc.toNat + 2 * ws.length ≤ 2 ^ 32 →
    (∀ k (h : k < ws.length), memRead .fetch .word s (s.pc + BitVec.ofNat 32 (2 * k)) = .next ws[k]) →
    step s = exec i s

/-- Steps 1 and 2 of R190: an odd `pc`, then a `pc` outside `code`, then an operation word that spells no ANDI. -/
def Obligations.FetchStops : Prop :=
  ∀ s : State, launchRefusal s = none →
    (s.pc[0] = true → step s = .fault (.addressError s.pc)) ∧
    (s.pc[0] = false → admitsAll .fetch .word s.cfg s.pc = false → step s = .fault (.busError s.pc)) ∧
    (∀ w0 why, memRead .fetch .word s s.pc = .next w0 → decodeOp w0 = .error why →
      step s = .refused (.undecodable (.notAndi why w0) s.pc))

/-- Step 4 of R190: a word after the operation word that cannot be fetched stops the step, when every word before it has
been fetched and leaves the instruction incomplete. -/
def Obligations.LaterFetchStops : Prop :=
  ∀ (s : State) (w0 : Word) (ws : List Word), launchRefusal s = none →
    violatesPrivilege s w0 = false → decodeWords (w0 :: ws) = .incomplete →
    s.pc.toNat + 2 * (ws.length + 1) < 2 ^ 32 →
    (∀ k (h : k < ws.length + 1), memRead .fetch .word s (s.pc + BitVec.ofNat 32 (2 * k)) = .next (w0 :: ws)[k]) →
    let a := s.pc + BitVec.ofNat 32 (2 * (ws.length + 1))
    (admitsAll .fetch .word s.cfg a = false → step s = .fault (.busError a)) ∧
    (∀ e, memRead .fetch .word s a = .refused e → step s = .refused e)

/-- R114: ANDI to SR in user mode takes the privilege violation, whatever the datum, and `step` does so on the operation word alone. -/
def Obligations.PrivilegeCheckComesFirst : Prop :=
  ∀ s : State, supervisor s = false →
    (∀ imm, exec (.andiWSr imm) s = takePrivilegeViolation s) ∧
    (launchRefusal s = none → memRead .fetch .word s s.pc = .next 0x027C → step s = takePrivilegeViolation s)

/-- A state with T = 1 and a processor other than 68000 and 68010 are refused by every step (R188, R2, D1, D14; each step and not
the launch alone is the model's reading, log 12). -/
def Obligations.StepRefusesTraceAndOtherProcessors : Prop :=
  ∀ s : State,
    (s.cfg.cpu = .mc68000 ∨ s.cfg.cpu = .mc68010 → flagT s = true → step s = .refused .traceOn) ∧
    (s.cfg.cpu ≠ .mc68000 → s.cfg.cpu ≠ .mc68010 → step s = .refused (.cpuNotModelled s.cfg.cpu))

/-- R27: `pc` advances by the length of the instruction, modulo 2^32, when no exception is taken; the trap loads it from the vector;
an instruction whose words pass the top of the address space does not run, and is refused as such when the words up to the top
can be fetched and leave it incomplete. -/
def Obligations.ProgramCounterAdvance : Prop :=
  (∀ i s t, exec i s = .next t → ((∀ imm, i ≠ .andiWSr imm) ∨ supervisor s = true) →
    t.pc = s.pc + BitVec.ofNat 32 (2 * (encode i).length)) ∧
  (∀ s t, s.cfg.cpu = .mc68000 → takePrivilegeViolation s = .next t → loadBytes .long t 0x000020 = .next t.pc) ∧
  (∀ s w0 op, launchRefusal s = none → memRead .fetch .word s s.pc = .next w0 → decodeOp w0 = .ok op →
    violatesPrivilege s w0 = false → 2 ^ 32 < s.pc.toNat + opLength op → ∀ t, step s ≠ .next t) ∧
  (∀ s w0 ws, launchRefusal s = none → violatesPrivilege s w0 = false → decodeWords (w0 :: ws) = .incomplete →
    s.pc.toNat + 2 * (ws.length + 1) = 2 ^ 32 →
    (∀ k (h : k < ws.length + 1), memRead .fetch .word s (s.pc + BitVec.ofNat 32 (2 * k)) = .next (w0 :: ws)[k]) →
    step s = .refused (.instructionWraps s.pc))

/-! ### ANDI to CCR and ANDI to SR -/

/-- R110 and R111, when the flags hold values: the new CCR, flag by flag; nothing else but `pc` changes, in either mode. -/
def Obligations.AndiToCcrResult : Prop :=
  ∀ (imm : Byte) (s : State), holds s [.flags] = true → ∃ t, exec (.andiBCcr imm) s = .next t ∧
    readCcr t = readCcr s &&& imm ∧ systemByte t = systemByte s ∧
    flagX t = (flagX s && imm[4]) ∧ flagN t = (flagN s && imm[3]) ∧ flagZ t = (flagZ s && imm[2]) ∧
    flagV t = (flagV s && imm[1]) ∧ flagC t = (flagC s && imm[0]) ∧
    t.pc = s.pc + 4 ∧
    t.d = s.d ∧ t.a = s.a ∧ t.usp = s.usp ∧ t.ssp = s.ssp ∧ t.vbr = s.vbr ∧ t.cfg = s.cfg ∧ t.noValue = s.noValue ∧
    (∀ x, byteAt t x = byteAt s x)

/-- R112 and R113: in supervisor mode, when the flags hold values, the new SR and its flags, and nothing else but `pc` changes; in user
mode the privilege violation, after which no flag has changed. -/
def Obligations.AndiToSrResult : Prop :=
  ∀ (imm : Word) (s : State),
    (supervisor s = true → holds s [.flags] = true → ∃ t, exec (.andiWSr imm) s = .next t ∧
      readSr t = readSr s &&& imm ∧
      flagX t = (readSr s &&& imm)[4] ∧ flagN t = (readSr s &&& imm)[3] ∧ flagZ t = (readSr s &&& imm)[2] ∧
      flagV t = (readSr s &&& imm)[1] ∧ flagC t = (readSr s &&& imm)[0] ∧
      t.pc = s.pc + 4 ∧
      t.d = s.d ∧ t.a = s.a ∧ t.usp = s.usp ∧ t.ssp = s.ssp ∧ t.vbr = s.vbr ∧ t.cfg = s.cfg ∧ t.noValue = s.noValue ∧
      (∀ x, byteAt t x = byteAt s x)) ∧
    (supervisor s = false → exec (.andiWSr imm) s = takePrivilegeViolation s ∧
      ∀ t, takePrivilegeViolation s = .next t → readCcr t = readCcr s)

/-- R115: the move to user mode, exactly when bit 13 of the datum is 0; `A[7]` then names USP, and a further ANDI to SR traps. -/
def Obligations.AndiToSrMovesToUserMode : Prop :=
  ∀ (imm : Word) (s t : State), supervisor s = true → exec (.andiWSr imm) s = .next t →
    supervisor t = imm[13] ∧
    (imm[13] = false → readA t 7 = s.usp ∧ ∀ imm', exec (.andiWSr imm') t = takePrivilegeViolation t) ∧
    (imm[13] = true → readA t 7 = s.ssp)

/-- R116: T and the mask bits under ANDI to SR on the 68000; the mask as a number never increases. -/
def Obligations.AndiToSrSystemFields : Prop :=
  ∀ (imm : Word) (s t : State), s.cfg.cpu = .mc68000 → supervisor s = true → exec (.andiWSr imm) s = .next t →
    flagT t = (flagT s && imm[15]) ∧
    (interruptMask t)[2] = ((interruptMask s)[2] && imm[10]) ∧
    (interruptMask t)[1] = ((interruptMask s)[1] && imm[9]) ∧
    (interruptMask t)[0] = ((interruptMask s)[0] && imm[8]) ∧
    (interruptMask t).toNat ≤ (interruptMask s).toNat

/-- R117: under both forms every bit of the destination only falls; as numbers the result is at most the old value and the datum. -/
def Obligations.StatusBitsOnlyFall : Prop :=
  (∀ (imm : Byte) (s t : State), exec (.andiBCcr imm) s = .next t →
    (∀ i (h : i < 16), (readSr t)[i] = true → (readSr s)[i] = true) ∧
    readCcr t ≤ readCcr s ∧ readCcr t ≤ imm) ∧
  (∀ (imm : Word) (s t : State), supervisor s = true → exec (.andiWSr imm) s = .next t →
    (∀ i (h : i < 16), (readSr t)[i] = true → (readSr s)[i] = true) ∧
    readSr t ≤ readSr s ∧ readSr t ≤ imm)

/-- R118: (a) idempotence, (b) composition in either order, (c) ANDI to CCR as ANDI to SR with a high byte of ones, (d) a datum
with a high byte of ones changes only CCR. -/
def Obligations.StatusFormLaws : Prop :=
  (∀ (i1 i2 : Byte) (s t1 t2 t : State),
    exec (.andiBCcr i1) s = .next t1 → exec (.andiBCcr i2) t1 = .next t2 →
    ((i1 = i2 → readSr t2 = readSr t1) ∧
     (exec (.andiBCcr (i1 &&& i2)) s = .next t → readSr t2 = readSr t) ∧
     (exec (.andiBCcr (i2 &&& i1)) s = .next t → readSr t2 = readSr t))) ∧
  (∀ (i1 i2 : Word) (s t1 t2 t : State), supervisor s = true → supervisor t1 = true →
    exec (.andiWSr i1) s = .next t1 → exec (.andiWSr i2) t1 = .next t2 →
    ((i1 = i2 → readSr t2 = readSr t1) ∧
     (exec (.andiWSr (i1 &&& i2)) s = .next t → readSr t2 = readSr t) ∧
     (exec (.andiWSr (i2 &&& i1)) s = .next t → readSr t2 = readSr t))) ∧
  (∀ (imm : Byte) (s t u : State), supervisor s = true → exec (.andiBCcr imm) s = .next t →
    exec (.andiWSr (0xFF00 ||| imm.setWidth 16)) s = .next u → readSr t = readSr u) ∧
  (∀ (imm : Word) (s t : State), supervisor s = true → imm.extractLsb' 8 8 = 0xFF → exec (.andiWSr imm) s = .next t →
    systemByte t = systemByte s ∧ readCcr t = readCcr s &&& imm.extractLsb' 0 8 ∧
    t.d = s.d ∧ t.a = s.a ∧ t.usp = s.usp ∧ t.ssp = s.ssp ∧ t.vbr = s.vbr ∧ t.mem = s.mem ∧ t.cfg = s.cfg ∧
    t.noValue = s.noValue)

/-! ### Taking an exception and returning from one -/

/-- R185, with the sequence of R184, on the MC68000: the state after the privilege violation of ANDI to SR. The saved `pc` is the
instruction's own address and the saved SR the SR before it; `pc` is vector 8 of the memory after the pushes; every byte outside the
six-byte frame is unchanged. `trapReady` asks that the flags and SSP hold values (log 25). -/
def Obligations.PrivilegeViolationEntry : Prop :=
  ∀ (imm : Word) (s : State), s.cfg.cpu = .mc68000 → 3 ≤ s.cfg.addrBits → supervisor s = false → trapReady s = true →
    ∃ t, exec (.andiWSr imm) s = .next t ∧
      readSr t = (readSr s ||| 0x2000) &&& 0x7FFF ∧
      t.ssp = s.ssp - 6 ∧
      loadBytes .word t t.ssp = .next (readSr s) ∧
      loadBytes .long t (t.ssp + 2) = .next s.pc ∧
      loadBytes .long t 0x000020 = .next t.pc ∧
      t.d = s.d ∧ t.a = s.a ∧ t.usp = s.usp ∧ t.vbr = s.vbr ∧ t.cfg = s.cfg ∧ t.noValue = s.noValue ∧
      (∀ x, within s.cfg (s.ssp - 6) 6 x = false → byteAt t x = byteAt s x)

/-- R186 on the 68010, as log 13 reads it: an eight-byte frame whose last word is the format and vector-offset word, and the vector read
at VBR + 0x20. `trapReady010` asks that the flags and SSP hold values (log 25). -/
def Obligations.PrivilegeViolationEntry68010 : Prop :=
  ∀ (imm : Word) (s : State), s.cfg.cpu = .mc68010 → 3 ≤ s.cfg.addrBits → supervisor s = false → trapReady010 s = true →
    ∃ t, exec (.andiWSr imm) s = .next t ∧
      readSr t = (readSr s ||| 0x2000) &&& 0x7FFF ∧
      t.ssp = s.ssp - 8 ∧
      loadBytes .word t t.ssp = .next (readSr s) ∧
      loadBytes .long t (t.ssp + 2) = .next s.pc ∧
      loadBytes .word t (t.ssp + 6) = .next 0x0020 ∧
      loadBytes .long t (s.vbr + 0x20) = .next t.pc ∧
      t.d = s.d ∧ t.a = s.a ∧ t.usp = s.usp ∧ t.vbr = s.vbr ∧ t.cfg = s.cfg ∧ t.noValue = s.noValue ∧
      (∀ x, within s.cfg (s.ssp - 8) 8 x = false → byteAt t x = byteAt s x)

/-- Trap entry whose first push cannot be made: an odd SSP is an address error (R184), a stack outside `data` a bus error (R183). It needs
SSP and the flags first, and is refused where one holds no value: for SSP, the address of the pushes, R37; for the flags, the model's
reading (log 25). -/
def Obligations.TrapEntryFaults : Prop :=
  ∀ (imm : Word) (s : State), s.cfg.cpu = .mc68000 → supervisor s = false →
    (holds s [.flags, .ssp] = true → s.ssp[0] = true → exec (.andiWSr imm) s = .fault (.addressError (s.ssp - 4))) ∧
    (holds s [.flags, .ssp] = true → s.ssp[0] = false → admitsAll .data .long s.cfg (s.ssp - 4) = false →
      exec (.andiWSr imm) s = .fault (.busError (s.ssp - 4))) ∧
    (s.noValue.lacks .flags = true → exec (.andiWSr imm) s = .refused (.valuelessRegister .flags)) ∧
    (s.noValue.lacks .flags = false → s.noValue.lacks .ssp = true →
      exec (.andiWSr imm) s = .refused (.valuelessRegister .ssp))

/-- R192: the return pops what the entry pushed, so that after it `pc`, SR, SSP and every other register are as before the trap. No
instruction of the spec calls the return (log 20). -/
def Obligations.ReturnRestoresTrappedState : Prop :=
  ∀ s t : State, s.cfg.cpu = .mc68000 → 3 ≤ s.cfg.addrBits → takePrivilegeViolation s = .next t →
    ∃ u, returnFromException t = .next u ∧
      u.pc = s.pc ∧ readSr u = readSr s ∧ u.ssp = s.ssp ∧ u.usp = s.usp ∧ u.d = s.d ∧ u.a = s.a ∧
      u.vbr = s.vbr ∧ u.cfg = s.cfg ∧ u.noValue = s.noValue ∧ u.mem = t.mem

/-- A run to END stops after the entry of a trap, in the state after the entry (R17). -/
def Obligations.RunEndsAtTrap : Prop :=
  ∀ (s t : State) (endAddr : Long) (k : Nat), launchRefusal s = none → s.pc ≠ endAddr → supervisor s = false →
    memRead .fetch .word s s.pc = .next 0x027C → takePrivilegeViolation s = .next t →
    runToEnd endAddr (k + 1) s = .trapped t

/-! ### The data forms -/

/-- R135, and R134, for a `Dr` that holds a value (constructors andiBDr, andiWDr, andiLDr): each bit of the register, the flags, and the
frame. N, Z, V and C hold values afterwards, and X does as before. -/
def Obligations.DataRegisterResult : Prop :=
  ∀ (sz : Size) (imm : BitVec sz.bits) (r : Fin 8) (s : State), holds s [.d r] = true →
    ∃ t, exec (Instr.andi sz imm (.dr r)) s = .next t ∧
      (∀ i (h : i < 32), (readD t r)[i] =
        if h' : i < sz.bits then ((readD s r)[i] && imm[i]) else (readD s r)[i]) ∧
      flagX t = flagX s ∧
      flagN t = ((readD s r).setWidth sz.bits &&& imm).getLsbD (sz.bits - 1) ∧
      flagZ t = decide ((readD s r).setWidth sz.bits &&& imm = 0) ∧
      flagV t = false ∧ flagC t = false ∧ systemByte t = systemByte s ∧
      t.pc = s.pc + (if sz = .long then 6 else 4) ∧
      (∀ q, q ≠ r → readD t q = readD s q) ∧
      t.a = s.a ∧ t.usp = s.usp ∧ t.ssp = s.ssp ∧ t.vbr = s.vbr ∧ t.cfg = s.cfg ∧
      t.noValue = { s.noValue with n := false, z := false, v := false, c := false } ∧
      (∀ x, byteAt t x = byteAt s x)

/-- R136 for the seven destinations in memory (21 constructors, andiBInd to andiLAbsL): when the registers of the address hold values and
the operand can be read, the instruction completes, the operand becomes the AND, at the one effective address, the flags follow R134, and
no data register and no other byte of memory changes; the address register of `(Ar)+` and `-(Ar)` moves once by `increment`, whose values
are the subject of `AddressRegisterUpdates`. -/
def Obligations.MemoryOperandResult : Prop :=
  ∀ (sz : Size) (imm : BitVec sz.bits) (m : MemEa) (s : State), 3 ≤ s.cfg.addrBits →
    holds s (eaRegisters s m) = true → readable .data sz s (effectiveAddress sz s m) = true →
    ∃ old t, loadBytes sz s (effectiveAddress sz s m) = .next old ∧
      exec (Instr.andi sz imm (.mem m)) s = .next t ∧
      loadBytes sz t (effectiveAddress sz s m) = .next (old &&& imm) ∧
      flagX t = flagX s ∧ flagN t = (old &&& imm).getLsbD (sz.bits - 1) ∧ flagZ t = decide (old &&& imm = 0) ∧
      flagV t = false ∧ flagC t = false ∧ systemByte t = systemByte s ∧
      t.pc = s.pc + BitVec.ofNat 32 (Instr.andi sz imm (.mem m)).length ∧
      (∀ q, readA t q =
        match m with
        | .postInc r => if q = r then readA s r + increment sz r else readA s q
        | .preDec r => if q = r then readA s r - increment sz r else readA s q
        | .ind _ | .disp _ _ | .index _ _ | .absW _ | .absL _ => readA s q) ∧
      (supervisor s = true → t.usp = s.usp) ∧ (supervisor s = false → t.ssp = s.ssp) ∧
      t.d = s.d ∧ t.vbr = s.vbr ∧ t.cfg = s.cfg ∧
      t.noValue = { s.noValue with n := false, z := false, v := false, c := false } ∧
      (∀ x, within s.cfg (effectiveAddress sz s m) sz.bytes x = false → byteAt t x = byteAt s x)

/-- R134: the flags after every one of the 24 data forms, from the operand that was read. -/
def Obligations.DataFormFlags : Prop :=
  ∀ (sz : Size) (imm old : BitVec sz.bits) (e : Ea) (s t : State),
    (match e with
      | .dr r => Host.Outcome.next ((readD s r).setWidth sz.bits)
      | .mem m => loadBytes sz s (effectiveAddress sz s m)) = (.next old : Res (BitVec sz.bits)) →
    exec (Instr.andi sz imm e) s = .next t →
    flagX t = flagX s ∧ (flagN t = true ↔ (old &&& imm).getLsbD (sz.bits - 1) = true) ∧
    (flagZ t = true ↔ ∀ i < sz.bits, (old &&& imm).getLsbD i = false) ∧
    flagV t = false ∧ flagC t = false ∧ systemByte t = systemByte s

/-- R152 to R160: the address register of `(Ar)+` rises and that of `-(Ar)` falls by 1, 2 or 4, or by 2 for a byte on A7; every other
address register, all of them for the other five modes, and the stack pointer that is not A7 keep their values. -/
def Obligations.AddressRegisterUpdates : Prop :=
  ∀ (sz : Size) (imm : BitVec sz.bits) (m : MemEa) (s t : State),
    exec (Instr.andi sz imm (.mem m)) s = .next t →
    (∀ q, readA t q =
      match m with
      | .postInc r =>
        if q = r then readA s r + (if sz = .byte then (if r = 7 then 2 else 1) else if sz = .word then 2 else 4) else readA s q
      | .preDec r =>
        if q = r then readA s r - (if sz = .byte then (if r = 7 then 2 else 1) else if sz = .word then 2 else 4) else readA s q
      | .ind _ | .disp _ _ | .index _ _ | .absW _ | .absL _ => readA s q) ∧
    (supervisor s = true → t.usp = s.usp) ∧ (supervisor s = false → t.ssp = s.ssp)

/-- The effective address of each mode (R152 to R159), with the four kinds of index register and the step of `-(Ar)` written out. -/
def Obligations.EffectiveAddresses : Prop :=
  ∀ (sz : Size) (s : State) (r q : Fin 8) (d16 a : Word) (d8 : Byte) (l : Long),
    effectiveAddress sz s (.ind r) = readA s r ∧
    effectiveAddress sz s (.postInc r) = readA s r ∧
    effectiveAddress sz s (.preDec r) =
      readA s r - (if sz = .byte then (if r = 7 then 2 else 1) else if sz = .word then 2 else 4) ∧
    effectiveAddress sz s (.disp r d16) = readA s r + d16.signExtend 32 ∧
    effectiveAddress sz s (.index r ⟨.d q, .word, d8⟩) =
      readA s r + d8.signExtend 32 + ((readD s q).extractLsb' 0 16).signExtend 32 ∧
    effectiveAddress sz s (.index r ⟨.d q, .long, d8⟩) = readA s r + d8.signExtend 32 + readD s q ∧
    effectiveAddress sz s (.index r ⟨.a q, .word, d8⟩) =
      readA s r + d8.signExtend 32 + ((readA s q).extractLsb' 0 16).signExtend 32 ∧
    effectiveAddress sz s (.index r ⟨.a q, .long, d8⟩) = readA s r + d8.signExtend 32 + readA s q ∧
    effectiveAddress sz s (.absW a) = a.signExtend 32 ∧
    effectiveAddress sz s (.absL l) = l

/-- Where the memory forms stop, the registers of the address holding values: an odd address for a word or a long word (R55), an operand
the map does not admit (R183), an operand with a byte that holds no value (R37, R138). On the 68000 and 68010 only (R55). -/
def Obligations.MemoryFormStops : Prop :=
  ∀ (sz : Size) (imm : BitVec sz.bits) (m : MemEa) (s : State), s.cfg.cpu.modelled = true →
    holds s (eaRegisters s m) = true →
    let a := effectiveAddress sz s m
    (sz ≠ .byte → a[0] = true → exec (Instr.andi sz imm (.mem m)) s = .fault (.addressError a)) ∧
    (sz = .byte ∨ a[0] = false → admitsAll .data sz s.cfg a = false →
      exec (Instr.andi sz imm (.mem m)) s = .fault (.busError a)) ∧
    (sz = .byte ∨ a[0] = false → admitsAll .data sz s.cfg a = true → holdsValues sz s a = false →
      ∃ k, Memory.read s.mem k = none ∧ exec (Instr.andi sz imm (.mem m)) s = .refused (.valuelessByte k))

/-- R137 on `Dr`: two data in sequence leave the register and SR as one with their AND, in either order; a datum of ones keeps the
register; a datum of 0 clears the operand; as numbers the operand is at most the old one and the datum. -/
def Obligations.DataFormLaws : Prop :=
  ∀ (sz : Size) (i1 i2 : BitVec sz.bits) (r : Fin 8) (s t1 t2 : State),
    exec (Instr.andi sz i1 (.dr r)) s = .next t1 → exec (Instr.andi sz i2 (.dr r)) t1 = .next t2 →
    (∀ t, exec (Instr.andi sz (i1 &&& i2) (.dr r)) s = .next t → t2.d = t.d ∧ readSr t2 = readSr t) ∧
    (∀ t, exec (Instr.andi sz (i2 &&& i1) (.dr r)) s = .next t → t2.d = t.d ∧ readSr t2 = readSr t) ∧
    (i1 = i2 → t2.d = t1.d ∧ readSr t2 = readSr t1) ∧
    (i1 = BitVec.allOnes sz.bits → t1.d = s.d) ∧
    (i1 = 0 → (readD t1 r).setWidth sz.bits = 0 ∧ flagZ t1 = true) ∧
    (readD t1 r).setWidth sz.bits ≤ (readD s r).setWidth sz.bits ∧ (readD t1 r).setWidth sz.bits ≤ i1

/-! ### Memory -/

/-- R55: a word or long access at an odd address is an address error, for reads and writes, and neither reads nor writes; a byte access
never is one; a long word needs no more than an even address. -/
def Obligations.AlignmentOfAccesses : Prop :=
  ∀ (k : Access) (s : State) (a : Long), s.cfg.cpu.modelled = true →
    (∀ (sz : Size) (v : BitVec sz.bits), sz ≠ .byte → a[0] = true →
      memRead k sz s a = .fault (.addressError a) ∧ memWrite sz s a v = .fault (.addressError a)) ∧
    (∀ e, memRead k .byte s a ≠ .fault (.addressError e)) ∧
    (∀ v e, memWrite .byte s a v ≠ .fault (.addressError e)) ∧
    (∀ sz e, a[0] = false → memRead k sz s a ≠ .fault (.addressError e)) ∧
    (∀ sz v e, a[0] = false → memWrite sz s a v ≠ .fault (.addressError e))

/-- R52: big endian, for fetches, data and vectors alike, and what a mixed-width access sees after a long-word write. -/
def Obligations.BigEndianAccesses : Prop :=
  (∀ (k : Access) (s : State) (a : Long) (b0 b1 b2 b3 : Byte),
    byteAt s a = some b0 → byteAt s (a + 1) = some b1 →
    (checkAccess k .word s a = .next () → memRead k .word s a = .next (b0 ++ b1)) ∧
    (byteAt s (a + 2) = some b2 → byteAt s (a + 3) = some b3 → checkAccess k .long s a = .next () →
      memRead k .long s a = .next (b0 ++ b1 ++ b2 ++ b3))) ∧
  (∀ (s t : State) (a v : Long), 3 ≤ s.cfg.addrBits → memWrite .long s a v = .next t →
    loadBytes .long t a = .next v ∧
    loadBytes .word t a = .next (v.extractLsb' 16 16) ∧ loadBytes .word t (a + 2) = .next (v.extractLsb' 0 16) ∧
    loadBytes .byte t a = .next (v.extractLsb' 24 8) ∧ loadBytes .byte t (a + 1) = .next (v.extractLsb' 16 8) ∧
    loadBytes .byte t (a + 2) = .next (v.extractLsb' 8 8) ∧ loadBytes .byte t (a + 3) = .next (v.extractLsb' 0 8)) ∧
  (∀ (s t : State) (a : Long) (v : Word), 3 ≤ s.cfg.addrBits → memWrite .word s a v = .next t →
    loadBytes .word t a = .next v ∧
    loadBytes .byte t a = .next (v.extractLsb' 8 8) ∧ loadBytes .byte t (a + 1) = .next (v.extractLsb' 0 8))

/-- R62 and R60: a write changes its own bytes and no other; two addresses that agree in their low ADDR_BITS bits name the same byte. -/
def Obligations.WritesAreLocal : Prop :=
  ∀ (sz : Size) (s t : State) (a : Long) (v : BitVec sz.bits), memWrite sz s a v = .next t →
    (∀ x, within s.cfg a sz.bytes x = false → byteAt t x = byteAt s x) ∧
    (3 ≤ s.cfg.addrBits → loadBytes sz t a = .next v) ∧
    (∀ x y, x.toNat % 2 ^ s.cfg.addrBits = y.toNat % 2 ^ s.cfg.addrBits → byteAt t x = byteAt t y)

/-- R65: a write that touches `code` does not happen, and no step changes a byte of `code`. -/
def Obligations.CodeIsNeverWritten : Prop :=
  (∀ (sz : Size) (s : State) (a x : Long) (v : BitVec sz.bits), aligned sz a = true →
    within s.cfg a sz.bytes x = true → inRegions s.cfg.memMap.code (reduce s.cfg x) = true →
    memWrite sz s a v = .fault (.busError a)) ∧
  (∀ (s t : State) (x : Long), step s = .next t → inRegions s.cfg.memMap.code (reduce s.cfg x) = true →
    byteAt t x = byteAt s x)

/-! ### The whole machine -/

/-- Every step keeps the invariant: memory canonical and inside the address space, reserved SR bits 0, T = 0. -/
def Obligations.StepKeepsInvariant : Prop :=
  ∀ s t : State, Inv s → step s = .next t → Inv t

/-- The invariant holds right after reset. -/
def Obligations.ResetMeetsInvariant : Prop := Inv State.reset

/-- A run to END keeps the invariant, wherever it ends. -/
def Obligations.RunKeepsInvariant : Prop :=
  ∀ (endAddr : Long) (k : Nat) (s t : State), Inv s →
    (runToEnd endAddr k s = .normal t ∨ runToEnd endAddr k s = .trapped t ∨ runToEnd endAddr k s = .running t) → Inv t

/-- No step changes the parameters or VBR, a step changes at most one data register, and that only under `ANDI.B/.W/.L #<data>,Dr`
(R21, R186, R212), and no step takes a value away or gives one, but for N, Z, V and C, which the data forms write (R134, R37). -/
def Obligations.StepFrame : Prop :=
  ∀ s t : State, step s = .next t →
    t.cfg = s.cfg ∧ t.vbr = s.vbr ∧
    (t.noValue = s.noValue ∨ t.noValue = { s.noValue with n := false, z := false, v := false, c := false } ∧
      ∃ (sz : Size) (imm : BitVec sz.bits) (e : Ea), fetch s = .instr (Instr.andi sz imm e)) ∧
    (∀ q, readD t q ≠ readD s q → ∃ (sz : Size) (imm : BitVec sz.bits), fetch s = .instr (Instr.andi sz imm (.dr q)))

/-- R23: a step that takes no exception writes an address register only as the side effect of `(Ar)+` and `-(Ar)`. -/
def Obligations.AddressRegistersWrittenOnlyBySideEffect : Prop :=
  ∀ s t : State, step s = .next t → traps s = false →
    (t.a ≠ s.a ∨ t.usp ≠ s.usp ∨ t.ssp ≠ s.ssp) →
    ∃ (sz : Size) (imm : BitVec sz.bits) (r : Fin 8),
      fetch s = .instr (Instr.andi sz imm (.mem (.postInc r))) ∨ fetch s = .instr (Instr.andi sz imm (.mem (.preDec r)))

/-- R196: user mode is left only by taking the privilege violation; supervisor mode is left only by ANDI to SR whose datum has bit 13
clear. -/
def Obligations.ModeChanges : Prop :=
  ∀ s t : State, step s = .next t →
    (supervisor s = false → supervisor t = true → traps s = true ∧ takePrivilegeViolation s = .next t) ∧
    (supervisor s = true → supervisor t = false → ∃ imm : Word, fetch s = .instr (.andiWSr imm) ∧ imm[13] = false)

/-- R197: in user mode SR[15:8] is not written by any ANDI form: a step leaves it, or takes the privilege violation. -/
def Obligations.UserModeKeepsSystemByte : Prop :=
  ∀ s t : State, step s = .next t → supervisor s = false → systemByte t = systemByte s ∨ traps s = true

/-- R24: the stack pointer that A7 does not name is not reachable: replacing it before an instruction that takes no exception is the
same as replacing it after. -/
def Obligations.InactiveStackPointerUnreachable : Prop :=
  ∀ (i : Instr) (s : State) (v : Long),
    (supervisor s = false → (∀ imm, i ≠ .andiWSr imm) →
      exec i { s with ssp := v } = andThen (exec i s) fun t => .next { t with ssp := v }) ∧
    (supervisor s = true →
      exec i { s with usp := v } = andThen (exec i s) fun t => .next { t with usp := v })

/-- R197: no form but ANDI to SR depends on SR[15:8] other than S: two states that differ only in T and the mask have
results that differ only there. -/
def Obligations.SystemByteUnreadable : Prop :=
  ∀ (i : Instr) (s : State) (v : Word), (∀ imm, i ≠ .andiWSr imm) →
    (v &&& 0x20FF = s.sr &&& 0x20FF) →
    exec i { s with sr := v } =
      andThen (exec i s) fun t => .next (writeSr t (systemByte { s with sr := v } ++ readCcr t))

/-! ### Reset and times -/

/-- The reset sequence of R210 where both vectors can be read. That D, A, USP and the flags, unspecified there, are left as they were is
the model's choice (log 19). -/
def Obligations.ResetSequence : Prop :=
  ∀ s : State, readable .vector .long s 0x000000 = true → readable .vector .long s 0x000004 = true →
    ∃ t, takeReset s = .next t ∧
      supervisor t = true ∧ flagT t = false ∧ interruptMask t = 0b111 ∧
      loadBytes .long s 0x000000 = .next t.ssp ∧ loadBytes .long s 0x000004 = .next t.pc ∧
      t.vbr = 0 ∧ t.d = s.d ∧ t.a = s.a ∧ t.usp = s.usp ∧ readCcr t = readCcr s ∧ t.mem = s.mem ∧ t.cfg = s.cfg ∧
      t.noValue.ssp = false ∧ (∀ r, r ≠ .ssp → t.noValue.lacks r = s.noValue.lacks r)

/-- The state after reset: S = 1, T = 0, mask 7 and the zero bits of SR 0, which R36 gives; and nothing listed in memory, which is the
model's reading (log 4, DEDUCED): R36 itself leaves memory unspecified. -/
def Obligations.ResetState : Prop :=
  supervisor State.reset = true ∧ flagT State.reset = false ∧ interruptMask State.reset = 0b111 ∧
  State.reset.sr &&& ~~~srMask State.reset.cfg.cpu = 0 ∧ State.reset.mem = []

/-- R224: the page's bus-cycle counts are the instruction's words plus its data reads, and its data writes. -/
def Obligations.BusCyclesAgree : Prop :=
  ∀ (cpu : Cpu) (i : Instr), cpu.modelled = true →
    ∃ n, execTime cpu i = some ⟨n, (encode i).length + dataCycles i, dataCycles i⟩

/-! ### Launch -/

/-- A launch state of R212 meets the invariant, is refused by no step for its parameters or T, and its first instruction word can be
fetched if it holds a value, unless it is at END already. -/
def Obligations.LaunchStateIsReady : Prop :=
  ∀ (endAddr : Long) (s : State), LaunchState endAddr s →
    Inv s ∧ launchRefusal s = none ∧ (s.pc ≠ endAddr → checkAccess .fetch .word s s.pc = .next ())

/-- A state set up as R213 asks on the MC68000, the flags and SSP holding values (log 25): ANDI to SR in user mode answers a next state,
and when the frame does not lie over vector 8, `pc` is the even address that the vector held before. -/
def Obligations.PreparedTrapReachesEvenHandler : Prop :=
  ∀ (imm : Word) (s : State), s.cfg.cpu = .mc68000 → supervisor s = false → trapPrepared s = true →
    ∃ t, exec (.andiWSr imm) s = .next t ∧
      ((∀ k < 4, within s.cfg (s.ssp - 6) 6 (0x000020 + BitVec.ofNat 32 k) = false) →
        loadBytes .long s 0x000020 = .next t.pc ∧ t.pc[0] = false)

/-! ### Registers that hold no value -/

/-- R37: a form that reads a register or a flag that holds no value is refused at one: `D[r]` at any width, a register of an address, the
flags under ANDI to CCR and ANDI to SR; and a byte or word written into a valueless `D[r]` leaves it so. -/
def Obligations.ValuelessRegistersRefused : Prop :=
  (∀ (sz : Size) (imm : BitVec sz.bits) (r : Fin 8) (s : State), s.noValue.d[r] = true →
    exec (Instr.andi sz imm (.dr r)) s = .refused (.valuelessRegister (.d r))) ∧
  (∀ (sz : Size) (imm : BitVec sz.bits) (m : MemEa) (s : State) (q : RegName),
    q ∈ eaRegisters s m → s.noValue.lacks q = true →
    ∃ p ∈ eaRegisters s m, s.noValue.lacks p = true ∧ exec (Instr.andi sz imm (.mem m)) s = .refused (.valuelessRegister p)) ∧
  (∀ (s : State) (r k : Fin 8) (d8 : Byte) (d16 : Word),
    let base : RegName := if h : r.val < 7 then .a ⟨r.val, h⟩ else if supervisor s then .ssp else .usp
    eaRegisters s (.ind r) = [base] ∧ eaRegisters s (.postInc r) = [base] ∧ eaRegisters s (.preDec r) = [base] ∧
    eaRegisters s (.disp r d16) = [base] ∧
    (∀ n, eaRegisters s (.index r ⟨.d k, n, d8⟩) = [base, .d k]) ∧
    (∀ n, eaRegisters s (.index k ⟨.a r, n, d8⟩) = [addressReg s k, base])) ∧
  (∀ s : State, (s.noValue.x || s.noValue.n || s.noValue.z || s.noValue.v || s.noValue.c) = true →
    (∀ imm, exec (.andiBCcr imm) s = .refused (.valuelessRegister .flags)) ∧
    (∀ imm, supervisor s = true → exec (.andiWSr imm) s = .refused (.valuelessRegister .flags))) ∧
  (∀ (sz : Size) (s : State) (r : Fin 8) (v : BitVec sz.bits), s.noValue.d[r] = true →
    (sz ≠ .long → (writeD sz s r v).noValue.d[r] = true) ∧ (sz = .long → (writeD sz s r v).noValue.d[r] = false))

/-- What the fields hold of registers and flags without a value is never read (R37): two states that are one but for that take the same
step, to two such states, or to the same stop. -/
def Obligations.ValuelessContentsUnreadable : Prop :=
  ∀ s t : State, SameSeen s t →
    (∀ s', step s = .next s' → ∃ t', step t = .next t' ∧ SameSeen s' t') ∧
    (∀ e, step s = .fault e → step t = .fault e) ∧
    (∀ e, step s = .refused e → step t = .refused e)

/-! ### The end of a launched run -/

/-- A step of a launched run that takes no exception leads to a launch state for the same `END`, and nearer to it: the run never passes
`END` (R17, R212). -/
def Obligations.LaunchStateSurvivesStep : Prop :=
  ∀ (endAddr : Long) (s t : State), LaunchState endAddr s → s.pc ≠ endAddr → step s = .next t → traps s = false →
    LaunchState endAddr t ∧ (endAddr - t.pc).toNat + 4 ≤ (endAddr - s.pc).toNat

/-- A launched run ends, in one of the ways of R17 or with a fault, within a step for every four bytes from `pc` to `END`. -/
def Obligations.LaunchedRunEnds : Prop :=
  ∀ (endAddr : Long) (s : State) (k : Nat), LaunchState endAddr s → (endAddr - s.pc).toNat ≤ 4 * k →
    (∃ t, launch endAddr k s = some (.normal t) ∧ t.pc = endAddr) ∨ (∃ t, launch endAddr k s = some (.trapped t)) ∨
    (∃ e, launch endAddr k s = some (.refused e)) ∨ (∃ e, launch endAddr k s = some (.fault e))
end

