-- ==== Sys2Proof/Laws/Decode.lean ====
section
/-! SUPPORT. Each part of the decoder against the matching part of the encoder, both ways. -/

namespace Sys2Proof

/-- The mode of a destination, without its extension words. -/
def modeOf : Ea → Mode
  | .dr r => .dr r
  | .mem (.ind r) => .ind r
  | .mem (.postInc r) => .postInc r
  | .mem (.preDec r) => .preDec r
  | .mem (.disp r _) => .disp r
  | .mem (.index r _) => .index r
  | .mem (.absW _) => .absW
  | .mem (.absL _) => .absL

@[simp] theorem form_andi (sz : Size) (imm : BitVec sz.bits) (e : Ea) : (Instr.andi sz imm e).form = .ea sz imm e := by
  cases sz <;> cases e with
  | dr r => rfl
  | mem m => cases m <;> rfl

@[simp] theorem encode_andi (sz : Size) (imm : BitVec sz.bits) (e : Ea) :
    encode (Instr.andi sz imm e) = eaOperationWord sz e :: (immWords sz imm ++ eaWords e) := by
  simp [encode, Form.words]

@[simp] theorem length_andi (sz : Size) (imm : BitVec sz.bits) (e : Ea) : (Instr.andi sz imm e).length = eaLength sz e := by
  simp [Instr.length]

/-! ### Fields -/

/-- A word is the concatenation of its two bytes. -/
theorem byte_append (w : Word) : w.extractLsb' 8 8 ++ w.extractLsb' 0 8 = w := by
  apply BitVec.eq_of_getLsbD_eq
  intro i hi
  rw [BitVec.getLsbD_append]
  by_cases h : i < 8
  · simp [h]
  · simp [h, show i - 8 < 8 by omega, show 8 + (i - 8) = i by omega]

theorem low_of_append {n k : Nat} (x : BitVec n) (y : BitVec k) : (x ++ y).extractLsb' 0 k = y := by
  apply BitVec.eq_of_getLsbD_eq
  intro i hi
  simp [BitVec.getLsbD_append, hi]

theorem high_of_append {n k : Nat} (x : BitVec n) (y : BitVec k) : (x ++ y).extractLsb' k n = x := by
  apply BitVec.eq_of_getLsbD_eq
  intro i hi
  simp [BitVec.getLsbD_append, hi]

theorem long_append (v : Long) : v.extractLsb' 16 16 ++ v.extractLsb' 0 16 = v := by
  apply BitVec.eq_of_getLsbD_eq
  intro i hi
  rw [BitVec.getLsbD_append]
  by_cases h : i < 16
  · simp [h]
  · simp [h, show i - 16 < 16 by omega, show 16 + (i - 16) = i by omega]

/-! ### The operation word -/

theorem decodeOp_eaOperationWord (sz : Size) (e : Ea) : decodeOp (eaOperationWord sz e) = .ok (.ea sz (modeOf e)) := by
  have h : ∀ r : Fin 8, decodeOp (eaOperationWord sz (.dr r)) = .ok (.ea sz (.dr r)) ∧
      decodeOp (eaOperationWord sz (.mem (.ind r))) = .ok (.ea sz (.ind r)) ∧
      decodeOp (eaOperationWord sz (.mem (.postInc r))) = .ok (.ea sz (.postInc r)) ∧
      decodeOp (eaOperationWord sz (.mem (.preDec r))) = .ok (.ea sz (.preDec r)) ∧
      decodeOp (eaOperationWord sz (.mem (.disp r 0))) = .ok (.ea sz (.disp r)) ∧
      decodeOp (eaOperationWord sz (.mem (.index r ⟨.d 0, .word, 0⟩))) = .ok (.ea sz (.index r)) ∧
      decodeOp (eaOperationWord sz (.mem (.absW 0))) = .ok (.ea sz .absW) ∧
      decodeOp (eaOperationWord sz (.mem (.absL 0))) = .ok (.ea sz .absL) := by
    cases sz <;> decide
  cases e with
  | dr r => exact (h r).1
  | mem m =>
    cases m with
    | ind r => exact (h r).2.1
    | postInc r => exact (h r).2.2.1
    | preDec r => exact (h r).2.2.2.1
    | disp r d => exact (h r).2.2.2.2.1
    | index r x => exact (h r).2.2.2.2.2.1
    | absW a => exact (h 0).2.2.2.2.2.2.1
    | absL a => exact (h 0).2.2.2.2.2.2.2

/-! ### Immediates and extension words -/

theorem decodeImm_immWords (sz : Size) (imm : BitVec sz.bits) (rest : List Word) :
    decodeImm sz (immWords sz imm ++ rest) = .done imm rest := by
  cases sz
  · have hl : (0x00#8 ++ imm).extractLsb' 0 8 = imm := low_of_append _ _
    have hh : (0x00#8 ++ imm).extractLsb' 8 8 = 0 := high_of_append _ _
    simp only [immWords, List.cons_append, List.nil_append, decodeImm, decodeImmByte]
    rw [if_pos hh, hl]
  · rfl
  · show decodeLong (imm.extractLsb' 16 16 :: imm.extractLsb' 0 16 :: rest) = .done imm rest
    simp only [decodeLong]
    rw [long_append]

theorem immWords_of_decodeImm {sz : Size} {imm : BitVec sz.bits} {ws rest : List Word}
    (h : decodeImm sz ws = .done imm rest) : ws = immWords sz imm ++ rest := by
  cases sz
  · cases ws with
    | nil => cases h
    | cons w ws =>
      simp only [decodeImm, decodeImmByte] at h
      split at h
      · rename_i h0
        cases h
        have := byte_append w
        rw [h0] at this
        simp only [immWords, List.cons_append, List.nil_append]
        exact congrArg (· :: _) this.symm
      · cases h
  · cases ws with
    | nil => cases h
    | cons w ws => cases h; rfl
  · match ws, h with
    | hi :: lo :: ws, h =>
      simp only [decodeImm, decodeLong] at h
      cases h
      have h1 : (hi ++ lo).extractLsb' 16 16 = hi := high_of_append _ _
      have h2 : (hi ++ lo).extractLsb' 0 16 = lo := low_of_append _ _
      simp only [immWords, longWords, h1, h2, List.cons_append, List.nil_append]

/-- The fields of a brief extension word that is put together from them. -/
theorem briefWord_fields (a : BitVec 1) (r : BitVec 3) (l : BitVec 1) (d : Byte) (w : Word)
    (hw : w = a ++ r ++ l ++ 0b000#3 ++ d) :
    w.extractLsb' 8 3 = 0 ∧ w.extractLsb' 12 3 = r ∧ w.extractLsb' 0 8 = d ∧ w[15] = a[0] ∧ w[11] = l[0] := by
  subst hw
  refine ⟨?_, ?_, low_of_append _ _, ?_, ?_⟩
  · apply BitVec.eq_of_getLsbD_eq
    intro i hi
    rw [BitVec.getLsbD_extractLsb']
    simp only [BitVec.getLsbD_append]
    interval_cases i <;> simp
  · apply BitVec.eq_of_getLsbD_eq
    intro i hi
    rw [BitVec.getLsbD_extractLsb']
    simp only [BitVec.getLsbD_append]
    interval_cases i <;> simp
  · rw [← BitVec.getLsbD_eq_getElem]
    simp only [BitVec.getLsbD_append]
    simp
  · rw [← BitVec.getLsbD_eq_getElem]
    simp only [BitVec.getLsbD_append]
    simp

@[simp] theorem regOf_regField (r : Fin 8) : regOf (regField r) = r := rfl
@[simp] theorem regField_regOf (f : BitVec 3) : regField (regOf f) = f := rfl

theorem decodeBrief_briefWord (x : Brief) (rest : List Word) : decodeBrief (briefWord x :: rest) = .done x rest := by
  obtain ⟨h1, h2, h3, h4, h5⟩ := briefWord_fields _ _ _ _ (briefWord x) rfl
  simp only [decodeBrief]
  rw [if_pos h1, h2, h3, h4, h5]
  obtain ⟨reg, size, disp⟩ := x
  cases reg <;> cases size <;> simp [indexRegField, indexSizeField]

/-- A word whose bits 10 to 8 are 0 is put together from its fields. -/
theorem word_of_brief_fields (w : Word) (h : w.extractLsb' 8 3 = 0) :
    BitVec.ofBool w[15] ++ w.extractLsb' 12 3 ++ BitVec.ofBool w[11] ++ 0b000#3 ++ w.extractLsb' 0 8 = w := by
  have h' : ∀ i < 3, w.getLsbD (8 + i) = false := by
    intro i hi
    have := congrArg (fun v : BitVec 3 => v.getLsbD i) h
    simpa [hi] using this
  have h0 := h' 0 (by decide)
  have h1 := h' 1 (by decide)
  have h2 := h' 2 (by decide)
  apply BitVec.eq_of_getLsbD_eq
  intro i hi
  simp only [BitVec.getLsbD_append]
  interval_cases i <;> simp_all [BitVec.getLsbD_eq_getElem]

theorem briefWord_of_decodeBrief {x : Brief} {ws rest : List Word} (h : decodeBrief ws = .done x rest) :
    ws = briefWord x :: rest := by
  cases ws with
  | nil => cases h
  | cons w ws =>
    simp only [decodeBrief] at h
    split at h
    · rename_i h0
      cases h
      have hw := word_of_brief_fields w h0
      refine congrArg (· :: _) ?_
      refine hw.symm.trans ?_
      unfold briefWord
      cases h15 : w[15] <;> cases h11 : w[11] <;> simp [indexRegField, indexSizeField]
    · cases h

theorem decodeEa_eaWords (e : Ea) (rest : List Word) : decodeEa (modeOf e) (eaWords e ++ rest) = .done e rest := by
  cases e with
  | dr r => rfl
  | mem m =>
    cases m with
    | index r x => simp [modeOf, eaWords, decodeEa, decodeBrief_briefWord, Parsed.map]
    | absL a =>
      simp only [modeOf, eaWords, longWords, List.cons_append, List.nil_append, decodeEa, decodeLong, Parsed.map]
      rw [long_append]
    | ind r => rfl
    | postInc r => rfl
    | preDec r => rfl
    | disp r d => rfl
    | absW a => rfl

end Sys2Proof
end

