-- ==== Sys2Proof/Laws/State.lean ====
section
/-! SUPPORT. One lemma per field per update, and what the status register's readers give after each write. -/

namespace Sys2Proof.Machine

section writeSr
variable (s : State) (v : Word)
@[simp] theorem writeSr_cfg : (writeSr s v).cfg = s.cfg := rfl
@[simp] theorem writeSr_d : (writeSr s v).d = s.d := rfl
@[simp] theorem writeSr_a : (writeSr s v).a = s.a := rfl
@[simp] theorem writeSr_usp : (writeSr s v).usp = s.usp := rfl
@[simp] theorem writeSr_ssp : (writeSr s v).ssp = s.ssp := rfl
@[simp] theorem writeSr_pc : (writeSr s v).pc = s.pc := rfl
@[simp] theorem writeSr_vbr : (writeSr s v).vbr = s.vbr := rfl
@[simp] theorem writeSr_mem : (writeSr s v).mem = s.mem := rfl
@[simp] theorem readSr_writeSr : readSr (writeSr s v) = v &&& srMask s.cfg.cpu := by
  simp [readSr, writeSr, BitVec.and_assoc]
end writeSr

section writeCcr
variable (s : State) (v : Byte)
@[simp] theorem writeCcr_cfg : (writeCcr s v).cfg = s.cfg := rfl
@[simp] theorem writeCcr_d : (writeCcr s v).d = s.d := rfl
@[simp] theorem writeCcr_a : (writeCcr s v).a = s.a := rfl
@[simp] theorem writeCcr_usp : (writeCcr s v).usp = s.usp := rfl
@[simp] theorem writeCcr_ssp : (writeCcr s v).ssp = s.ssp := rfl
@[simp] theorem writeCcr_pc : (writeCcr s v).pc = s.pc := rfl
@[simp] theorem writeCcr_vbr : (writeCcr s v).vbr = s.vbr := rfl
@[simp] theorem writeCcr_mem : (writeCcr s v).mem = s.mem := rfl
end writeCcr

section dataFlags
variable {w : Nat} (s : State) (res : BitVec w)
@[simp] theorem dataFlags_cfg : (dataFlags s res).cfg = s.cfg := rfl
@[simp] theorem dataFlags_d : (dataFlags s res).d = s.d := rfl
@[simp] theorem dataFlags_a : (dataFlags s res).a = s.a := rfl
@[simp] theorem dataFlags_usp : (dataFlags s res).usp = s.usp := rfl
@[simp] theorem dataFlags_ssp : (dataFlags s res).ssp = s.ssp := rfl
@[simp] theorem dataFlags_pc : (dataFlags s res).pc = s.pc := rfl
@[simp] theorem dataFlags_vbr : (dataFlags s res).vbr = s.vbr := rfl
@[simp] theorem dataFlags_mem : (dataFlags s res).mem = s.mem := rfl
end dataFlags

section writeD
variable (sz : Size) (s : State) (r : Fin 8) (v : BitVec sz.bits)
@[simp] theorem writeD_cfg : (writeD sz s r v).cfg = s.cfg := rfl
@[simp] theorem writeD_a : (writeD sz s r v).a = s.a := rfl
@[simp] theorem writeD_usp : (writeD sz s r v).usp = s.usp := rfl
@[simp] theorem writeD_ssp : (writeD sz s r v).ssp = s.ssp := rfl
@[simp] theorem writeD_pc : (writeD sz s r v).pc = s.pc := rfl
@[simp] theorem writeD_vbr : (writeD sz s r v).vbr = s.vbr := rfl
@[simp] theorem writeD_sr : (writeD sz s r v).sr = s.sr := rfl
@[simp] theorem writeD_mem : (writeD sz s r v).mem = s.mem := rfl
@[simp] theorem readSr_writeD : readSr (writeD sz s r v) = readSr s := rfl
@[simp] theorem readD_writeD_same : readD (writeD sz s r v) r = putLowPart sz (readD s r) v := by simp [readD, writeD]
theorem readD_writeD_other {q : Fin 8} (h : q ≠ r) : readD (writeD sz s r v) q = readD s q := by
  have : r.val ≠ q.val := fun e => h (Fin.ext e.symm)
  simp [readD, writeD, this]
end writeD

/-! ### Values and their absence (R37) -/

/-- Giving a value to a register that has one changes nothing. -/
theorem NoValue.give_of_not_lacks {n : NoValue} {r : RegName} (h : n.lacks r = false) : n.give r = n := by
  obtain ⟨d, a, usp, ssp, x, n, z, v, c⟩ := n
  cases r with
  | d r =>
    simp only [NoValue.lacks] at h
    simp only [NoValue.give, NoValue.mk.injEq, and_true]
    rw [← h]
    exact Vector.set_getElem_self _
  | a r =>
    simp only [NoValue.lacks] at h
    simp only [NoValue.give, NoValue.mk.injEq, and_true, true_and]
    rw [← h]
    exact Vector.set_getElem_self _
  | usp => simp only [NoValue.lacks] at h; simp [NoValue.give, h]
  | ssp => simp only [NoValue.lacks] at h; simp [NoValue.give, h]
  | flags =>
    simp only [NoValue.lacks, Bool.or_eq_false_iff] at h
    obtain ⟨⟨⟨⟨h1, h2⟩, h3⟩, h4⟩, h5⟩ := h
    simp [NoValue.give, h1, h2, h3, h4, h5]

/-- After giving a value, the register has one. -/
@[simp] theorem NoValue.lacks_give (n : NoValue) (r : RegName) : (n.give r).lacks r = false := by
  cases r <;> simp [NoValue.give, NoValue.lacks]

/-- A write of a data register that holds a value leaves what holds values. -/
theorem writeD_noValue {sz : Size} {s : State} {r : Fin 8} {v : BitVec sz.bits} (h : s.noValue.lacks (.d r) = false) :
    (writeD sz s r v).noValue = s.noValue := by
  cases sz
  · rfl
  · rfl
  · exact NoValue.give_of_not_lacks h

/-- A write of an address register that holds a value leaves what holds values. -/
theorem writeA_noValue {s : State} {r : Fin 8} {v : Long} (h : s.noValue.lacks (addressReg s r) = false) :
    (writeA s r v).noValue = s.noValue := by
  unfold addressReg at h
  unfold writeA
  split at h
  · rename_i hr
    simp only [hr, dif_pos]
    exact NoValue.give_of_not_lacks h
  · rename_i hr
    simp only [hr, dif_neg, not_false_eq_true]
    split at h <;> rename_i hs <;> simp only [hs, if_true] <;> exact NoValue.give_of_not_lacks h

@[simp] theorem writeSr_noValue (s : State) (v : Word) : (writeSr s v).noValue = s.noValue := rfl
@[simp] theorem writeCcr_noValue (s : State) (v : Byte) : (writeCcr s v).noValue = s.noValue := rfl
@[simp] theorem dataFlags_noValue {w : Nat} (s : State) (res : BitVec w) :
    (dataFlags s res).noValue = { s.noValue with n := false, z := false, v := false, c := false } := rfl
/-- The data forms give no register a value, nor take one away (R134). -/
theorem lacks_dataFlags {w : Nat} (s : State) (res : BitVec w) {r : RegName} (h : r ≠ .flags) :
    (dataFlags s res).noValue.lacks r = s.noValue.lacks r := by
  cases r <;> first | rfl | exact absurd rfl h

theorem addressReg_ne_flags (s : State) (r : Fin 8) : addressReg s r ≠ .flags := by
  unfold addressReg
  split
  · simp
  · split <;> simp

@[simp] theorem advancePc_noValue (s : State) (n : Nat) : (advancePc s n).noValue = s.noValue := rfl
@[simp] theorem storeBytes_noValue (sz : Size) (s : State) (a : Long) (v : BitVec sz.bits) :
    (storeBytes sz s a v).noValue = s.noValue := rfl

section writeA
variable (s : State) (r : Fin 8) (v : Long)
@[simp] theorem writeA_cfg : (writeA s r v).cfg = s.cfg := by unfold writeA; split <;> (try split) <;> rfl
@[simp] theorem writeA_d : (writeA s r v).d = s.d := by unfold writeA; split <;> (try split) <;> rfl
@[simp] theorem writeA_pc : (writeA s r v).pc = s.pc := by unfold writeA; split <;> (try split) <;> rfl
@[simp] theorem writeA_vbr : (writeA s r v).vbr = s.vbr := by unfold writeA; split <;> (try split) <;> rfl
@[simp] theorem writeA_sr : (writeA s r v).sr = s.sr := by unfold writeA; split <;> (try split) <;> rfl
@[simp] theorem writeA_mem : (writeA s r v).mem = s.mem := by unfold writeA; split <;> (try split) <;> rfl
@[simp] theorem readSr_writeA : readSr (writeA s r v) = readSr s := by simp [readSr]
@[simp] theorem supervisor_writeA : supervisor (writeA s r v) = supervisor s := by simp [supervisor]
theorem writeA_usp_of_supervisor (h : supervisor s = true) : (writeA s r v).usp = s.usp := by
  unfold writeA
  split
  · rfl
  · rfl
theorem writeA_ssp_of_user (h : supervisor s = false) : (writeA s r v).ssp = s.ssp := by
  unfold writeA
  split
  · rfl
  · simp [h]

/-- `A[r]` after a write of `A[r]`. -/
@[simp] theorem readA_writeA_same : readA (writeA s r v) r = v := by
  unfold readA
  rw [supervisor_writeA]
  unfold writeA
  split
  · simp
  · by_cases hs : supervisor s = true <;> simp [hs]

/-- Another address register after a write of `A[r]`. -/
theorem readA_writeA_other {q : Fin 8} (h : q ≠ r) : readA (writeA s r v) q = readA s q := by
  have hv : r.val ≠ q.val := fun e => h (Fin.ext e.symm)
  unfold readA
  rw [supervisor_writeA]
  unfold writeA
  by_cases hr : r.val < 7
  · simp [hr, hv]
  · have hq : q.val < 7 := by omega
    by_cases hs : supervisor s = true <;> simp [hr, hq, hs]
end writeA

section advancePc
variable (s : State) (n : Nat)
@[simp] theorem advancePc_cfg : (advancePc s n).cfg = s.cfg := rfl
@[simp] theorem advancePc_d : (advancePc s n).d = s.d := rfl
@[simp] theorem advancePc_a : (advancePc s n).a = s.a := rfl
@[simp] theorem advancePc_usp : (advancePc s n).usp = s.usp := rfl
@[simp] theorem advancePc_ssp : (advancePc s n).ssp = s.ssp := rfl
@[simp] theorem advancePc_pc : (advancePc s n).pc = s.pc + BitVec.ofNat 32 n := rfl
@[simp] theorem advancePc_vbr : (advancePc s n).vbr = s.vbr := rfl
@[simp] theorem advancePc_sr : (advancePc s n).sr = s.sr := rfl
@[simp] theorem advancePc_mem : (advancePc s n).mem = s.mem := rfl
@[simp] theorem readSr_advancePc : readSr (advancePc s n) = readSr s := rfl
end advancePc

section storeBytes
variable (sz : Size) (s : State) (a : Long) (v : BitVec sz.bits)
@[simp] theorem storeBytes_cfg : (storeBytes sz s a v).cfg = s.cfg := rfl
@[simp] theorem storeBytes_d : (storeBytes sz s a v).d = s.d := rfl
@[simp] theorem storeBytes_a : (storeBytes sz s a v).a = s.a := rfl
@[simp] theorem storeBytes_usp : (storeBytes sz s a v).usp = s.usp := rfl
@[simp] theorem storeBytes_ssp : (storeBytes sz s a v).ssp = s.ssp := rfl
@[simp] theorem storeBytes_pc : (storeBytes sz s a v).pc = s.pc := rfl
@[simp] theorem storeBytes_vbr : (storeBytes sz s a v).vbr = s.vbr := rfl
@[simp] theorem storeBytes_sr : (storeBytes sz s a v).sr = s.sr := rfl
@[simp] theorem readSr_storeBytes : readSr (storeBytes sz s a v) = readSr s := rfl
end storeBytes

section updates
variable (sz : Size) (s : State) (m : MemEa)
@[simp] theorem updateBefore_cfg : (updateBefore sz s m).cfg = s.cfg := by cases m <;> simp [updateBefore]
@[simp] theorem updateBefore_d : (updateBefore sz s m).d = s.d := by cases m <;> simp [updateBefore]
@[simp] theorem updateBefore_pc : (updateBefore sz s m).pc = s.pc := by cases m <;> simp [updateBefore]
@[simp] theorem updateBefore_vbr : (updateBefore sz s m).vbr = s.vbr := by cases m <;> simp [updateBefore]
@[simp] theorem updateBefore_sr : (updateBefore sz s m).sr = s.sr := by cases m <;> simp [updateBefore]
@[simp] theorem updateBefore_mem : (updateBefore sz s m).mem = s.mem := by cases m <;> simp [updateBefore]
@[simp] theorem readSr_updateBefore : readSr (updateBefore sz s m) = readSr s := by simp [readSr]
@[simp] theorem updateAfter_cfg : (updateAfter sz s m).cfg = s.cfg := by cases m <;> simp [updateAfter]
@[simp] theorem updateAfter_d : (updateAfter sz s m).d = s.d := by cases m <;> simp [updateAfter]
@[simp] theorem updateAfter_pc : (updateAfter sz s m).pc = s.pc := by cases m <;> simp [updateAfter]
@[simp] theorem updateAfter_vbr : (updateAfter sz s m).vbr = s.vbr := by cases m <;> simp [updateAfter]
@[simp] theorem updateAfter_sr : (updateAfter sz s m).sr = s.sr := by cases m <;> simp [updateAfter]
@[simp] theorem updateAfter_mem : (updateAfter sz s m).mem = s.mem := by cases m <;> simp [updateAfter]
@[simp] theorem readSr_updateAfter : readSr (updateAfter sz s m) = readSr s := by simp [readSr]
end updates

/-! ### The status register -/

@[simp] theorem readSr_and_mask (s : State) : readSr s &&& srMask s.cfg.cpu = readSr s := by
  simp [readSr, BitVec.and_assoc]

/-- An AND with what SR holds is inside the mask already. -/
@[simp] theorem readSr_and_and_mask (s : State) (v : Word) : readSr s &&& v &&& srMask s.cfg.cpu = readSr s &&& v := by
  rw [BitVec.and_assoc, BitVec.and_comm v, ← BitVec.and_assoc, readSr_and_mask]

/-- Bits 7 to 5 of every SR layout are not implemented, bits 4 to 0 are (R29 to R31). -/
theorem srMask_low (cpu : Cpu) (i : Nat) (h : i < 8) : (srMask cpu).getLsbD i = decide (i < 5) := by
  cases cpu <;> interval_cases i <;> rfl

/-- CCR after a write of CCR: the five flags (R33). -/
@[simp] theorem readCcr_writeCcr (s : State) (v : Byte) : readCcr (writeCcr s v) = v &&& 0x1F := by
  unfold readCcr writeCcr
  rw [readSr_writeSr]
  apply BitVec.eq_of_getLsbD_eq
  intro i hi
  rw [BitVec.getLsbD_extractLsb', BitVec.getLsbD_and, BitVec.getLsbD_append, Nat.zero_add, srMask_low _ i hi]
  interval_cases i <;> simp

/-- SR[15:8] after a write of CCR (R110). -/
@[simp] theorem systemByte_writeCcr (s : State) (v : Byte) : systemByte (writeCcr s v) = systemByte s := by
  unfold systemByte writeCcr
  rw [readSr_writeSr]
  apply BitVec.eq_of_getLsbD_eq
  intro i hi
  unfold systemByte readSr
  rw [BitVec.getLsbD_extractLsb', BitVec.getLsbD_and, BitVec.getLsbD_append]
  simp [hi]

/-- CCR holds nothing but the five flags. -/
@[simp] theorem readCcr_and_flags (s : State) : readCcr s &&& 0x1F = readCcr s := by
  unfold readCcr readSr
  apply BitVec.eq_of_getLsbD_eq
  intro i hi
  rw [BitVec.getLsbD_and, BitVec.getLsbD_extractLsb', BitVec.getLsbD_and, Nat.zero_add, srMask_low _ i hi]
  interval_cases i <;> simp

/-- SR is its two bytes. -/
theorem readSr_eq_append (s : State) : readSr s = systemByte s ++ readCcr s := by
  apply BitVec.eq_of_getLsbD_eq
  intro i hi
  rw [BitVec.getLsbD_append]
  unfold systemByte readCcr
  by_cases h : i < 8
  · simp [h]
  · simp [h, show i - 8 < 8 by omega, show 8 + (i - 8) = i by omega]

theorem flagX_eq (s : State) : flagX s = (readCcr s).getLsbD 4 := by simp [flagX, readCcr]
theorem flagN_eq (s : State) : flagN s = (readCcr s).getLsbD 3 := by simp [flagN, readCcr]
theorem flagZ_eq (s : State) : flagZ s = (readCcr s).getLsbD 2 := by simp [flagZ, readCcr]
theorem flagV_eq (s : State) : flagV s = (readCcr s).getLsbD 1 := by simp [flagV, readCcr]
theorem flagC_eq (s : State) : flagC s = (readCcr s).getLsbD 0 := by simp [flagC, readCcr]
theorem supervisor_eq (s : State) : supervisor s = (systemByte s).getLsbD 5 := by simp [supervisor, systemByte]
theorem flagT_eq (s : State) : flagT s = (systemByte s).getLsbD 7 := by simp [flagT, systemByte]

/-- The five flags of CCR after the data forms, as a byte (R134). -/
theorem readCcr_dataFlags {w : Nat} (s : State) (res : BitVec w) :
    readCcr (dataFlags s res) =
      ((readCcr s).extractLsb' 4 4 ++ BitVec.ofBool res.msb ++ BitVec.ofBool (res == 0) ++ 0b00#2) &&& 0x1F :=
  readCcr_writeCcr _ _

/-- SR after the data forms, from the SR before alone. -/
theorem readSr_dataFlags {w : Nat} (s : State) (res : BitVec w) :
    readSr (dataFlags s res) = systemByte s ++
      (((readCcr s).extractLsb' 4 4 ++ BitVec.ofBool res.msb ++ BitVec.ofBool (res == 0) ++ 0b00#2) &&& 0x1F) := by
  rw [readSr_eq_append, readCcr_dataFlags]
  exact congrArg (· ++ _) (systemByte_writeCcr _ _)

section dataFlagsValues
variable {w : Nat} (s : State) (res : BitVec w)
@[simp] theorem systemByte_dataFlags : systemByte (dataFlags s res) = systemByte s := systemByte_writeCcr _ _
@[simp] theorem supervisor_dataFlags : supervisor (dataFlags s res) = supervisor s := by simp [supervisor_eq]
@[simp] theorem flagX_dataFlags : flagX (dataFlags s res) = flagX s := by
  simp only [flagX_eq, readCcr_dataFlags, BitVec.getLsbD_and, BitVec.getLsbD_append]
  simp
@[simp] theorem flagN_dataFlags : flagN (dataFlags s res) = res.msb := by
  simp only [flagN_eq, readCcr_dataFlags, BitVec.getLsbD_and, BitVec.getLsbD_append]
  simp
@[simp] theorem flagZ_dataFlags : flagZ (dataFlags s res) = (res == 0) := by
  simp only [flagZ_eq, readCcr_dataFlags, BitVec.getLsbD_and, BitVec.getLsbD_append]
  simp
@[simp] theorem flagV_dataFlags : flagV (dataFlags s res) = false := by
  simp only [flagV_eq, readCcr_dataFlags, BitVec.getLsbD_and, BitVec.getLsbD_append]
  simp
@[simp] theorem flagC_dataFlags : flagC (dataFlags s res) = false := by
  simp only [flagC_eq, readCcr_dataFlags, BitVec.getLsbD_and, BitVec.getLsbD_append]
  simp
end dataFlagsValues

end Sys2Proof.Machine
end

