-- ==== Sys2Proof/Laws/Memory.lean ====
section
/-! SUPPORT. The laws of memory: read after write, the canonical form, and what each access can answer. -/

namespace Sys2Proof.Machine

/-! ### One byte -/

theorem Memory.read_write_same (m : Memory) (a : Nat) (b : Byte) : Memory.read (Memory.write m a b) a = some b := by
  induction m with
  | nil => simp [Memory.write, Memory.read]
  | cons c rest ih =>
    obtain ⟨k, v⟩ := c
    unfold Memory.write
    split
    · simp [Memory.read]
    · split
      · simp [Memory.read]
      · rename_i h1 h2
        simp [Memory.read, Ne.symm h2, ih]

theorem Memory.read_write_other (m : Memory) {a c : Nat} (b : Byte) (h : c ≠ a) :
    Memory.read (Memory.write m a b) c = Memory.read m c := by
  induction m with
  | nil => simp [Memory.write, Memory.read, Ne.symm h]
  | cons x rest ih =>
    obtain ⟨k, v⟩ := x
    unfold Memory.write
    split
    · simp [Memory.read, Ne.symm h]
    · split
      · rename_i h1 h2
        subst h2
        simp [Memory.read, Ne.symm h]
      · simp [Memory.read, ih]

/-! ### The canonical form -/

/-- Every address of the list is above `a`. -/
def Memory.above (a : Nat) (m : Memory) : Prop := ∀ c ∈ m, a < c.1

theorem Memory.wf_cons {x : Host.Cell} {m : Memory} :
    Memory.wf (x :: m) = true ↔ Memory.above x.1 m ∧ Memory.wf m = true := by
  induction m generalizing x with
  | nil => simp [Memory.wf, Memory.above]
  | cons y rest ih =>
    simp only [Memory.wf, Bool.and_eq_true, decide_eq_true_eq]
    constructor
    · rintro ⟨hxy, hw⟩
      refine ⟨?_, hw⟩
      intro c hc
      rcases List.mem_cons.1 hc with rfl | hc
      · exact hxy
      · exact Nat.lt_trans hxy ((ih.1 hw).1 c hc)
    · rintro ⟨ha, hw⟩
      exact ⟨ha y (List.mem_cons_self ..), hw⟩

theorem Memory.mem_write {m : Memory} {a : Nat} {b : Byte} {c : Host.Cell} (h : c ∈ Memory.write m a b) :
    c = (a, b) ∨ c ∈ m := by
  induction m with
  | nil => simpa [Memory.write] using h
  | cons x rest ih =>
    obtain ⟨k, v⟩ := x
    unfold Memory.write at h
    split at h
    · simpa using h
    · split at h
      · rcases List.mem_cons.1 h with h | h
        · exact .inl h
        · exact .inr (List.mem_cons_of_mem _ h)
      · rcases List.mem_cons.1 h with h | h
        · exact .inr (h ▸ List.mem_cons_self ..)
        · rcases ih h with h | h
          · exact .inl h
          · exact .inr (List.mem_cons_of_mem _ h)

/-- A write keeps the canonical form. -/
theorem Memory.wf_write {m : Memory} (a : Nat) (b : Byte) (h : Memory.wf m = true) : Memory.wf (Memory.write m a b) = true := by
  induction m with
  | nil => rfl
  | cons x rest ih =>
    obtain ⟨k, v⟩ := x
    obtain ⟨ha, hw⟩ := Memory.wf_cons.1 h
    unfold Memory.write
    split
    · rename_i hlt
      refine Memory.wf_cons.2 ⟨?_, h⟩
      intro c hc
      rcases List.mem_cons.1 hc with rfl | hc
      · exact hlt
      · exact Nat.lt_trans hlt (ha c hc)
    · split
      · rename_i _ heq
        subst heq
        exact Memory.wf_cons.2 ⟨ha, hw⟩
      · rename_i h1 h2
        refine Memory.wf_cons.2 ⟨?_, ih hw⟩
        intro c hc
        rcases Memory.mem_write hc with rfl | hc
        · show k < a
          omega
        · exact ha c hc

theorem Memory.wf_writeAll {m : Memory} (cs : List (Nat × Byte)) (h : Memory.wf m = true) :
    Memory.wf (Memory.writeAll m cs) = true := by
  induction cs generalizing m with
  | nil => exact h
  | cons c rest ih => exact ih (Memory.wf_write c.1 c.2 h)

theorem Memory.mem_writeAll {m : Memory} {cs : List (Nat × Byte)} {c : Host.Cell} (h : c ∈ Memory.writeAll m cs) :
    c ∈ cs ∨ c ∈ m := by
  induction cs generalizing m with
  | nil => exact .inr h
  | cons x rest ih =>
    rcases ih h with h | h
    · exact .inl (List.mem_cons_of_mem _ h)
    · rcases Memory.mem_write h with h | h
      · exact .inl (h ▸ List.mem_cons_self ..)
      · exact .inr h

/-! ### Several bytes -/

theorem Memory.read_writeAll_other (m : Memory) (cs : List (Nat × Byte)) {a : Nat} (h : ∀ c ∈ cs, c.1 ≠ a) :
    Memory.read (Memory.writeAll m cs) a = Memory.read m a := by
  induction cs generalizing m with
  | nil => rfl
  | cons c rest ih =>
    have hc : a ≠ c.1 := Ne.symm (h c (List.mem_cons_self ..))
    rw [Memory.writeAll, ih _ fun x hx => h x (List.mem_cons_of_mem _ hx), Memory.read_write_other _ _ hc]

/-- A byte that holds a value keeps holding one. -/
theorem Memory.isSome_writeAll (m : Memory) (cs : List (Nat × Byte)) (a : Nat) (h : (Memory.read m a).isSome = true) :
    (Memory.read (Memory.writeAll m cs) a).isSome = true := by
  induction cs generalizing m with
  | nil => exact h
  | cons c rest ih =>
    refine ih _ ?_
    by_cases hc : a = c.1
    · rw [hc, Memory.read_write_same]
      rfl
    · rw [Memory.read_write_other _ _ hc]
      exact h

/-! ### Addresses -/

/-- A byte other than the `n` bytes at `a`. -/
theorem within_eq_false {c : Config} {a x : Long} {n : Nat} :
    within c a n x = false ↔ ∀ k < n, reduce c (a + BitVec.ofNat 32 k) ≠ reduce c x := by
  simp [within, byteAddrs]

theorem within_eq_true {c : Config} {a x : Long} {n : Nat} :
    within c a n x = true ↔ ∃ k < n, reduce c (a + BitVec.ofNat 32 k) = reduce c x := by
  simp [within, byteAddrs]

theorem mem_byteAddrs {c : Config} {a : Long} {n x : Nat} :
    x ∈ byteAddrs c a n ↔ ∃ k < n, reduce c (a + BitVec.ofNat 32 k) = x := by
  simp [byteAddrs]

theorem reduce_lt (c : Config) (a : Long) : reduce c a < 2 ^ c.addrBits := Nat.mod_lt _ (Nat.two_pow_pos _)

/-- Reducing sees an address only modulo `2 ^ min ADDR_BITS 32`. -/
theorem reduce_add (c : Config) (a : Long) (k : Nat) (hb : c.addrBits ≤ 32) :
    reduce c (a + BitVec.ofNat 32 k) = (a.toNat + k) % 2 ^ c.addrBits := by
  unfold reduce
  rw [BitVec.toNat_add, BitVec.toNat_ofNat]
  have hd : 2 ^ c.addrBits ∣ 2 ^ 32 := Nat.pow_dvd_pow 2 hb
  rw [Nat.mod_mod_of_dvd _ hd, Nat.add_mod, Nat.mod_mod_of_dvd _ hd, ← Nat.add_mod]

/-- Two offsets below eight give different bytes. -/
theorem reduce_add_ne (c : Config) (a : Long) {j k : Nat} (hb : 3 ≤ c.addrBits) (hj : j < 8) (hk : k < 8) (h : j ≠ k) :
    reduce c (a + BitVec.ofNat 32 j) ≠ reduce c (a + BitVec.ofNat 32 k) := by
  intro he
  have hd : 8 ∣ 2 ^ c.addrBits := Nat.pow_dvd_pow 2 hb
  have h8 : (a + BitVec.ofNat 32 j).toNat % 8 = (a + BitVec.ofNat 32 k).toNat % 8 := by
    have := congrArg (· % 8) he
    simpa [reduce, Nat.mod_mod_of_dvd _ hd] using this
  rw [BitVec.toNat_add, BitVec.toNat_add, BitVec.toNat_ofNat, BitVec.toNat_ofNat] at h8
  omega

theorem reduce_zero_ne (c : Config) (a : Long) {k : Nat} (hb : 3 ≤ c.addrBits) (hk : k < 8) (h : k ≠ 0) :
    reduce c a ≠ reduce c (a + BitVec.ofNat 32 k) := by
  have := reduce_add_ne c a (j := 0) hb (by decide) hk (Ne.symm h)
  rwa [show a + BitVec.ofNat 32 0 = a from BitVec.add_zero a] at this

/-! ### Bytes of a state after a store -/

/-- A store leaves every byte but its own. -/
theorem byteAt_storeBytes_other {sz : Size} {s : State} {a x : Long} {v : BitVec sz.bits}
    (h : within s.cfg a sz.bytes x = false) : byteAt (storeBytes sz s a v) x = byteAt s x := by
  unfold byteAt
  rw [storeBytes_cfg]
  refine Memory.read_writeAll_other _ _ fun c hc he => ?_
  obtain ⟨k, hk, hx⟩ := mem_byteAddrs.1 (List.of_mem_zip hc).1
  exact within_eq_false.1 h k hk (hx.trans he)

/-- Bytes depend on the address and on memory alone. -/
theorem byteAt_congr {s t : State} (hm : t.mem = s.mem) (hc : t.cfg = s.cfg) (x : Long) : byteAt t x = byteAt s x := by
  simp [byteAt, hm, hc]

theorem byteAt_storeBytes_isSome {sz : Size} {s : State} {a x : Long} {v : BitVec sz.bits}
    (h : (byteAt s x).isSome = true) : (byteAt (storeBytes sz s a v) x).isSome = true := by
  unfold byteAt
  rw [storeBytes_cfg]
  exact Memory.isSome_writeAll _ _ _ h

section storedBytes
variable (s : State) (a : Long)

theorem byteAt_storeByte (v : Byte) : byteAt (storeBytes .byte s a v) a = some v := by
  simp [byteAt, storeBytes, byteAddrs, valueBytes, Memory.writeAll, Memory.read_write_same]

theorem storeWord_mem (v : Word) : (storeBytes .word s a v).mem =
    Memory.write (Memory.write s.mem (reduce s.cfg a) (v.extractLsb' 8 8)) (reduce s.cfg (a + 1)) (v.extractLsb' 0 8) := by
  simp [storeBytes, byteAddrs, valueBytes, Memory.writeAll, List.range_succ]

theorem storeLong_mem (v : Long) : (storeBytes .long s a v).mem =
    Memory.write (Memory.write (Memory.write (Memory.write s.mem (reduce s.cfg a) (v.extractLsb' 24 8))
      (reduce s.cfg (a + 1)) (v.extractLsb' 16 8)) (reduce s.cfg (a + 2)) (v.extractLsb' 8 8))
      (reduce s.cfg (a + 3)) (v.extractLsb' 0 8) := by
  simp [storeBytes, byteAddrs, valueBytes, Memory.writeAll, List.range_succ]

variable (hb : 3 ≤ s.cfg.addrBits)
include hb

/-- The two bytes of a stored word (R52). -/
theorem byteAt_storeWord (v : Word) :
    byteAt (storeBytes .word s a v) a = some (v.extractLsb' 8 8) ∧
    byteAt (storeBytes .word s a v) (a + 1) = some (v.extractLsb' 0 8) := by
  have h01 : reduce s.cfg a ≠ reduce s.cfg (a + 1) := reduce_zero_ne s.cfg a hb (by decide) (by decide)
  simp only [byteAt, storeWord_mem, storeBytes_cfg]
  refine ⟨?_, Memory.read_write_same ..⟩
  rw [Memory.read_write_other _ _ h01, Memory.read_write_same]

/-- The four bytes of a stored long word (R52). -/
theorem byteAt_storeLong (v : Long) :
    byteAt (storeBytes .long s a v) a = some (v.extractLsb' 24 8) ∧
    byteAt (storeBytes .long s a v) (a + 1) = some (v.extractLsb' 16 8) ∧
    byteAt (storeBytes .long s a v) (a + 2) = some (v.extractLsb' 8 8) ∧
    byteAt (storeBytes .long s a v) (a + 3) = some (v.extractLsb' 0 8) := by
  have ne := fun {j k : Nat} (hj : j < 8) (hk : k < 8) (h : j ≠ k) => reduce_add_ne s.cfg a hb hj hk h
  have h01 : reduce s.cfg a ≠ reduce s.cfg (a + 1) := reduce_zero_ne s.cfg a hb (by decide) (by decide)
  have h02 : reduce s.cfg a ≠ reduce s.cfg (a + 2) := reduce_zero_ne s.cfg a hb (by decide) (by decide)
  have h03 : reduce s.cfg a ≠ reduce s.cfg (a + 3) := reduce_zero_ne s.cfg a hb (by decide) (by decide)
  have h12 : reduce s.cfg (a + 1) ≠ reduce s.cfg (a + 2) := ne (by decide) (by decide) (by decide)
  have h13 : reduce s.cfg (a + 1) ≠ reduce s.cfg (a + 3) := ne (by decide) (by decide) (by decide)
  have h23 : reduce s.cfg (a + 2) ≠ reduce s.cfg (a + 3) := ne (by decide) (by decide) (by decide)
  simp only [byteAt, storeLong_mem, storeBytes_cfg]
  refine ⟨?_, ?_, ?_, Memory.read_write_same ..⟩
  · rw [Memory.read_write_other _ _ h03, Memory.read_write_other _ _ h02, Memory.read_write_other _ _ h01,
      Memory.read_write_same]
  · rw [Memory.read_write_other _ _ h13, Memory.read_write_other _ _ h12, Memory.read_write_same]
  · rw [Memory.read_write_other _ _ h23, Memory.read_write_same]
end storedBytes

/-! ### Loads -/

theorem loadByte_of_byteAt {s : State} {a : Long} {b : Byte} (h : byteAt s a = some b) : loadByte s a = .next b := by
  simp [loadByte, h]

theorem loadByte_of_none {s : State} {a : Long} (h : byteAt s a = none) :
    loadByte s a = .refused (.valuelessByte (reduce s.cfg a)) := by
  simp [loadByte, h]

theorem loadWord_of_bytes {s : State} {a : Long} {b0 b1 : Byte} (h0 : byteAt s a = some b0) (h1 : byteAt s (a + 1) = some b1) :
    loadBytes .word s a = .next (b0 ++ b1) := by
  simp only [loadBytes, loadByte_of_byteAt h0, loadByte_of_byteAt h1, andThen]

theorem loadLong_of_bytes {s : State} {a : Long} {b0 b1 b2 b3 : Byte} (h0 : byteAt s a = some b0)
    (h1 : byteAt s (a + 1) = some b1) (h2 : byteAt s (a + 2) = some b2) (h3 : byteAt s (a + 3) = some b3) :
    loadBytes .long s a = .next (b0 ++ b1 ++ b2 ++ b3) := by
  simp only [loadBytes, loadByte_of_byteAt h0, loadByte_of_byteAt h1, loadByte_of_byteAt h2, loadByte_of_byteAt h3, andThen]

/-- A load depends on the bytes it reads alone. -/
theorem loadBytes_congr {sz : Size} {s t : State} {a : Long} (hc : t.cfg = s.cfg)
    (h : ∀ k < sz.bytes, byteAt t (a + BitVec.ofNat 32 k) = byteAt s (a + BitVec.ofNat 32 k)) :
    loadBytes sz t a = loadBytes sz s a := by
  have e : ∀ x : Long, byteAt t x = byteAt s x → loadByte t x = loadByte s x := by
    intro x hx
    simp [loadByte, hx, hc]
  cases sz
  · have h0 : loadByte t a = loadByte s a := by simpa using e _ (h 0 (by decide))
    exact h0
  · have h0 : loadByte t a = loadByte s a := by simpa using e _ (h 0 (by decide))
    have h1 : loadByte t (a + 1) = loadByte s (a + 1) := e _ (h 1 (by decide))
    simp only [loadBytes, h0, h1]
  · have h0 : loadByte t a = loadByte s a := by simpa using e _ (h 0 (by decide))
    have h1 : loadByte t (a + 1) = loadByte s (a + 1) := e _ (h 1 (by decide))
    have h2 : loadByte t (a + 2) = loadByte s (a + 2) := e _ (h 2 (by decide))
    have h3 : loadByte t (a + 3) = loadByte s (a + 3) := e _ (h 3 (by decide))
    simp only [loadBytes, h0, h1, h2, h3]

theorem loadBytes_congr_mem {sz : Size} {s t : State} {a : Long} (hm : t.mem = s.mem) (hc : t.cfg = s.cfg) :
    loadBytes sz t a = loadBytes sz s a :=
  loadBytes_congr hc fun _ _ => byteAt_congr hm hc _

theorem append_extract16 (v : Word) : v.extractLsb' 8 8 ++ v.extractLsb' 0 8 = v := by
  apply BitVec.eq_of_getLsbD_eq
  intro i hi
  rw [BitVec.getLsbD_append]
  by_cases h : i < 8
  · simp [h]
  · simp [h, show i - 8 < 8 by omega, show 8 + (i - 8) = i by omega]

theorem append_extract32 (v : Long) :
    v.extractLsb' 24 8 ++ v.extractLsb' 16 8 ++ v.extractLsb' 8 8 ++ v.extractLsb' 0 8 = v := by
  apply BitVec.eq_of_getLsbD_eq
  intro i hi
  simp only [BitVec.getLsbD_append, BitVec.getLsbD_extractLsb']
  by_cases h : i < 8
  · simp [h]
  · by_cases h2 : i < 16
    · simp [h, show i - 8 < 8 by omega, show 8 + (i - 8) = i by omega]
    · by_cases h3 : i < 24
      · simp [h, show ¬ i - 8 < 8 by omega, show i - 8 - 8 < 8 by omega, show 16 + (i - 8 - 8) = i by omega]
      · simp [h, show ¬ i - 8 < 8 by omega, show ¬ i - 8 - 8 < 8 by omega, show i - 8 - 8 - 8 < 8 by omega,
          show 24 + (i - 8 - 8 - 8) = i by omega]

/-- A load at the address of a store gives the value stored (R62). -/
theorem loadBytes_storeBytes (sz : Size) (s : State) (a : Long) (v : BitVec sz.bits) (hb : 3 ≤ s.cfg.addrBits) :
    loadBytes sz (storeBytes sz s a v) a = .next v := by
  cases sz
  · exact loadByte_of_byteAt (byteAt_storeByte s a v)
  · obtain ⟨h0, h1⟩ := byteAt_storeWord s a hb v
    rw [loadWord_of_bytes h0 h1, append_extract16]
  · obtain ⟨h0, h1, h2, h3⟩ := byteAt_storeLong s a hb v
    rw [loadLong_of_bytes h0 h1 h2 h3, append_extract32]

/-- A load whose bytes all hold values succeeds. -/
theorem loadBytes_of_holdsValues {sz : Size} {s : State} {a : Long} (h : holdsValues sz s a = true) :
    ∃ v, loadBytes sz s a = .next v := by
  simp only [holdsValues, List.all_eq_true, List.mem_range] at h
  have e : ∀ k < sz.bytes, ∃ b, byteAt s (a + BitVec.ofNat 32 k) = some b := fun k hk => Option.isSome_iff_exists.1 (h k hk)
  cases sz
  · obtain ⟨b, hb⟩ := e 0 (by decide)
    rw [show a + BitVec.ofNat 32 0 = a from BitVec.add_zero a] at hb
    exact ⟨b, loadByte_of_byteAt hb⟩
  · obtain ⟨b0, h0⟩ := e 0 (by decide)
    obtain ⟨b1, h1⟩ := e 1 (by decide)
    rw [show a + BitVec.ofNat 32 0 = a from BitVec.add_zero a] at h0
    exact ⟨_, loadWord_of_bytes h0 h1⟩
  · obtain ⟨b0, h0⟩ := e 0 (by decide)
    obtain ⟨b1, h1⟩ := e 1 (by decide)
    obtain ⟨b2, h2⟩ := e 2 (by decide)
    obtain ⟨b3, h3⟩ := e 3 (by decide)
    rw [show a + BitVec.ofNat 32 0 = a from BitVec.add_zero a] at h0
    exact ⟨_, loadLong_of_bytes h0 h1 h2 h3⟩

/-! ### Sequencing and accesses -/

@[simp] theorem andThen_next {α β : Type} (a : α) (f : α → Res β) : andThen (.next a) f = f a := rfl
@[simp] theorem andThen_fault {α β : Type} (e : Fault) (f : α → Res β) : andThen (.fault e) f = .fault e := rfl
@[simp] theorem andThen_refused {α β : Type} (e : Refusal) (f : α → Res β) : andThen (.refused e) f = .refused e := rfl

/-- A sequence that answers went through its first part. -/
theorem andThen_eq_next {α β : Type} {x : Res α} {f : α → Res β} {b : β} (h : andThen x f = .next b) :
    ∃ a, x = .next a ∧ f a = .next b := by
  cases x with
  | next a => exact ⟨a, rfl, h⟩
  | fault e => cases h
  | refused e => cases h

/-- The check of an access passes exactly when it is aligned and admitted (R50). -/
theorem checkAccess_next {k : Access} {sz : Size} {s : State} {a : Long} :
    checkAccess k sz s a = .next () ↔ aligned sz a = true ∧ admitsAll k sz s.cfg a = true := by
  unfold checkAccess
  cases aligned sz a <;> cases admitsAll k sz s.cfg a <;> simp

theorem memWrite_eq_next {sz : Size} {s t : State} {a : Long} {v : BitVec sz.bits} (h : memWrite sz s a v = .next t) :
    aligned sz a = true ∧ admitsAll .data sz s.cfg a = true ∧ t = storeBytes sz s a v := by
  obtain ⟨u, hc, ht⟩ := andThen_eq_next h
  obtain ⟨h1, h2⟩ := checkAccess_next.1 hc
  cases ht
  exact ⟨h1, h2, rfl⟩

theorem memWrite_of_ok {sz : Size} {s : State} {a : Long} (v : BitVec sz.bits) (h1 : aligned sz a = true)
    (h2 : admitsAll .data sz s.cfg a = true) : memWrite sz s a v = .next (storeBytes sz s a v) := by
  rw [memWrite, checkAccess_next.2 ⟨h1, h2⟩]
  rfl

theorem memRead_of_ok {k : Access} {sz : Size} {s : State} {a : Long} (h1 : aligned sz a = true)
    (h2 : admitsAll k sz s.cfg a = true) : memRead k sz s a = loadBytes sz s a := by
  rw [memRead, checkAccess_next.2 ⟨h1, h2⟩]
  rfl

theorem memRead_eq_next {k : Access} {sz : Size} {s : State} {a : Long} {v : BitVec sz.bits} (h : memRead k sz s a = .next v) :
    aligned sz a = true ∧ admitsAll k sz s.cfg a = true ∧ loadBytes sz s a = .next v := by
  obtain ⟨u, hc, hl⟩ := andThen_eq_next h
  obtain ⟨h1, h2⟩ := checkAccess_next.1 hc
  exact ⟨h1, h2, hl⟩

theorem memRead_of_readable {k : Access} {sz : Size} {s : State} {a : Long} (h : readable k sz s a = true) :
    ∃ v, memRead k sz s a = .next v ∧ loadBytes sz s a = .next v := by
  simp only [readable, Bool.and_eq_true] at h
  obtain ⟨v, hv⟩ := loadBytes_of_holdsValues h.2
  exact ⟨v, by rw [memRead_of_ok h.1.1 h.1.2, hv], hv⟩

theorem memRead_odd {k : Access} {sz : Size} {s : State} {a : Long} (h : aligned sz a = false) :
    memRead k sz s a = .fault (.addressError a) := by
  simp [memRead, checkAccess, h]

theorem memWrite_odd {sz : Size} {s : State} {a : Long} {v : BitVec sz.bits} (h : aligned sz a = false) :
    memWrite sz s a v = .fault (.addressError a) := by
  simp [memWrite, checkAccess, h]

theorem memRead_notAdmitted {k : Access} {sz : Size} {s : State} {a : Long} (h1 : aligned sz a = true)
    (h2 : admitsAll k sz s.cfg a = false) : memRead k sz s a = .fault (.busError a) := by
  simp [memRead, checkAccess, h1, h2]

theorem memWrite_notAdmitted {sz : Size} {s : State} {a : Long} {v : BitVec sz.bits} (h1 : aligned sz a = true)
    (h2 : admitsAll .data sz s.cfg a = false) : memWrite sz s a v = .fault (.busError a) := by
  simp [memWrite, checkAccess, h1, h2]

/-- A word or long access is aligned exactly at an even address (R55). -/
theorem aligned_iff {sz : Size} {a : Long} : aligned sz a = true ↔ (sz = .byte ∨ a[0] = false) := by
  cases sz <;> simp [aligned]

/-- A store keeps memory canonical and inside the address space. -/
theorem storeBytes_wf {sz : Size} {s : State} {a : Long} {v : BitVec sz.bits} (h : Memory.wf s.mem = true) :
    Memory.wf (storeBytes sz s a v).mem = true := Memory.wf_writeAll _ h

theorem storeBytes_inRange {sz : Size} {s : State} {a : Long} {v : BitVec sz.bits}
    (h : ∀ c ∈ s.mem, c.1 < 2 ^ s.cfg.addrBits) : ∀ c ∈ (storeBytes sz s a v).mem, c.1 < 2 ^ s.cfg.addrBits := by
  intro c hc
  rcases Memory.mem_writeAll hc with hc | hc
  · obtain ⟨k, _, hx⟩ := mem_byteAddrs.1 (List.of_mem_zip hc).1
    rw [← hx]
    exact reduce_lt _ _
  · exact h c hc

/-- An admitted write reaches no byte of `code` (R65). -/
theorem not_code_of_admitted {sz : Size} {s : State} {a x : Long} (h : admitsAll .data sz s.cfg a = true)
    (hx : inRegions s.cfg.memMap.code (reduce s.cfg x) = true) : within s.cfg a sz.bytes x = false := by
  rw [within_eq_false]
  intro k hk he
  simp only [admitsAll, List.all_eq_true] at h
  have := h _ (mem_byteAddrs.2 ⟨k, hk, rfl⟩)
  simp [admits, he, hx] at this

/-! ### Values and their absence -/

/-- What must hold values does (R37). -/
theorem require_of_holds {rs : List RegName} {s : State} (h : holds s rs = true) : require rs s = .next () := by
  induction rs with
  | nil => rfl
  | cons r rs ih =>
    simp only [holds, List.all_cons, Bool.and_eq_true, Bool.not_eq_true'] at h
    simp only [require, h.1, Bool.false_eq_true, if_false]
    exact ih h.2

/-- What must hold values does not: refused at one that holds none (R37). -/
theorem require_of_not_holds {rs : List RegName} {s : State} (h : holds s rs = false) :
    ∃ r ∈ rs, s.noValue.lacks r = true ∧ require rs s = .refused (.valuelessRegister r) := by
  induction rs with
  | nil => cases h
  | cons r rs ih =>
    by_cases hr : s.noValue.lacks r = true
    · exact ⟨r, List.mem_cons_self, hr, by simp only [require, hr, if_true]⟩
    · have hr' : s.noValue.lacks r = false := by simpa using hr
      have hrs : holds s rs = false := by simpa [holds, hr'] using h
      obtain ⟨q, hq, h1, h2⟩ := ih hrs
      exact ⟨q, List.mem_cons_of_mem _ hq, h1, by simp only [require, hr', Bool.false_eq_true, if_false]; exact h2⟩

theorem require_next {rs : List RegName} {s : State} {u : Unit} (h : require rs s = .next u) : holds s rs = true := by
  cases e : holds s rs with
  | true => rfl
  | false =>
    obtain ⟨r, _, _, h'⟩ := require_of_not_holds e
    rw [h'] at h
    cases h

theorem require_congr {rs : List RegName} {s t : State} (h : t.noValue = s.noValue) : require rs t = require rs s := by
  induction rs with
  | nil => rfl
  | cons r rs ih => simp only [require, h, ih]

@[simp] theorem holds_nil (s : State) : holds s [] = true := rfl
@[simp] theorem holds_cons (s : State) (r : RegName) (rs : List RegName) :
    holds s (r :: rs) = (!s.noValue.lacks r && holds s rs) := rfl

/-- A check of values before an action that answers. -/
theorem require_andThen_next {α : Type} {rs : List RegName} {s : State} {f : Unit → Res α} {b : α}
    (h : andThen (require rs s) f = .next b) : holds s rs = true ∧ f () = .next b := by
  obtain ⟨u, h1, h2⟩ := andThen_eq_next h
  exact ⟨require_next h1, h2⟩

/-- A check of values that hold. -/
theorem require_andThen {α : Type} {rs : List RegName} {s : State} (f : Unit → Res α) (h : holds s rs = true) :
    andThen (require rs s) f = f () := by
  rw [require_of_holds h]
  rfl

/-! ### Accesses that do not meet -/

/-- A byte outside `n` bytes is outside any of their parts. -/
theorem within_part {c : Config} {a x : Long} {n m k : Nat} (h : within c a n x = false) (hk : k + m ≤ n) :
    within c (a + BitVec.ofNat 32 k) m x = false := by
  rw [within_eq_false] at h ⊢
  intro j hj
  have := h (k + j) (by omega)
  rw [BitVec.add_assoc, ← BitVec.ofNat_add]
  exact this

/-- Two parts of eight bytes that do not meet as offsets do not meet in memory. -/
theorem within_disjoint {c : Config} (hb : 3 ≤ c.addrBits) (base : Long) (i n j m : Nat) (hij : i + n ≤ j ∨ j + m ≤ i)
    (hi : i + n ≤ 8) (hj : j + m ≤ 8) :
    ∀ k < m, within c (base + BitVec.ofNat 32 i) n (base + BitVec.ofNat 32 j + BitVec.ofNat 32 k) = false := by
  intro k hk
  rw [within_eq_false]
  intro l hl
  rw [BitVec.add_assoc, BitVec.add_assoc, ← BitVec.ofNat_add, ← BitVec.ofNat_add]
  exact reduce_add_ne c base hb (by omega) (by omega) (by omega)

/-- Reading beside a store. -/
theorem loadBytes_storeBytes_other {sz z : Size} {s : State} {a b : Long} {v : BitVec sz.bits}
    (h : ∀ k < z.bytes, within s.cfg a sz.bytes (b + BitVec.ofNat 32 k) = false) :
    loadBytes z (storeBytes sz s a v) b = loadBytes z s b :=
  loadBytes_congr rfl fun k hk => byteAt_storeBytes_other (h k hk)

/-- A read sees memory and the parameters only. -/
theorem memRead_congr {k : Access} {sz : Size} {s t : State} {a : Long} (hm : t.mem = s.mem) (hc : t.cfg = s.cfg) :
    memRead k sz t a = memRead k sz s a := by
  unfold memRead checkAccess
  rw [hc, loadBytes_congr_mem hm hc]

/-- Bytes that hold values go on holding values while memory only grows. -/
theorem holdsValues_mono {sz : Size} {s t : State} {a : Long} (h : holdsValues sz s a = true)
    (hm : ∀ x, (byteAt s x).isSome = true → (byteAt t x).isSome = true) : holdsValues sz t a = true := by
  simp only [holdsValues, List.all_eq_true] at h ⊢
  exact fun k hk => hm _ (h k hk)

/-- Reading bytes one of which holds no value is refused at such a byte (R138, D24). -/
theorem loadBytes_of_not_holdsValues {sz : Size} {s : State} {a : Long} (h : holdsValues sz s a = false) :
    ∃ k, Memory.read s.mem k = none ∧ loadBytes sz s a = .refused (.valuelessByte k) := by
  have e : ∀ x : Long, (byteAt s x = none ∧ loadByte s x = .refused (.valuelessByte (reduce s.cfg x))) ∨
      ∃ b, byteAt s x = some b ∧ loadByte s x = .next b := by
    intro x
    cases hx : byteAt s x with
    | none => exact .inl ⟨rfl, loadByte_of_none hx⟩
    | some b => exact .inr ⟨b, rfl, loadByte_of_byteAt hx⟩
  have r : (List.range 2 = [0, 1]) ∧ (List.range 4 = [0, 1, 2, 3]) := ⟨rfl, rfl⟩
  rcases e a with ⟨h0, h1⟩ | ⟨b, h0, h1⟩
  · cases sz <;> exact ⟨_, h0, by simp only [loadBytes, h1, andThen_refused]⟩
  cases sz
  · simp [holdsValues, h0] at h
  · rcases e (a + 1) with ⟨g0, g1⟩ | ⟨b', g0, g1⟩
    · exact ⟨_, g0, by simp only [loadBytes, h1, g1, andThen_next, andThen_refused]⟩
    · simp only [BitVec.ofNat_eq_ofNat] at g0
      simp [holdsValues, r.1, h0, g0] at h
  · rcases e (a + 1) with ⟨g0, g1⟩ | ⟨b', g0, g1⟩
    · exact ⟨_, g0, by simp only [loadBytes, h1, g1, andThen_next, andThen_refused]⟩
    rcases e (a + 2) with ⟨k0, k1⟩ | ⟨b'', k0, k1⟩
    · exact ⟨_, k0, by simp only [loadBytes, h1, g1, k1, andThen_next, andThen_refused]⟩
    rcases e (a + 3) with ⟨l0, l1⟩ | ⟨b'', l0, l1⟩
    · exact ⟨_, l0, by simp only [loadBytes, h1, g1, k1, l1, andThen_next, andThen_refused]⟩
    · simp only [BitVec.ofNat_eq_ofNat] at g0 k0 l0
      simp [holdsValues, r.2, h0, g0, k0, l0] at h

/-- A read of bytes never faults: it gives a value or is refused. -/
theorem loadBytes_ne_fault {sz : Size} {s : State} {a : Long} {e : Fault} : loadBytes sz s a ≠ .fault e := by
  cases h : holdsValues sz s a
  · obtain ⟨k, _, e⟩ := loadBytes_of_not_holdsValues h
    rw [e]
    simp
  · obtain ⟨v, e⟩ := loadBytes_of_holdsValues h
    rw [e]
    simp

end Sys2Proof.Machine
end

