-- ==== Sys2Proof/Laws/Exceptions.lean ====
section
/-! SUPPORT. What taking an exception can answer: the pushes and the state after them. -/

namespace Sys2Proof.Machine

/-- The state after a push that succeeds. -/
def pushed (sz : Size) (v : BitVec sz.bits) (s : State) : State :=
  storeBytes sz { s with ssp := s.ssp - BitVec.ofNat 32 sz.bytes } (s.ssp - BitVec.ofNat 32 sz.bytes) v

theorem push_eq_next {sz : Size} {v : BitVec sz.bits} {s t : State} (h : push sz v s = .next t) :
    aligned sz (s.ssp - BitVec.ofNat 32 sz.bytes) = true ∧
      admitsAll .data sz s.cfg (s.ssp - BitVec.ofNat 32 sz.bytes) = true ∧ t = pushed sz v s := by
  obtain ⟨h1, h2, h3⟩ := memWrite_eq_next h
  exact ⟨h1, h2, h3⟩

theorem push_of_ok {sz : Size} (v : BitVec sz.bits) {s : State}
    (h1 : aligned sz (s.ssp - BitVec.ofNat 32 sz.bytes) = true)
    (h2 : admitsAll .data sz s.cfg (s.ssp - BitVec.ofNat 32 sz.bytes) = true) : push sz v s = .next (pushed sz v s) :=
  memWrite_of_ok v h1 h2

section pushed
variable (sz : Size) (v : BitVec sz.bits) (s : State)
@[simp] theorem pushed_cfg : (pushed sz v s).cfg = s.cfg := rfl
@[simp] theorem pushed_d : (pushed sz v s).d = s.d := rfl
@[simp] theorem pushed_a : (pushed sz v s).a = s.a := rfl
@[simp] theorem pushed_usp : (pushed sz v s).usp = s.usp := rfl
@[simp] theorem pushed_ssp : (pushed sz v s).ssp = s.ssp - BitVec.ofNat 32 sz.bytes := rfl
@[simp] theorem pushed_pc : (pushed sz v s).pc = s.pc := rfl
@[simp] theorem pushed_vbr : (pushed sz v s).vbr = s.vbr := rfl
@[simp] theorem pushed_sr : (pushed sz v s).sr = s.sr := rfl
@[simp] theorem pushed_noValue : (pushed sz v s).noValue = s.noValue := rfl
@[simp] theorem readSr_pushed : readSr (pushed sz v s) = readSr s := rfl
theorem byteAt_pushed (x : Long) : byteAt (pushed sz v s) x =
    byteAt (storeBytes sz s (s.ssp - BitVec.ofNat 32 sz.bytes) v) x := rfl
theorem loadBytes_pushed (z : Size) (x : Long) : loadBytes z (pushed sz v s) x =
    loadBytes z (storeBytes sz s (s.ssp - BitVec.ofNat 32 sz.bytes) v) x :=
  loadBytes_congr rfl fun _ _ => rfl
end pushed

section enterSupervisor
variable (s : State)
@[simp] theorem enterSupervisor_cfg : (enterSupervisor s).cfg = s.cfg := rfl
@[simp] theorem enterSupervisor_d : (enterSupervisor s).d = s.d := rfl
@[simp] theorem enterSupervisor_a : (enterSupervisor s).a = s.a := rfl
@[simp] theorem enterSupervisor_usp : (enterSupervisor s).usp = s.usp := rfl
@[simp] theorem enterSupervisor_ssp : (enterSupervisor s).ssp = s.ssp := rfl
@[simp] theorem enterSupervisor_pc : (enterSupervisor s).pc = s.pc := rfl
@[simp] theorem enterSupervisor_vbr : (enterSupervisor s).vbr = s.vbr := rfl
@[simp] theorem enterSupervisor_mem : (enterSupervisor s).mem = s.mem := rfl
@[simp] theorem enterSupervisor_noValue : (enterSupervisor s).noValue = s.noValue := rfl

/-- Trap entry is in supervisor mode with trace off (R184). -/
theorem supervisor_enterSupervisor : supervisor (enterSupervisor s) = true := by
  unfold supervisor enterSupervisor
  rw [← BitVec.getLsbD_eq_getElem, readSr_writeSr]
  cases s.cfg.cpu <;> simp [srMask, traceBits]

theorem flagT_enterSupervisor : flagT (enterSupervisor s) = false := by
  unfold flagT enterSupervisor
  rw [← BitVec.getLsbD_eq_getElem, readSr_writeSr]
  cases s.cfg.cpu <;> simp [srMask, traceBits]

/-- SR at trap entry on the 68000 and 68010 (R184). -/
theorem readSr_enterSupervisor (h : s.cfg.cpu.modelled = true) :
    readSr (enterSupervisor s) = (readSr s ||| 0x2000) &&& 0x7FFF := by
  unfold enterSupervisor
  rw [readSr_writeSr]
  apply BitVec.eq_of_getLsbD_eq
  intro i hi
  have hm : (readSr s).getLsbD i = ((readSr s).getLsbD i && (srMask s.cfg.cpu).getLsbD i) := by
    rw [← BitVec.getLsbD_and, readSr_and_mask]
  cases hc : s.cfg.cpu <;> simp [hc, Cpu.modelled] at h <;>
    (rw [hc] at hm; simp only [srMask] at hm ⊢; rw [BitVec.getLsbD_and, BitVec.getLsbD_and, BitVec.getLsbD_and,
      BitVec.getLsbD_or, hm]; interval_cases i <;> simp [traceBits])
end enterSupervisor

/-- What an exception on the MC68000 answers: two pushes, then the vector (R184). -/
theorem takeException_mc68000 {n : Nat} {s t : State} (hc : s.cfg.cpu = .mc68000) (h : takeException n s = .next t) :
    ∃ target,
      let s2 := pushed .long s.pc (enterSupervisor s)
      let s3 := pushed .word (readSr s) s2
      holds s [.flags, .ssp] = true ∧
      writable .long s (s.ssp - 4) = true ∧ writable .word s (s.ssp - 4 - 2) = true ∧
      memRead .vector .long s3 (BitVec.ofNat 32 (4 * n)) = .next target ∧ t = { s3 with pc := target } := by
  obtain ⟨hh, h⟩ := require_andThen_next h
  obtain ⟨s1, h1, h⟩ := andThen_eq_next h
  obtain ⟨s2, h2, h⟩ := andThen_eq_next h
  obtain ⟨s3, h3, h⟩ := andThen_eq_next h
  obtain ⟨target, h4, h⟩ := andThen_eq_next h
  rw [pushFormat, enterSupervisor_cfg, hc] at h1
  cases h1
  obtain ⟨a2, m2, rfl⟩ := push_eq_next h2
  obtain ⟨a3, m3, rfl⟩ := push_eq_next h3
  simp only [vectorBase, pushed_cfg, enterSupervisor_cfg, hc, BitVec.ofNat_eq_ofNat, BitVec.zero_add] at h4
  cases h
  refine ⟨target, hh, ?_, ?_, h4, rfl⟩
  · simpa [writable] using ⟨a2, m2⟩
  · simpa [writable] using ⟨a3, m3⟩

/-- The converse: an exception on the MC68000 whose frame can be written and whose vector can be read afterwards. -/
theorem takeException_mc68000_of_ok {n : Nat} {s : State} {target : Long} (hc : s.cfg.cpu = .mc68000)
    (hh : holds s [.flags, .ssp] = true) (h1 : writable .long s (s.ssp - 4) = true) (h2 : writable .word s (s.ssp - 4 - 2) = true)
    (h3 : memRead .vector .long (pushed .word (readSr s) (pushed .long s.pc (enterSupervisor s))) (BitVec.ofNat 32 (4 * n)) =
      .next target) :
    takeException n s =
      .next { pushed .word (readSr s) (pushed .long s.pc (enterSupervisor s)) with pc := target } := by
  simp only [writable, Bool.and_eq_true] at h1 h2
  unfold takeException
  rw [require_andThen _ hh, pushFormat, enterSupervisor_cfg, hc]
  simp only [andThen_next]
  rw [push_of_ok (s := enterSupervisor s) s.pc h1.1 h1.2, andThen_next,
    push_of_ok (s := pushed .long s.pc (enterSupervisor s)) (readSr s) h2.1 h2.2, andThen_next]
  simp only [vectorBase, pushed_cfg, enterSupervisor_cfg, hc, BitVec.ofNat_eq_ofNat, BitVec.zero_add]
  rw [h3, andThen_next]

/-- Whatever the processor, an exception leaves the parameters, D, A, USP, VBR and what holds a value, is in supervisor mode with trace
off, and its memory comes from stores into `data`. -/
theorem takeException_frame {n : Nat} {s t : State} (h : takeException n s = .next t) :
    t.cfg = s.cfg ∧ t.vbr = s.vbr ∧ t.d = s.d ∧ t.a = s.a ∧ t.usp = s.usp ∧ t.noValue = s.noValue ∧
      t.sr = (enterSupervisor s).sr ∧
      (Memory.wf s.mem = true → Memory.wf t.mem = true) ∧
      ((∀ c ∈ s.mem, c.1 < 2 ^ s.cfg.addrBits) → ∀ c ∈ t.mem, c.1 < 2 ^ s.cfg.addrBits) ∧
      (∀ x, inRegions s.cfg.memMap.code (reduce s.cfg x) = true → byteAt t x = byteAt s x) := by
  obtain ⟨-, h⟩ := require_andThen_next h
  obtain ⟨s1, h1, h⟩ := andThen_eq_next h
  obtain ⟨s2, h2, h⟩ := andThen_eq_next h
  obtain ⟨s3, h3, h⟩ := andThen_eq_next h
  obtain ⟨target, h4, h⟩ := andThen_eq_next h
  obtain ⟨-, m2, rfl⟩ := push_eq_next h2
  obtain ⟨-, m3, rfl⟩ := push_eq_next h3
  cases h
  have f1 : s1.cfg = s.cfg ∧ s1.vbr = s.vbr ∧ s1.d = s.d ∧ s1.a = s.a ∧ s1.usp = s.usp ∧ s1.noValue = s.noValue ∧
      s1.sr = (enterSupervisor s).sr ∧
      (Memory.wf s.mem = true → Memory.wf s1.mem = true) ∧
      ((∀ c ∈ s.mem, c.1 < 2 ^ s.cfg.addrBits) → ∀ c ∈ s1.mem, c.1 < 2 ^ s.cfg.addrBits) ∧
      (∀ x, inRegions s.cfg.memMap.code (reduce s.cfg x) = true → byteAt s1 x = byteAt s x) := by
    have fp : push .word (BitVec.ofNat 16 (4 * n)) (enterSupervisor s) = .next s1 → _ := push_eq_next
    unfold pushFormat at h1
    rw [enterSupervisor_cfg] at h1
    split at h1
    · cases h1
      exact ⟨rfl, rfl, rfl, rfl, rfl, rfl, rfl, id, id, fun _ _ => rfl⟩
    all_goals
      obtain ⟨-, m1, rfl⟩ := fp h1
      refine ⟨rfl, rfl, rfl, rfl, rfl, rfl, rfl, fun w => storeBytes_wf w, fun w => storeBytes_inRange w, fun x hx => ?_⟩
      rw [byteAt_pushed, byteAt_storeBytes_other (not_code_of_admitted m1 hx)]
      exact byteAt_congr rfl rfl x
  obtain ⟨c1, v1, d1, a1, u1, n1, r1, w1, i1, b1⟩ := f1
  refine ⟨c1, v1, d1, a1, u1, n1, r1, fun w => ?_, fun w => ?_, fun x hx => ?_⟩
  · exact storeBytes_wf (s := pushed .long s.pc s1) (storeBytes_wf (s := s1) (w1 w))
  · have e1 : ∀ c ∈ s1.mem, c.1 < 2 ^ s1.cfg.addrBits := by rw [c1]; exact i1 w
    have e2 := storeBytes_inRange (sz := .long) (a := s1.ssp - BitVec.ofNat 32 4) (v := s.pc) e1
    have e3 := storeBytes_inRange (sz := .word) (s := pushed .long s.pc s1) (a := (pushed .long s.pc s1).ssp - BitVec.ofNat 32 2)
      (v := readSr s) e2
    rw [← c1]
    exact e3
  · have x1 : inRegions s1.cfg.memMap.code (reduce s1.cfg x) = true := by rw [c1]; exact hx
    show byteAt (pushed .word (readSr s) (pushed .long s.pc s1)) x = byteAt s x
    rw [byteAt_pushed, byteAt_storeBytes_other (not_code_of_admitted m3 x1), byteAt_pushed,
      byteAt_storeBytes_other (not_code_of_admitted m2 x1), b1 x hx]

/-- Vector 8 is even exactly when it can be read as an even address (R213). -/
theorem handlerEven_iff {s : State} :
    handlerEven s = true ↔ ∃ a : Long, loadBytes .long s 0x000020 = .next a ∧ a[0] = false := by
  unfold handlerEven
  cases h : loadBytes .long s 0x000020 with
  | next a =>
    refine ⟨fun e => ⟨a, rfl, by simpa using e⟩, ?_⟩
    rintro ⟨b, hb, e⟩
    cases hb
    simpa using e
  | fault e => simp
  | refused e => simp

end Sys2Proof.Machine
end

