-- ==== Sys2Proof/Laws/Exec.lean ====
section
/-! SUPPORT. What one instruction can do, said once: the meaning of `Instr.andi`, the memory procedure, and the inversion of `exec`. -/

namespace Sys2Proof.Machine

/-- The 24 data forms share one procedure (R130). -/
theorem exec_andi (sz : Size) (imm : BitVec sz.bits) (e : Ea) (s : State) : exec (Instr.andi sz imm e) s = andiEa sz imm e s := by
  cases sz <;> cases e with
  | dr r => rfl
  | mem m => cases m <;> rfl

/-- Every instruction is ANDI to CCR, ANDI to SR, or `ANDI.<sz> #imm,<ea>` (R1). -/
theorem instr_cases (i : Instr) :
    (∃ imm, i = .andiBCcr imm) ∨ (∃ imm, i = .andiWSr imm) ∨
    (∃ (sz : Size) (imm : BitVec sz.bits) (r : Fin 8), i = Instr.andi sz imm (.dr r)) ∨
    (∃ (sz : Size) (imm : BitVec sz.bits) (m : MemEa), i = Instr.andi sz imm (.mem m)) := by
  cases i with
  | andiBCcr imm => exact .inl ⟨imm, rfl⟩
  | andiWSr imm => exact .inr (.inl ⟨imm, rfl⟩)
  | andiBDr imm r => exact .inr (.inr (.inl ⟨.byte, imm, r, rfl⟩))
  | andiWDr imm r => exact .inr (.inr (.inl ⟨.word, imm, r, rfl⟩))
  | andiLDr imm r => exact .inr (.inr (.inl ⟨.long, imm, r, rfl⟩))
  | andiBInd imm r => exact .inr (.inr (.inr ⟨.byte, imm, .ind r, rfl⟩))
  | andiBPostInc imm r => exact .inr (.inr (.inr ⟨.byte, imm, .postInc r, rfl⟩))
  | andiBPreDec imm r => exact .inr (.inr (.inr ⟨.byte, imm, .preDec r, rfl⟩))
  | andiBDisp imm r d16 => exact .inr (.inr (.inr ⟨.byte, imm, .disp r d16, rfl⟩))
  | andiBIndex imm r x => exact .inr (.inr (.inr ⟨.byte, imm, .index r x, rfl⟩))
  | andiBAbsW imm a => exact .inr (.inr (.inr ⟨.byte, imm, .absW a, rfl⟩))
  | andiBAbsL imm a => exact .inr (.inr (.inr ⟨.byte, imm, .absL a, rfl⟩))
  | andiWInd imm r => exact .inr (.inr (.inr ⟨.word, imm, .ind r, rfl⟩))
  | andiWPostInc imm r => exact .inr (.inr (.inr ⟨.word, imm, .postInc r, rfl⟩))
  | andiWPreDec imm r => exact .inr (.inr (.inr ⟨.word, imm, .preDec r, rfl⟩))
  | andiWDisp imm r d16 => exact .inr (.inr (.inr ⟨.word, imm, .disp r d16, rfl⟩))
  | andiWIndex imm r x => exact .inr (.inr (.inr ⟨.word, imm, .index r x, rfl⟩))
  | andiWAbsW imm a => exact .inr (.inr (.inr ⟨.word, imm, .absW a, rfl⟩))
  | andiWAbsL imm a => exact .inr (.inr (.inr ⟨.word, imm, .absL a, rfl⟩))
  | andiLInd imm r => exact .inr (.inr (.inr ⟨.long, imm, .ind r, rfl⟩))
  | andiLPostInc imm r => exact .inr (.inr (.inr ⟨.long, imm, .postInc r, rfl⟩))
  | andiLPreDec imm r => exact .inr (.inr (.inr ⟨.long, imm, .preDec r, rfl⟩))
  | andiLDisp imm r d16 => exact .inr (.inr (.inr ⟨.long, imm, .disp r d16, rfl⟩))
  | andiLIndex imm r x => exact .inr (.inr (.inr ⟨.long, imm, .index r x, rfl⟩))
  | andiLAbsW imm a => exact .inr (.inr (.inr ⟨.long, imm, .absW a, rfl⟩))
  | andiLAbsL imm a => exact .inr (.inr (.inr ⟨.long, imm, .absL a, rfl⟩))

/-- The state after a memory form whose operand was `old`. -/
def memoryResult (sz : Size) (imm old : BitVec sz.bits) (m : MemEa) (s : State) : State :=
  updateAfter sz
    (storeBytes sz (dataFlags (updateBefore sz s m) (old &&& imm)) (effectiveAddress sz s m) (old &&& imm)) m

/-- The memory procedure answers exactly when its operand can be read, and then with `memoryResult` (R130, R136). -/
theorem andiMemory_eq_next {sz : Size} {imm : BitVec sz.bits} {m : MemEa} {s t : State}
    (h : andiMemory sz imm m s = .next t) :
    ∃ old, holds s (eaRegisters s m) = true ∧ aligned sz (effectiveAddress sz s m) = true ∧
      admitsAll .data sz s.cfg (effectiveAddress sz s m) = true ∧
      loadBytes sz s (effectiveAddress sz s m) = .next old ∧ t = memoryResult sz imm old m s := by
  obtain ⟨hh, h⟩ := require_andThen_next h
  obtain ⟨old, hr, h⟩ := andThen_eq_next h
  obtain ⟨s2, hw, h⟩ := andThen_eq_next h
  obtain ⟨h1, h2, hl⟩ := memRead_eq_next hr
  obtain ⟨_, _, rfl⟩ := memWrite_eq_next hw
  rw [updateBefore_cfg] at h2
  rw [loadBytes_congr_mem (updateBefore_mem ..) (updateBefore_cfg ..)] at hl
  cases h
  exact ⟨old, hh, h1, h2, hl, rfl⟩

theorem andiMemory_of_read {sz : Size} {imm old : BitVec sz.bits} {m : MemEa} {s : State}
    (hh : holds s (eaRegisters s m) = true)
    (h1 : aligned sz (effectiveAddress sz s m) = true) (h2 : admitsAll .data sz s.cfg (effectiveAddress sz s m) = true)
    (hl : loadBytes sz s (effectiveAddress sz s m) = .next old) :
    andiMemory sz imm m s = .next (memoryResult sz imm old m s) := by
  have hr : memRead .data sz (updateBefore sz s m) (effectiveAddress sz s m) = .next old := by
    rw [memRead_of_ok h1 (by rw [updateBefore_cfg]; exact h2),
      loadBytes_congr_mem (updateBefore_mem ..) (updateBefore_cfg ..), hl]
  simp only [andiMemory, require_andThen _ hh, hr, andThen_next]
  rw [memWrite_of_ok _ h1 (by rw [dataFlags_cfg, updateBefore_cfg]; exact h2)]
  rfl

section memoryResult
variable (sz : Size) (imm old : BitVec sz.bits) (m : MemEa) (s : State)
@[simp] theorem memoryResult_cfg : (memoryResult sz imm old m s).cfg = s.cfg := by simp [memoryResult]
@[simp] theorem memoryResult_d : (memoryResult sz imm old m s).d = s.d := by simp [memoryResult]
@[simp] theorem memoryResult_pc : (memoryResult sz imm old m s).pc = s.pc := by simp [memoryResult]
@[simp] theorem memoryResult_vbr : (memoryResult sz imm old m s).vbr = s.vbr := by simp [memoryResult]
theorem memoryResult_mem : (memoryResult sz imm old m s).mem =
    (storeBytes sz s (effectiveAddress sz s m) (old &&& imm)).mem := by simp [memoryResult, storeBytes]
theorem readSr_memoryResult : readSr (memoryResult sz imm old m s) = readSr (dataFlags s (old &&& imm)) := by
  simp only [memoryResult, readSr_updateAfter, readSr_storeBytes, readSr_dataFlags, systemByte, readCcr, readSr_updateBefore]

/-- Bytes after a memory form are those of the store. -/
theorem byteAt_memoryResult (x : Long) : byteAt (memoryResult sz imm old m s) x =
    byteAt (storeBytes sz s (effectiveAddress sz s m) (old &&& imm)) x :=
  byteAt_congr (memoryResult_mem ..) (by simp) x
end memoryResult

/-- ANDI to `Dr` answers exactly when the register holds a value (R37). -/
theorem exec_register_of_holds {sz : Size} {imm : BitVec sz.bits} {r : Fin 8} {s : State} (h : holds s [.d r] = true) :
    exec (Instr.andi sz imm (.dr r)) s = .next (advancePc (registerResult sz imm r s) (eaLength sz (.dr r))) := by
  rw [exec_andi]
  simp only [andiEa, andiRegister, require_andThen _ h, andThen_next]

/-- What `exec` can answer, said once. -/
theorem exec_cases {i : Instr} {s t : State} (h : exec i s = .next t) :
    (∃ imm, i = .andiBCcr imm ∧ holds s [.flags] = true ∧ t = advancePc (writeCcr s (readCcr s &&& imm)) 4) ∨
    (∃ imm, i = .andiWSr imm ∧ supervisor s = true ∧ holds s [.flags] = true ∧
      t = advancePc (writeSr s (readSr s &&& imm)) 4) ∨
    (∃ imm, i = .andiWSr imm ∧ supervisor s = false ∧ takePrivilegeViolation s = .next t) ∨
    (∃ (sz : Size) (imm : BitVec sz.bits) (r : Fin 8), i = Instr.andi sz imm (.dr r) ∧ holds s [.d r] = true ∧
      t = advancePc (registerResult sz imm r s) (eaLength sz (.dr r))) ∨
    (∃ (sz : Size) (imm old : BitVec sz.bits) (m : MemEa), i = Instr.andi sz imm (.mem m) ∧
      holds s (eaRegisters s m) = true ∧ aligned sz (effectiveAddress sz s m) = true ∧
      admitsAll .data sz s.cfg (effectiveAddress sz s m) = true ∧
      loadBytes sz s (effectiveAddress sz s m) = .next old ∧
      t = advancePc (memoryResult sz imm old m s) (eaLength sz (.mem m))) := by
  rcases instr_cases i with ⟨imm, rfl⟩ | ⟨imm, rfl⟩ | ⟨sz, imm, r, rfl⟩ | ⟨sz, imm, m, rfl⟩
  · obtain ⟨hh, h⟩ := require_andThen_next h
    cases h
    exact .inl ⟨imm, rfl, hh, rfl⟩
  · change execAndiWSr imm s = .next t at h
    unfold execAndiWSr at h
    split at h
    · rename_i hs
      obtain ⟨hh, h⟩ := require_andThen_next h
      cases h
      exact .inr (.inl ⟨imm, rfl, hs, hh, rfl⟩)
    · rename_i hs
      exact .inr (.inr (.inl ⟨imm, rfl, by simpa using hs, h⟩))
  · rw [exec_andi] at h
    obtain ⟨u, hu, h⟩ := andThen_eq_next h
    obtain ⟨hh, hu⟩ := require_andThen_next hu
    cases hu
    cases h
    exact .inr (.inr (.inr (.inl ⟨sz, imm, r, rfl, hh, rfl⟩)))
  · rw [exec_andi] at h
    obtain ⟨u, hu, h⟩ := andThen_eq_next h
    obtain ⟨old, hh, h1, h2, hl, rfl⟩ := andiMemory_eq_next hu
    cases h
    exact .inr (.inr (.inr (.inr ⟨sz, imm, old, m, rfl, hh, h1, h2, hl, rfl⟩)))

/-! ### Registers after each shape of instruction -/

@[simp] theorem supervisor_memoryResult (sz : Size) (imm old : BitVec sz.bits) (m : MemEa) (s : State) :
    supervisor (memoryResult sz imm old m s) = supervisor s := by
  unfold supervisor
  simp only [readSr_memoryResult]
  exact supervisor_dataFlags s _

theorem readA_congr {s t : State} (ha : t.a = s.a) (hu : t.usp = s.usp) (hp : t.ssp = s.ssp)
    (hs : supervisor t = supervisor s) (q : Fin 8) : readA t q = readA s q := by
  unfold readA
  rw [hs, hu, hp]
  split <;> simp [ha]

theorem addressReg_congr {s t : State} (hs : supervisor t = supervisor s) {q : Fin 8} : addressReg t q = addressReg s q := by
  unfold addressReg
  rw [hs]

/-- The address registers after a memory form are those after its two register updates. -/
theorem readA_memoryResult (sz : Size) (imm old : BitVec sz.bits) (m : MemEa) (s : State) (q : Fin 8) :
    readA (memoryResult sz imm old m s) q =
      match m with
      | .postInc r => if q = r then readA s r + increment sz r else readA s q
      | .preDec r => if q = r then readA s r - increment sz r else readA s q
      | .ind _ | .disp _ _ | .index _ _ | .absW _ | .absL _ => readA s q := by
  have base : ∀ (u : State) (a : Long) (v : BitVec sz.bits) (q : Fin 8),
      readA (storeBytes sz (dataFlags u v) a v) q = readA u q := fun u a v q =>
    readA_congr (s := u) (t := storeBytes sz (dataFlags u v) a v) rfl rfl rfl (supervisor_dataFlags u v) q
  cases m with
  | postInc r =>
    by_cases h : q = r
    · subst h
      simp [memoryResult, updateAfter, updateBefore, base]
    · simp [memoryResult, updateAfter, updateBefore, base, h, readA_writeA_other]
  | preDec r =>
    by_cases h : q = r
    · subst h
      simp [memoryResult, updateAfter, updateBefore, base]
    · simp [memoryResult, updateAfter, updateBefore, base, h, readA_writeA_other]
  | ind r => simp [memoryResult, updateAfter, updateBefore, base]
  | disp r d => simp [memoryResult, updateAfter, updateBefore, base]
  | index r x => simp [memoryResult, updateAfter, updateBefore, base]
  | absW a => simp [memoryResult, updateAfter, updateBefore, base]
  | absL a => simp [memoryResult, updateAfter, updateBefore, base]

/-- The stack pointer that A7 does not name keeps its value under a register update (R24). -/
theorem updateBefore_inactive (sz : Size) (s : State) (m : MemEa) :
    (supervisor s = true → (updateBefore sz s m).usp = s.usp) ∧ (supervisor s = false → (updateBefore sz s m).ssp = s.ssp) := by
  cases m <;>
    exact ⟨fun h => by first | rfl | exact writeA_usp_of_supervisor _ _ _ h,
      fun h => by first | rfl | exact writeA_ssp_of_user _ _ _ h⟩

theorem updateAfter_inactive (sz : Size) (s : State) (m : MemEa) :
    (supervisor s = true → (updateAfter sz s m).usp = s.usp) ∧ (supervisor s = false → (updateAfter sz s m).ssp = s.ssp) := by
  cases m <;>
    exact ⟨fun h => by first | rfl | exact writeA_usp_of_supervisor _ _ _ h,
      fun h => by first | rfl | exact writeA_ssp_of_user _ _ _ h⟩

/-- The stack pointer that A7 does not name keeps its value under a memory form (R24). -/
theorem memoryResult_inactive (sz : Size) (imm old : BitVec sz.bits) (m : MemEa) (s : State) :
    (supervisor s = true → (memoryResult sz imm old m s).usp = s.usp) ∧
    (supervisor s = false → (memoryResult sz imm old m s).ssp = s.ssp) := by
  have hs : supervisor (storeBytes sz (dataFlags (updateBefore sz s m) (old &&& imm)) (effectiveAddress sz s m)
      (old &&& imm)) = supervisor s := by
    refine (supervisor_dataFlags (updateBefore sz s m) (old &&& imm)).trans ?_
    simp [supervisor]
  refine ⟨fun h => ?_, fun h => ?_⟩
  · exact ((updateAfter_inactive ..).1 (hs.trans h)).trans ((updateBefore_inactive ..).1 h)
  · exact ((updateAfter_inactive ..).2 (hs.trans h)).trans ((updateBefore_inactive ..).2 h)

/-- A memory form with neither `(Ar)+` nor `-(Ar)` leaves the address registers. -/
theorem memoryResult_registers {sz : Size} {imm old : BitVec sz.bits} {m : MemEa} {s : State}
    (h1 : ∀ r, m ≠ .postInc r) (h2 : ∀ r, m ≠ .preDec r) :
    (memoryResult sz imm old m s).a = s.a ∧ (memoryResult sz imm old m s).usp = s.usp ∧
      (memoryResult sz imm old m s).ssp = s.ssp := by
  cases m with
  | postInc r => exact absurd rfl (h1 r)
  | preDec r => exact absurd rfl (h2 r)
  | ind r => exact ⟨rfl, rfl, rfl⟩
  | disp r d => exact ⟨rfl, rfl, rfl⟩
  | index r x => exact ⟨rfl, rfl, rfl⟩
  | absW a => exact ⟨rfl, rfl, rfl⟩
  | absL a => exact ⟨rfl, rfl, rfl⟩

/-- The data forms leave what holds a value, but for the four flags they write (R134, R37). -/
theorem registerResult_noValue {sz : Size} {imm : BitVec sz.bits} {r : Fin 8} {s : State} (h : holds s [.d r] = true) :
    (registerResult sz imm r s).noValue = { s.noValue with n := false, z := false, v := false, c := false } :=
  writeD_noValue (s := dataFlags s _) ((lacks_dataFlags _ _ (by simp)).trans (by simpa [holds] using h))

theorem memoryResult_noValue {sz : Size} {imm old : BitVec sz.bits} {m : MemEa} {s : State}
    (h : holds s (eaRegisters s m) = true) :
    (memoryResult sz imm old m s).noValue = { s.noValue with n := false, z := false, v := false, c := false } := by
  cases m with
  | postInc r =>
    have hr : s.noValue.lacks (addressReg s r) = false := by simpa [eaRegisters, holds] using h
    have hs : supervisor (storeBytes sz (dataFlags s (old &&& imm)) (readA s r) (old &&& imm)) = supervisor s :=
      supervisor_dataFlags s _
    refine (writeA_noValue ?_).trans rfl
    exact (congrArg _ (addressReg_congr hs)).trans ((lacks_dataFlags s (old &&& imm) (addressReg_ne_flags s r)).trans hr)
  | preDec r =>
    have hr : s.noValue.lacks (addressReg s r) = false := by simpa [eaRegisters, holds] using h
    show ({ (writeA s r _).noValue with n := false, z := false, v := false, c := false } : NoValue) = _
    rw [writeA_noValue hr]
  | ind r => rfl
  | disp r d => rfl
  | index r x => rfl
  | absW a => rfl
  | absL a => rfl

/-! ### Equations of the meanings -/

/-- The memory procedure as a check of values, one read and one result (R136, R37). -/
theorem andiMemory_eq (sz : Size) (imm : BitVec sz.bits) (m : MemEa) (s : State) :
    andiMemory sz imm m s =
      andThen (require (eaRegisters s m) s) fun _ =>
      andThen (memRead .data sz s (effectiveAddress sz s m)) fun old => .next (memoryResult sz imm old m s) := by
  have hu : memRead .data sz (updateBefore sz s m) (effectiveAddress sz s m) = memRead .data sz s (effectiveAddress sz s m) :=
    memRead_congr (updateBefore_mem ..) (updateBefore_cfg ..)
  cases hh : holds s (eaRegisters s m) with
  | false =>
    obtain ⟨r, _, _, e⟩ := require_of_not_holds hh
    simp only [andiMemory, e, andThen_refused]
  | true =>
  rw [require_andThen _ hh]
  cases h : memRead .data sz s (effectiveAddress sz s m) with
  | next old =>
    obtain ⟨h1, h2, hl⟩ := memRead_eq_next h
    rw [andiMemory_of_read hh h1 h2 hl]
    rfl
  | fault e => simp only [andiMemory, require_andThen _ hh, hu, h, andThen_fault]
  | refused e => simp only [andiMemory, require_andThen _ hh, hu, h, andThen_refused]

/-- A memory form as a check of values, one read and one result. -/
theorem exec_memory (sz : Size) (imm : BitVec sz.bits) (m : MemEa) (s : State) :
    exec (Instr.andi sz imm (.mem m)) s =
      andThen (require (eaRegisters s m) s) fun _ =>
      andThen (memRead .data sz s (effectiveAddress sz s m)) fun old =>
        .next (advancePc (memoryResult sz imm old m s) (eaLength sz (.mem m))) := by
  rw [exec_andi]
  show andThen (andiMemory sz imm m s) _ = _
  rw [andiMemory_eq]
  cases require (eaRegisters s m) s with
  | next u => cases h : memRead .data sz s (effectiveAddress sz s m) <;> simp only [andThen_next] <;> rfl
  | fault e => rfl
  | refused e => rfl

theorem exec_andiBCcr_of_holds {imm : Byte} {s : State} (h : holds s [.flags] = true) :
    exec (.andiBCcr imm) s = .next (advancePc (writeCcr s (readCcr s &&& imm)) 4) :=
  require_andThen _ h

theorem exec_andiWSr_of_supervisor {imm : Word} {s : State} (h : supervisor s = true) (hf : holds s [.flags] = true) :
    exec (.andiWSr imm) s = .next (advancePc (writeSr s (readSr s &&& imm)) 4) := by
  show execAndiWSr imm s = _
  unfold execAndiWSr
  rw [if_pos h]
  exact require_andThen _ hf

theorem exec_andiWSr_of_user {imm : Word} {s : State} (h : supervisor s = false) :
    exec (.andiWSr imm) s = takePrivilegeViolation s := by
  show execAndiWSr imm s = _
  unfold execAndiWSr
  rw [h]
  rfl

/-- No form but ANDI to SR changes SR[15:8] (R197). -/
theorem exec_systemByte {i : Instr} {s t : State} (h : exec i s = .next t) (hn : ∀ imm, i ≠ .andiWSr imm) :
    systemByte t = systemByte s := by
  rcases exec_cases h with ⟨imm, _, _, rfl⟩ | ⟨imm, rfl, _⟩ | ⟨imm, rfl, _⟩ | ⟨sz, imm, r, _, _, rfl⟩ |
    ⟨sz, imm, old, m, _, _, _, _, _, rfl⟩
  · exact systemByte_writeCcr ..
  · exact absurd rfl (hn imm)
  · exact absurd rfl (hn imm)
  · exact systemByte_dataFlags ..
  · unfold systemByte
    rw [readSr_advancePc, readSr_memoryResult]
    exact systemByte_dataFlags ..

/-! ### Partial register writes (R135) -/

theorem getLsbD_putLowPart (sz : Size) (old : Long) (v : BitVec sz.bits) {i : Nat} (h : i < 32) :
    (putLowPart sz old v).getLsbD i = if i < sz.bits then v.getLsbD i else old.getLsbD i := by
  cases sz
  · simp only [putLowPart]
    rw [BitVec.getLsbD_append]
    by_cases hi : i < 8
    · simp [hi]
    · simp [hi, show i - 8 < 24 by omega, show 8 + (i - 8) = i by omega]
  · simp only [putLowPart]
    rw [BitVec.getLsbD_append]
    by_cases hi : i < 16
    · simp [hi]
    · simp [hi, show i - 16 < 16 by omega, show 16 + (i - 16) = i by omega]
  · simp [putLowPart, h]

@[simp] theorem lowPart_putLowPart (sz : Size) (old : Long) (v : BitVec sz.bits) : lowPart sz (putLowPart sz old v) = v := by
  apply BitVec.eq_of_getLsbD_eq
  intro i hi
  have : i < 32 := by cases sz <;> simp [Size.bits] at hi <;> omega
  rw [lowPart, BitVec.getLsbD_setWidth, getLsbD_putLowPart _ _ _ this]
  simp [hi]

@[simp] theorem putLowPart_putLowPart (sz : Size) (old : Long) (v w : BitVec sz.bits) :
    putLowPart sz (putLowPart sz old v) w = putLowPart sz old w := by
  apply BitVec.eq_of_getLsbD_eq
  intro i hi
  rw [getLsbD_putLowPart _ _ _ hi, getLsbD_putLowPart _ _ _ hi, getLsbD_putLowPart _ _ _ hi]
  split <;> rfl

@[simp] theorem putLowPart_lowPart (sz : Size) (old : Long) : putLowPart sz old (lowPart sz old) = old := by
  apply BitVec.eq_of_getLsbD_eq
  intro i hi
  rw [getLsbD_putLowPart _ _ _ hi]
  split
  · rename_i h
    rw [lowPart, BitVec.getLsbD_setWidth]
    simp [h]
  · rfl

end Sys2Proof.Machine
end

