-- ==== Sys2Proof/Laws/PerInstr.lean ====
section
/-! SUPPORT. A property of each instruction as syntax: its length, and that its operation word tells it. -/

namespace Sys2Proof.Laws.EncodedLength

/-- The length is between 4 and 10 bytes (R90), and the operation word of the encoding alone tells it (R95). -/
def Statement (i : Instr) : Prop :=
  4 ≤ i.length ∧ i.length ≤ 10 ∧ ∃ w ws op, encode i = w :: ws ∧ decodeOp w = .ok op ∧ opLength op = i.length

theorem andiBCcr (imm : Byte) : Statement (.andiBCcr imm) :=
  ⟨Nat.le_of_ble_eq_true rfl, Nat.le_of_ble_eq_true rfl, _, _, _, rfl, rfl, rfl⟩

theorem andiWSr (imm : Word) : Statement (.andiWSr imm) :=
  ⟨Nat.le_of_ble_eq_true rfl, Nat.le_of_ble_eq_true rfl, _, _, _, rfl, rfl, rfl⟩

theorem andiBDr (imm : Byte) (r : Fin 8) : Statement (.andiBDr imm r) :=
  ⟨Nat.le_of_ble_eq_true rfl, Nat.le_of_ble_eq_true rfl, _, _, _, rfl, decodeOp_eaOperationWord _ _, rfl⟩

theorem andiBInd (imm : Byte) (r : Fin 8) : Statement (.andiBInd imm r) :=
  ⟨Nat.le_of_ble_eq_true rfl, Nat.le_of_ble_eq_true rfl, _, _, _, rfl, decodeOp_eaOperationWord _ _, rfl⟩

theorem andiBPostInc (imm : Byte) (r : Fin 8) : Statement (.andiBPostInc imm r) :=
  ⟨Nat.le_of_ble_eq_true rfl, Nat.le_of_ble_eq_true rfl, _, _, _, rfl, decodeOp_eaOperationWord _ _, rfl⟩

theorem andiBPreDec (imm : Byte) (r : Fin 8) : Statement (.andiBPreDec imm r) :=
  ⟨Nat.le_of_ble_eq_true rfl, Nat.le_of_ble_eq_true rfl, _, _, _, rfl, decodeOp_eaOperationWord _ _, rfl⟩

theorem andiBDisp (imm : Byte) (r : Fin 8) (d16 : Word) : Statement (.andiBDisp imm r d16) :=
  ⟨Nat.le_of_ble_eq_true rfl, Nat.le_of_ble_eq_true rfl, _, _, _, rfl, decodeOp_eaOperationWord _ _, rfl⟩

theorem andiBIndex (imm : Byte) (r : Fin 8) (x : Brief) : Statement (.andiBIndex imm r x) :=
  ⟨Nat.le_of_ble_eq_true rfl, Nat.le_of_ble_eq_true rfl, _, _, _, rfl, decodeOp_eaOperationWord _ _, rfl⟩

theorem andiBAbsW (imm : Byte) (a : Word) : Statement (.andiBAbsW imm a) :=
  ⟨Nat.le_of_ble_eq_true rfl, Nat.le_of_ble_eq_true rfl, _, _, _, rfl, decodeOp_eaOperationWord _ _, rfl⟩

theorem andiBAbsL (imm : Byte) (a : Long) : Statement (.andiBAbsL imm a) :=
  ⟨Nat.le_of_ble_eq_true rfl, Nat.le_of_ble_eq_true rfl, _, _, _, rfl, decodeOp_eaOperationWord _ _, rfl⟩

theorem andiWDr (imm : Word) (r : Fin 8) : Statement (.andiWDr imm r) :=
  ⟨Nat.le_of_ble_eq_true rfl, Nat.le_of_ble_eq_true rfl, _, _, _, rfl, decodeOp_eaOperationWord _ _, rfl⟩

theorem andiWInd (imm : Word) (r : Fin 8) : Statement (.andiWInd imm r) :=
  ⟨Nat.le_of_ble_eq_true rfl, Nat.le_of_ble_eq_true rfl, _, _, _, rfl, decodeOp_eaOperationWord _ _, rfl⟩

theorem andiWPostInc (imm : Word) (r : Fin 8) : Statement (.andiWPostInc imm r) :=
  ⟨Nat.le_of_ble_eq_true rfl, Nat.le_of_ble_eq_true rfl, _, _, _, rfl, decodeOp_eaOperationWord _ _, rfl⟩

theorem andiWPreDec (imm : Word) (r : Fin 8) : Statement (.andiWPreDec imm r) :=
  ⟨Nat.le_of_ble_eq_true rfl, Nat.le_of_ble_eq_true rfl, _, _, _, rfl, decodeOp_eaOperationWord _ _, rfl⟩

theorem andiWDisp (imm : Word) (r : Fin 8) (d16 : Word) : Statement (.andiWDisp imm r d16) :=
  ⟨Nat.le_of_ble_eq_true rfl, Nat.le_of_ble_eq_true rfl, _, _, _, rfl, decodeOp_eaOperationWord _ _, rfl⟩

theorem andiWIndex (imm : Word) (r : Fin 8) (x : Brief) : Statement (.andiWIndex imm r x) :=
  ⟨Nat.le_of_ble_eq_true rfl, Nat.le_of_ble_eq_true rfl, _, _, _, rfl, decodeOp_eaOperationWord _ _, rfl⟩

theorem andiWAbsW (imm : Word) (a : Word) : Statement (.andiWAbsW imm a) :=
  ⟨Nat.le_of_ble_eq_true rfl, Nat.le_of_ble_eq_true rfl, _, _, _, rfl, decodeOp_eaOperationWord _ _, rfl⟩

theorem andiWAbsL (imm : Word) (a : Long) : Statement (.andiWAbsL imm a) :=
  ⟨Nat.le_of_ble_eq_true rfl, Nat.le_of_ble_eq_true rfl, _, _, _, rfl, decodeOp_eaOperationWord _ _, rfl⟩

theorem andiLDr (imm : Long) (r : Fin 8) : Statement (.andiLDr imm r) :=
  ⟨Nat.le_of_ble_eq_true rfl, Nat.le_of_ble_eq_true rfl, _, _, _, rfl, decodeOp_eaOperationWord _ _, rfl⟩

theorem andiLInd (imm : Long) (r : Fin 8) : Statement (.andiLInd imm r) :=
  ⟨Nat.le_of_ble_eq_true rfl, Nat.le_of_ble_eq_true rfl, _, _, _, rfl, decodeOp_eaOperationWord _ _, rfl⟩

theorem andiLPostInc (imm : Long) (r : Fin 8) : Statement (.andiLPostInc imm r) :=
  ⟨Nat.le_of_ble_eq_true rfl, Nat.le_of_ble_eq_true rfl, _, _, _, rfl, decodeOp_eaOperationWord _ _, rfl⟩

theorem andiLPreDec (imm : Long) (r : Fin 8) : Statement (.andiLPreDec imm r) :=
  ⟨Nat.le_of_ble_eq_true rfl, Nat.le_of_ble_eq_true rfl, _, _, _, rfl, decodeOp_eaOperationWord _ _, rfl⟩

theorem andiLDisp (imm : Long) (r : Fin 8) (d16 : Word) : Statement (.andiLDisp imm r d16) :=
  ⟨Nat.le_of_ble_eq_true rfl, Nat.le_of_ble_eq_true rfl, _, _, _, rfl, decodeOp_eaOperationWord _ _, rfl⟩

theorem andiLIndex (imm : Long) (r : Fin 8) (x : Brief) : Statement (.andiLIndex imm r x) :=
  ⟨Nat.le_of_ble_eq_true rfl, Nat.le_of_ble_eq_true rfl, _, _, _, rfl, decodeOp_eaOperationWord _ _, rfl⟩

theorem andiLAbsW (imm : Long) (a : Word) : Statement (.andiLAbsW imm a) :=
  ⟨Nat.le_of_ble_eq_true rfl, Nat.le_of_ble_eq_true rfl, _, _, _, rfl, decodeOp_eaOperationWord _ _, rfl⟩

theorem andiLAbsL (imm : Long) (a : Long) : Statement (.andiLAbsL imm a) :=
  ⟨Nat.le_of_ble_eq_true rfl, Nat.le_of_ble_eq_true rfl, _, _, _, rfl, decodeOp_eaOperationWord _ _, rfl⟩

end Sys2Proof.Laws.EncodedLength
end

