-- ==== Sys2Proof/Laws/Step.lean ====
section
/-! SUPPORT. What one step can do, said once. -/

namespace Sys2Proof.Machine

/-- A step that answers ran the instruction the fetch found, or took the privilege violation. -/
theorem step_cases {s t : State} (h : step s = .next t) :
    launchRefusal s = none ∧
    ((∃ i, fetch s = .instr i ∧ exec i s = .next t ∧ traps s = false) ∨
     (fetch s = .privilegeViolation ∧ takePrivilegeViolation s = .next t ∧ traps s = true)) := by
  unfold step at h
  cases hl : launchRefusal s with
  | some e => rw [hl] at h; cases h
  | none =>
    rw [hl] at h
    refine ⟨rfl, ?_⟩
    cases hf : fetch s with
    | instr i => rw [hf] at h; exact .inl ⟨i, rfl, h, by simp [traps, hf]⟩
    | privilegeViolation => rw [hf] at h; exact .inr ⟨rfl, h, by simp [traps, hf]⟩
    | fault e => rw [hf] at h; cases h
    | refused e => rw [hf] at h; cases h

/-- Decoding a longer list of words changes nothing that was decided (R95). -/
theorem decodeOp_of_decodeWords {w0 : Word} {ws rest : List Word} {i : Instr} (h : decodeWords (w0 :: ws) = .done i rest) :
    ∃ op, decodeOp w0 = .ok op ∧ decodeOperands op ws = .done i rest := by
  simp only [decodeWords] at h
  cases ho : decodeOp w0 with
  | error e => rw [ho] at h; cases h
  | ok op => rw [ho] at h; exact ⟨op, rfl, h⟩

/-! ### The fetch -/

theorem step_of_fetch {s : State} (h : launchRefusal s = none) :
    step s =
      match fetch s with
      | .instr i => exec i s
      | .privilegeViolation => takePrivilegeViolation s
      | .fault e => .fault e
      | .refused e => .refused e := by
  cases hf : fetch s <;> simp only [step, h, hf]

/-- An operation word that spells an ANDI is never a whole instruction (R90). -/
theorem decodeWords_operationWord {w0 : Word} {op : Op} (h : decodeOp w0 = .ok op) : decodeWords [w0] = .incomplete := by
  simp only [decodeWords, h]
  cases op with
  | ccr => rfl
  | sr => rfl
  | ea sz m => cases sz <;> rfl

/-- One more word of an instruction that is not all there yet. -/
theorem fetchRest_word {s : State} {n : Nat} {ws : List Word} {w : Word} (hd : decodeWords ws = .incomplete)
    (hp : s.pc.toNat + 2 * ws.length < 2 ^ 32)
    (hr : memRead .fetch .word s (s.pc + BitVec.ofNat 32 (2 * ws.length)) = .next w) :
    fetchRest s (n + 1) ws = fetchRest s n (ws ++ [w]) := by
  unfold fetchRest
  rw [hd]
  simp only
  rw [if_neg (by omega)]
  unfold fetchWord
  rw [hr]
  cases n <;> rfl

theorem fetchRest_eq_instr {s : State} {n : Nat} {w0 : Word} {ws : List Word} {i : Instr}
    (h : fetchRest s n (w0 :: ws) = .instr i) : ∃ ws' rest, decodeWords (w0 :: ws') = .done i rest := by
  induction n generalizing ws with
  | zero => cases h
  | succ n ih =>
    unfold fetchRest at h
    cases hd : decodeWords (w0 :: ws) with
    | done j rest => rw [hd] at h; cases h; exact ⟨ws, rest, hd⟩
    | error e => rw [hd] at h; cases h
    | incomplete =>
      rw [hd] at h
      dsimp only at h
      split at h
      · cases h
      · split at h
        · exact ih h
        · cases h
        · cases h

theorem fetchRest_ne_privilegeViolation (s : State) (n : Nat) (ws : List Word) : fetchRest s n ws ≠ .privilegeViolation := by
  induction n generalizing ws with
  | zero => simp [fetchRest]
  | succ n ih =>
    unfold fetchRest
    split
    · simp
    · simp
    · split
      · simp
      · split
        · exact ih _
        · simp
        · simp

/-! ### The end of a sequence -/

/-- From an instruction of the sequence to the next one. -/
theorem sequenceEnds_next {s : State} {e a : Long} {n : Nat} {w0 : Word} {op : Op} (h : sequenceEnds s e (n + 1) a = true) (ha : a ≠ e)
    (hw : loadBytes .word s a = .next w0) (ho : decodeOp w0 = .ok op) :
    opLength op ≤ (e - a).toNat ∧ sequenceEnds s e n (a + BitVec.ofNat 32 (opLength op)) = true := by
  unfold sequenceEnds at h
  simpa only [if_neg ha, hw, ho, Bool.and_eq_true, decide_eq_true_eq] using h

/-! ### What the fetch answers -/

/-- A fetched instruction is what words that begin at `pc` decode to, and it passed the privilege check (R190). -/
theorem fetch_eq_instr {s : State} {i : Instr} (h : fetch s = .instr i) :
    ∃ w0 ws rest, memRead .fetch .word s s.pc = .next w0 ∧ decodeWords (w0 :: ws) = .done i rest ∧
      violatesPrivilege s w0 = false := by
  unfold fetch fetchWord at h
  split at h
  · cases h
  · cases h
  · rename_i w0 hw
    split at h
    · cases h
    · rename_i hv
      obtain ⟨ws, rest, hd⟩ := fetchRest_eq_instr h
      exact ⟨w0, ws, rest, hw, hd, by simpa using hv⟩

/-- The fetch answers with the privilege violation in user mode only, on the operation word of ANDI to SR (R114). -/
theorem fetch_eq_privilegeViolation {s : State} (h : fetch s = .privilegeViolation) :
    memRead .fetch .word s s.pc = .next 0x027C ∧ supervisor s = false := by
  unfold fetch fetchWord at h
  split at h
  · cases h
  · cases h
  · rename_i w0 hw
    split at h
    · rename_i hv
      simp only [violatesPrivilege, Bool.and_eq_true, decide_eq_true_eq, Bool.not_eq_true'] at hv
      obtain ⟨rfl, hs⟩ := hv
      exact ⟨hw, hs⟩
    · exact absurd h (fetchRest_ne_privilegeViolation _ _ _)

end Sys2Proof.Machine
end

