-- ==== Sys2Proof/Tests/Slice0.lean ====
section
/-! SUPPORT. Tests. Expected values come from spec/95_test_vectors.md and 42_addressing_modes.md section 3 (named V, M, C, T, P there) or, where
marked "by hand", from the rules named; none from the model. At the end, for each obligation with hypotheses, a witness. -/

namespace Sys2Proof.Tests
open Sys2Proof.Machine

/-! ### Helpers -/

/-- The value of an outcome, if it is a next state. -/
def got {α β γ : Type} : Host.Outcome α β γ → Option α
  | .next a => some a
  | .fault _ => none
  | .refused _ => none

/-- Why an outcome is a stop. -/
def stop {α : Type} : Res α → Option (Fault ⊕ Refusal)
  | .next _ => none
  | .fault e => some (.inl e)
  | .refused e => some (.inr e)

theorem next_of_got {α : Type} {x : Res α} {a : α} (h : got x = some a) : x = .next a := by
  cases x with
  | next b => cases h; rfl
  | fault e => cases h
  | refused e => cases h

/-- An outcome whose value passes a check is a next state that passes it. -/
theorem next_with {x : Res State} {p : State → Bool} (h : (got x).any p = true) : ∃ t, x = .next t ∧ p t = true := by
  cases x with
  | next t => exact ⟨t, rfl, h⟩
  | fault e => cases h
  | refused e => cases h

/-- The vectors' setting: `code` from 0x1000, `data` where they name data, 24 address bits, `pc` = 0x1000, SR = 0x2000. -/
def base : State :=
  { State.reset with
    cfg := { State.reset.cfg with memMap := { State.reset.cfg.memMap with
      code := [⟨0x1000, 0x100⟩, ⟨0xFFFFF0, 12⟩]
      data := [⟨0x2000, 0x6000⟩, ⟨0x12344, 4⟩, ⟨0x26002, 1⟩, ⟨0xFF8000, 2⟩, ⟨0xFFFFFC, 4⟩] } }
    pc := 0x1000
    sr := 0x2000 }

/-- Bytes at an address. -/
def poke (a : Long) (bs : List Byte) (s : State) : State :=
  { s with mem := Memory.writeAll s.mem ((byteAddrs s.cfg a bs.length).zip bs) }

/-- The words of an instruction at `pc`. -/
def code (ws : List Word) (s : State) : State := poke s.pc (bytesOfWords ws) s

/-- The bytes at an address. -/
def peek (s : State) (a : Long) (n : Nat) : List (Option Byte) := (List.range n).map fun k => byteAt s (a + BitVec.ofNat 32 k)

/-- What a register vector shows: the register, SR, pc. -/
def seeD (r : Fin 8) (s : State) : Option (Long × Word × Long) := (got (step s)).map fun t => (readD t r, readSr t, t.pc)

/-- What a memory vector shows: the bytes at `a`, one address register, SR, pc. -/
def seeM (a : Long) (n : Nat) (r : Fin 8) (s : State) : Option (List (Option Byte) × Long × Word × Long) :=
  (got (step s)).map fun t => (peek t a n, readA t r, readSr t, t.pc)

/-- What a status vector shows: SR, pc. -/
def seeS (s : State) : Option (Word × Long) := (got (step s)).map fun t => (readSr t, t.pc)

/-! ### Well-formedness -/

theorem test_index_form_refused_on_68020 :
    wellFormed .mc68020 (.andiBIndex 0 0 ⟨.d 0, .word, 0⟩) = false ∧ wellFormed .mc68030 (.andiWIndex 0 0 ⟨.d 0, .word, 0⟩) = false ∧
    wellFormed .mc68060 (.andiLIndex 0 0 ⟨.d 0, .word, 0⟩) = false ∧ wellFormed .mc68010 (.andiLIndex 0 0 ⟨.d 0, .word, 0⟩) = true := by decide
theorem test_overlapping_map_refused :
    MemMap.wf ⟨[⟨0x1000, 2⟩], [⟨0x1001, 4⟩], []⟩ = false ∧ MemMap.wf ⟨[⟨0x1000, 2⟩], [⟨0x1002, 4⟩], []⟩ = true := by decide
theorem test_config_refused :
    Config.wf { base.cfg with cpu := .mc68020 } = false ∧ Config.wf { base.cfg with addrBits := 2 } = false ∧
    Config.wf { base.cfg with addrBits := 33 } = false ∧
    Config.wf { base.cfg with memMap := ⟨[⟨0, 2⟩], [⟨0, 2⟩], []⟩ } = false ∧ Config.wf { base.cfg with addrBits := 32 } = true := by decide
theorem test_memory_not_canonical : Memory.wf [(2, 0), (1, 0)] = false ∧ Memory.wf [(1, 0), (1, 0)] = false := by decide

/-! ### Decoding: a word of every constructor, from R81 to R89 and R156 -/

theorem test_decode_status :
    decodeWords [0x023C, 0x001E] = .done (.andiBCcr 0x1E) [] ∧ decodeWords [0x027C, 0xDFFF] = .done (.andiWSr 0xDFFF) [] := by decide
theorem test_decode_byte :
    decodeWords [0x0207, 0x0080] = .done (.andiBDr 0x80 7) [] ∧
    decodeWords [0x0210, 0x00F0] = .done (.andiBInd 0xF0 0) [] ∧
    decodeWords [0x021F, 0x007F] = .done (.andiBPostInc 0x7F 7) [] ∧
    decodeWords [0x0227, 0x0001] = .done (.andiBPreDec 0x01 7) [] ∧
    decodeWords [0x0228, 0x000F, 0x7FFF] = .done (.andiBDisp 0x0F 0 0x7FFF) [] ∧
    decodeWords [0x0234, 0x000F, 0x1804] = .done (.andiBIndex 0x0F 4 ⟨.d 1, .long, 4⟩) [] ∧
    decodeWords [0x0238, 0x0000, 0x3002] = .done (.andiBAbsW 0x00 0x3002) [] ∧
    decodeWords [0x0239, 0x0001, 0x0001, 0x2345] = .done (.andiBAbsL 0x01 0x00012345) [] := by decide
theorem test_decode_word :
    decodeWords [0x0241, 0xFF00] = .done (.andiWDr 0xFF00 1) [] ∧
    decodeWords [0x0250, 0x0001] = .done (.andiWInd 0x0001 0) [] ∧
    decodeWords [0x0259, 0x0FF0] = .done (.andiWPostInc 0x0FF0 1) [] ∧
    decodeWords [0x0266, 0x8001] = .done (.andiWPreDec 0x8001 6) [] ∧
    decodeWords [0x026B, 0x00FF, 0xFFFE] = .done (.andiWDisp 0x00FF 3 0xFFFE) [] ∧
    decodeWords [0x0271, 0xFF00, 0xF002] = .done (.andiWIndex 0xFF00 1 ⟨.a 7, .word, 2⟩) [] ∧
    decodeWords [0x0278, 0xF00F, 0x8000] = .done (.andiWAbsW 0xF00F 0x8000) [] ∧
    decodeWords [0x0279, 0xF0F0, 0x0001, 0x2346] = .done (.andiWAbsL 0xF0F0 0x00012346) [] := by decide
theorem test_decode_long :
    decodeWords [0x0284, 0x8000, 0x0000] = .done (.andiLDr 0x80000000 4) [] ∧
    decodeWords [0x0296, 0x0F0F, 0x0F0F] = .done (.andiLInd 0x0F0F0F0F 6) [] ∧
    decodeWords [0x029D, 0x0000, 0xFFFF] = .done (.andiLPostInc 0x0000FFFF 5) [] ∧
    decodeWords [0x02A2, 0xFF00, 0xFF00] = .done (.andiLPreDec 0xFF00FF00 2) [] ∧
    decodeWords [0x02A8, 0x0F0F, 0x0F0F, 0x0003] = .done (.andiLDisp 0x0F0F0F0F 0 3) [] ∧
    decodeWords [0x02B2, 0x0000, 0xFFFF, 0x28FC] = .done (.andiLIndex 0x0000FFFF 2 ⟨.d 2, .long, 0xFC⟩) [] ∧
    decodeWords [0x02B8, 0xFFFF, 0x0000, 0x3000] = .done (.andiLAbsW 0xFFFF0000 0x3000) [] ∧
    decodeWords [0x02B9, 0x0000, 0xFFFF, 0x0001, 0x2344] = .done (.andiLAbsL 0x0000FFFF 0x00012344) [] := by decide
/-- V11, V12, M13, C6. -/
theorem test_decode_refused :
    decodeWords [0x0200, 0x010F] = .error (.byteImmediateHighByte 0x010F) ∧
    decodeWords [0x02C0, 0x0000] = .error (.notAndi .sizeEleven 0x02C0) ∧
    decodeWords [0x0208, 0x0000] = .error (.notAndi .addressRegisterDirect 0x0208) ∧
    decodeWords [0x023A, 0x0000] = .error (.notAndi .modeSevenRegister 0x023A) ∧
    decodeWords [0x02BC, 0x0000, 0x0000] = .error (.notAndi .modeSevenRegister 0x02BC) ∧
    decodeWords [0x0234, 0x000F, 0x1204] = .error (.briefExtensionBits 0x1204) ∧
    decodeWords [0x023C, 0x011F] = .error (.byteImmediateHighByte 0x011F) := by decide
/-- P1: the program's bytes in memory order decode one after another. -/
theorem test_decode_bytes :
    decode [0x02, 0x00, 0x00, 0x0F, 0x02, 0x41, 0xFF, 0x00, 0x02, 0x82, 0xFF, 0xFF, 0x00, 0x00] =
      .done (.andiBDr 0x0F 0) [0x0241, 0xFF00, 0x0282, 0xFFFF, 0x0000] := by decide
theorem test_assembler :
    Instr.asm (.andiBIndex 0x0F 4 ⟨.a 5, .long, 0xFF⟩) = "ANDI.B #$0F,(-1,A4,A5.L)" ∧
    Instr.asm (.andiLAbsL 0x0000FFFF 0x00012344) = "ANDI.L #$0000FFFF,($00012344).L" ∧
    Instr.asm (.andiBPreDec 0x01 7) = "ANDI.B #$01,-(A7)" ∧ Instr.asm (.andiWSr 0xDFFF) = "ANDI.W #$DFFF,SR" := by decide
/-- The host's numbering of a row's bits: the first word is the low one. -/
theorem test_table_word :
    decodeTableWord 32 0x001E023C = some (.andiBCcr 0x1E) ∧ decodeTableWord 16 0x02B9 = some (.andiLAbsL 0 0) ∧
    decodeTableWord 32 0x011E023C = none := by decide
theorem test_runs_first_after_reset :
    (got (step (State.reset.withFetchWord 32 0xF8FF027C))).map (fun t => (readSr t, t.pc)) = some (0x2000, 4) := by decide

/-! ### One step: data registers (V1 to V10) -/

theorem test_V1 : seeD 0 (code [0x0200, 0x000F] { base with d := #v[0x12345678, 0, 0, 0, 0, 0, 0, 0], sr := 0x201F }) =
    some (0x12345608, 0x2010, 0x1004) := by decide
theorem test_V3 : seeD 7 (code [0x0207, 0x0000] { base with d := #v[0, 0, 0, 0, 0, 0, 0, 0xFFFFFFFF], sr := 0x201B }) =
    some (0xFFFFFF00, 0x2014, 0x1004) := by decide
theorem test_V5 : seeD 1 (code [0x0241, 0xFF00] { base with d := #v[0, 0xABCD1234, 0, 0, 0, 0, 0, 0], sr := 0x2010 }) =
    some (0xABCD1200, 0x2010, 0x1004) := by decide
theorem test_V6 : seeD 2 (code [0x0242, 0x8000] { base with d := #v[0, 0, 0x0000FFFF, 0, 0, 0, 0, 0] }) =
    some (0x00008000, 0x2008, 0x1004) := by decide
theorem test_V8 : seeD 4 (code [0x0284, 0x8000, 0x0000] { base with d := #v[0, 0, 0, 0, 0xFFFFFFFF, 0, 0, 0] }) =
    some (0x80000000, 0x2008, 0x1006) := by decide
theorem test_V9 : seeD 5 (code [0x0285, 0x0000, 0xFFFF] { base with d := #v[0, 0, 0, 0, 0, 0x12340000, 0, 0], sr := 0x2010 }) =
    some (0, 0x2014, 0x1006) := by decide

/-! ### One step: memory (M1 to M16, P2, and the forms they leave out by hand) -/

theorem test_M1 : seeM 0x2001 1 0 (code [0x0210, 0x00F0] (poke 0x2001 [0xAB] { base with a := #v[0x2001, 0, 0, 0, 0, 0, 0] })) =
    some ([some 0xA0], 0x2001, 0x2008, 0x1004) := by decide
theorem test_M2 : seeM 0x2000 2 1 (code [0x0259, 0x0FF0] (poke 0x2000 [0xFF, 0xFF] { base with a := #v[0, 0x2000, 0, 0, 0, 0, 0] })) =
    some ([some 0x0F, some 0xF0], 0x2002, 0x2000, 0x1004) := by decide
theorem test_M3 : seeM 0x3000 2 7 (code [0x021F, 0x007F] (poke 0x3000 [0x80, 0x55] { base with ssp := 0x3000 })) =
    some ([some 0x00, some 0x55], 0x3002, 0x2004, 0x1004) := by decide
theorem test_M4 : seeM 0x4000 4 2
    (code [0x02A2, 0xFF00, 0xFF00] (poke 0x4000 [0x12, 0x34, 0x56, 0x78] { base with a := #v[0, 0, 0x4004, 0, 0, 0, 0] })) =
    some ([some 0x12, some 0x00, some 0x56, some 0x00], 0x4000, 0x2000, 0x1006) := by decide
theorem test_M5 : seeM 0x3000 2 7 (code [0x0227, 0x0001] (poke 0x3000 [0x03, 0x77] { base with usp := 0x3002, sr := 0 })) =
    some ([some 0x01, some 0x77], 0x3000, 0x0000, 0x1004) := by decide
theorem test_M6 : seeM 0x5000 2 3 (code [0x026B, 0x00FF, 0xFFFE] (poke 0x5000 [0x12, 0x34] { base with a := #v[0, 0, 0, 0x5002, 0, 0, 0] })) =
    some ([some 0x00, some 0x34], 0x5002, 0x2000, 0x1006) := by decide
theorem test_M7 : seeM 0x6002 1 4 (code [0x0234, 0x000F, 0x1004]
    (poke 0x6002 [0x5A] { base with a := #v[0, 0, 0, 0, 0x6000, 0, 0], d := #v[0, 0x0001FFFE, 0, 0, 0, 0, 0, 0] })) =
    some ([some 0x0A], 0x6000, 0x2000, 0x1006) := by decide
theorem test_M8 : seeM 0x26002 1 4 (code [0x0234, 0x000F, 0x1804]
    (poke 0x26002 [0xF0] { base with a := #v[0, 0, 0, 0, 0x6000, 0, 0], d := #v[0, 0x0001FFFE, 0, 0, 0, 0, 0, 0] })) =
    some ([some 0x00], 0x6000, 0x2004, 0x1006) := by decide
theorem test_M10 : seeM 0xFF8000 2 0 (code [0x0278, 0xF00F, 0x8000] (poke 0xFF8000 [0xAB, 0xCD] base)) =
    some ([some 0xA0, some 0x0D], 0, 0x2008, 0x1006) := by decide
theorem test_M11 : seeM 0x12344 4 0 (code [0x02B9, 0x0000, 0xFFFF, 0x0001, 0x2344] (poke 0x12344 [0xDE, 0xAD, 0xBE, 0xEF] base)) =
    some ([some 0x00, some 0x00, some 0xBE, some 0xEF], 0, 0x2000, 0x100A) := by decide
theorem test_M12 : stop (step (code [0x0250, 0x0001] { base with a := #v[0x2001, 0, 0, 0, 0, 0, 0] })) =
    some (.inl (.addressError 0x2001)) := by decide
theorem test_M14 : seeM 0xFFFFFC 4 0 (code [0x02A0, 0xFFFF, 0xFFFF] (poke 0xFFFFFC [1, 2, 3, 4] base)) =
    some ([some 1, some 2, some 3, some 4], 0xFFFFFFFC, 0x2000, 0x1006) := by decide
theorem test_M15 : stop (step (code [0x0210, 0x0000] { base with a := #v[0x1002, 0, 0, 0, 0, 0, 0] })) =
    some (.inl (.busError 0x1002)) := by decide
theorem test_M16 : seeM 0x2000 2 0 (code [0x0250, 0xFFFF] (poke 0x2000 [0x12, 0x34] { base with a := #v[0x2000, 0, 0, 0, 0, 0, 0] })) =
    some ([some 0x12, some 0x34], 0x2000, 0x2000, 0x1004) := by decide
/-- P2, third and fourth instruction. -/
theorem test_P2_long_disp : seeM 0x3004 4 0
    (code [0x02A8, 0x0F0F, 0x0F0F, 0x0003] (poke 0x3004 [0x9A, 0xBC, 0xDE, 0xF0] { base with a := #v[0x3001, 0, 0, 0, 0, 0, 0] })) =
    some ([some 0x0A, some 0x0C, some 0x0E, some 0x00], 0x3001, 0x2000, 0x1008) := by decide
theorem test_P2_byte_absW : seeM 0x3002 1 0 (code [0x0238, 0x0000, 0x3002] (poke 0x3002 [0x56] base)) =
    some ([some 0x00], 0, 0x2004, 0x1006) := by decide
/-- By hand: R152, R133. -/
theorem test_long_ind : seeM 0x3000 4 6
    (code [0x0296, 0x0F0F, 0x0F0F] (poke 0x3000 [0x12, 0x34, 0x56, 0x78] { base with a := #v[0, 0, 0, 0, 0, 0, 0x3000] })) =
    some ([some 0x02, some 0x04, some 0x06, some 0x08], 0x3000, 0x2000, 0x1006) := by decide
/-- By hand: R153, R160; a step of 4. -/
theorem test_long_postInc : seeM 0x3000 4 5
    (code [0x029D, 0x0000, 0xFFFF] (poke 0x3000 [0x12, 0x34, 0x56, 0x78] { base with a := #v[0, 0, 0, 0, 0, 0x3000, 0] })) =
    some ([some 0x00, some 0x00, some 0x56, some 0x78], 0x3004, 0x2000, 0x1006) := by decide
/-- By hand: R154, R160; a step of 2. -/
theorem test_word_preDec : seeM 0x3000 2 6 (code [0x0266, 0x8001] (poke 0x3000 [0xFF, 0xFE] { base with a := #v[0, 0, 0, 0, 0, 0, 0x3002] })) =
    some ([some 0x80, some 0x00], 0x3000, 0x2008, 0x1004) := by decide
/-- By hand: R155; the largest displacement. -/
theorem test_byte_disp : seeM 0x7FFF 1 0 (code [0x0228, 0x000F, 0x7FFF] (poke 0x7FFF [0xFF] base)) =
    some ([some 0x0F], 0, 0x2000, 0x1006) := by decide
/-- By hand: R156, R157; the low word of A7 as index. -/
theorem test_word_index : seeM 0x3012 2 1
    (code [0x0271, 0xFF00, 0xF002] (poke 0x3012 [0xAB, 0xCD] { base with a := #v[0, 0x3000, 0, 0, 0, 0, 0], ssp := 0xFFFF0010 })) =
    some ([some 0xAB, some 0x00], 0x3000, 0x2008, 0x1006) := by decide
/-- By hand: R156; a negative displacement and a long index. -/
theorem test_long_index : seeM 0x3004 4 2 (code [0x02B2, 0x0000, 0xFFFF, 0x28FC]
    (poke 0x3004 [0x12, 0x34, 0x56, 0x78] { base with a := #v[0, 0, 0x3000, 0, 0, 0, 0], d := #v[0, 0, 8, 0, 0, 0, 0, 0] })) =
    some ([some 0x00, some 0x00, some 0x56, some 0x78], 0x3000, 0x2000, 0x1008) := by decide
/-- By hand: R158. -/
theorem test_long_absW : seeM 0x3000 4 0 (code [0x02B8, 0xFFFF, 0x0000, 0x3000] (poke 0x3000 [0x12, 0x34, 0x56, 0x78] base)) =
    some ([some 0x12, some 0x34, some 0x00, some 0x00], 0, 0x2000, 0x1008) := by decide
/-- By hand: R159. -/
theorem test_byte_absL : seeM 0x12345 1 0 (code [0x0239, 0x0001, 0x0001, 0x2345] (poke 0x12345 [0xAD] base)) =
    some ([some 0x01], 0, 0x2000, 0x1008) := by decide
theorem test_word_absL : seeM 0x12346 2 0 (code [0x0279, 0xF0F0, 0x0001, 0x2346] (poke 0x12346 [0xBE, 0xEF] base)) =
    some ([some 0xB0, some 0xE0], 0, 0x2008, 0x1008) := by decide
/-- By hand: R138; the operand's second byte holds no value. -/
theorem test_valueless_operand : stop (step (code [0x0278, 0xFFFF, 0x3000] (poke 0x3000 [0x12] base))) =
    some (.inr (.valuelessByte 0x3001)) := by decide

/-! ### Registers and flags that hold no value (R37) -/

/-- Nothing among the registers and flags holds a value. -/
def nothingHeld : NoValue :=
  { d := Vector.replicate 8 true, a := Vector.replicate 7 true, usp := true, ssp := true, x := true, n := true, z := true, v := true,
    c := true }

/-- Only the flags hold values. -/
def flagsHeld : NoValue := nothingHeld.give .flags

theorem test_V13 : stop (step (code [0x0240, 0xFFFF]
    { base with noValue := { base.noValue with d := #v[true, false, false, false, false, false, false, false] } })) =
    some (.inr (.valuelessRegister (.d 0))) := by decide
/-- R211: even `ANDI.B #$00,CCR`, one flag without a value, and ANDI to SR; but the registers may all be without one there. -/
theorem test_R211 :
    stop (step (code [0x023C, 0x0000] { base with noValue := { base.noValue with x := true } })) =
      some (.inr (.valuelessRegister .flags)) ∧
    stop (step (code [0x027C, 0xFFFF] { base with noValue := { base.noValue with v := true } })) =
      some (.inr (.valuelessRegister .flags)) ∧
    (got (step (code [0x023C, 0x0000] { base with noValue := flagsHeld }))).isSome = true := by decide
/-- By hand: R37, R134; the data forms need only their operand, give N, Z, V and C values, and leave X without one. -/
theorem test_flags_get_values :
    (got (step (code [0x0278, 0xF00F, 0x3000] (poke 0x3000 [0xAB, 0xCD] { base with noValue := nothingHeld })))).map
      (fun t => (t.noValue.x, t.noValue.n, t.noValue.z, t.noValue.v, t.noValue.c)) = some (true, false, false, false, false) := by decide
/-- By hand: R37, R157; the index register, A7 in user mode. -/
theorem test_valueless_index : stop (step (code [0x0271, 0xFF00, 0xF002]
    { base with sr := 0, noValue := { base.noValue with usp := true } })) =
    some (.inr (.valuelessRegister .usp)) := by decide
/-- By hand: R37; a word written into a register without a value leaves it so. -/
theorem test_partial_write :
    (writeD .word { base with noValue := nothingHeld } 3 0x1234).noValue = nothingHeld ∧
    (writeD .long { base with noValue := nothingHeld } 3 0x1234).noValue.lacks (.d 3) = false := by decide

/-! ### One step: CCR and SR (C2, C3, T2, T7, T8) -/

theorem test_C2 : seeS (code [0x023C, 0x0000] { base with sr := 0x271F }) = some (0x2700, 0x1004) := by decide
theorem test_C3 : seeS (code [0x023C, 0x00EF] { base with sr := 0x0015 }) = some (0x0005, 0x1004) := by decide
theorem test_T2 : seeS (code [0x027C, 0xDFFF] { base with sr := 0x2704 }) = some (0x0704, 0x1004) := by decide
theorem test_T7 : seeS (code [0x027C, 0x58E0] { base with sr := 0x271F }) = some (0x0000, 0x1004) := by decide

/-- The start of T8. -/
def trapState : State :=
  code [0x027C, 0xFFFF] (poke 0x20 [0x00, 0x00, 0x05, 0x00] { base with sr := 0x0015, ssp := 0x8000, usp := 0x7000 })

theorem test_T8 :
    (got (step trapState)).map (fun t => (readSr t, t.ssp, t.usp, t.pc)) = some (0x2015, 0x7FFA, 0x7000, 0x500) ∧
    (got (step trapState)).map (fun t => peek t 0x7FFA 6) =
      some [some 0x00, some 0x15, some 0x00, some 0x00, some 0x10, some 0x00] := by decide
/-- By hand: R186; the eight-byte frame of the 68010 and the vector at VBR + 0x20. -/
def trapState010 : State :=
  { poke 0x0120 [0x00, 0x00, 0x06, 0x00] trapState with cfg := { trapState.cfg with cpu := .mc68010 }, vbr := 0x100 }

theorem test_T8_on_68010 :
    (got (step trapState010)).map (fun t => (readSr t, t.ssp, t.pc)) = some (0x2015, 0x7FF8, 0x600) ∧
    (got (step trapState010)).map (fun t => peek t 0x7FF8 8) =
      some [some 0x00, some 0x15, some 0x00, some 0x00, some 0x10, some 0x00, some 0x00, some 0x20] := by decide
/-- R6, R180: the vector numbers, and that a vector stands at four times its number. -/
theorem test_vectors :
    faultVector (.addressError 1) = 3 ∧ faultVector (.busError 0) = 2 ∧ refusalVector .traceOn = some 9 ∧
    refusalVector (.undecodable (.notAndi .sizeEleven 0x02C0) 0) = some 4 ∧
    refusalVector (.undecodable (.notAndi .otherOperationWord 0x4E71) 0) = none ∧
    vectorAddress privilegeViolationVector = 0x000020 ∧ vectorAddress addressErrorVector = 0x00000C ∧
    vectorAddress (autovector 7) = 0x00007C := by decide
/-- By hand: R192 undoes R184. -/
theorem test_return :
    (got (andThen (takePrivilegeViolation trapState) returnFromException)).map (fun t => (readSr t, t.ssp, t.pc)) =
      some (0x0015, 0x8000, 0x1000) := by decide
/-- By hand: R210. -/
theorem test_reset_sequence :
    (got (takeReset (poke 0 [0x00, 0x00, 0x80, 0x00, 0x00, 0x00, 0x10, 0x00] base))).map (fun t => (readSr t, t.ssp, t.pc)) =
      some (0x2700, 0x8000, 0x1000) := by decide

/-! ### Witnesses: states and operands that meet the hypotheses of each obligation, clause by clause -/

/-- An instruction of five words that ends at the top of the address space. -/
def topState : State :=
  let s := { base with
    cfg := { base.cfg with memMap := { base.cfg.memMap with code := [⟨0xFFFFF0, 16⟩] } }
    pc := 0xFFFFFFF6 }
  code [0x02B9, 0x0000, 0xFFFF, 0x0001, 0x2344] (poke 0x12344 [0xDE, 0xAD, 0xBE, 0xEF] s)

/-- A user-mode state at `ANDI.B #$10,CCR`. -/
def userState : State := code [0x023C, 0x0010] { base with sr := 0x0015, ssp := 0x8000, usp := 0x7000 }

/-- A state at `ANDI.B #$0F,D0`. -/
def registerState : State := code [0x0200, 0x000F] { base with d := Vector.replicate 8 0xFF }

/-- A state at `ANDI.W #$0FF0,(A1)+`. -/
def postIncState : State :=
  code [0x0259, 0x0FF0] (poke 0x2000 [0xFF, 0xFF] { base with a := #v[0, 0x2000, 0, 0, 0, 0, 0] })

/-- A supervisor state at `ANDI.W #$DFFF,SR`. -/
def toUserState : State := code [0x027C, 0xDFFF] { base with sr := 0x2704, ssp := 0x8000, usp := 0x7000 }

theorem exec_of (imm : Word) : exec (.andiWSr imm) toUserState = .next (advancePc (writeSr toUserState (readSr toUserState &&& imm)) 4) :=
  exec_andiWSr_of_supervisor (by decide) (by decide)

theorem trapped : ∃ t, takePrivilegeViolation trapState = .next t := by
  obtain ⟨t, h, _⟩ := next_with (x := takePrivilegeViolation trapState) (p := fun _ => true) (by decide)
  exact ⟨t, h⟩

theorem stepped {s : State} (h : (got (step s)).isSome = true) : ∃ t, step s = .next t := by
  cases e : step s with
  | next t => exact ⟨t, rfl⟩
  | fault f => rw [e] at h; cases h
  | refused f => rw [e] at h; cases h

/-- The state after one step. -/
def ran (s : State) : State := (got (step s)).getD s

theorem witness_EncodeOfDecode :
    decodeWords [0x023C, 0x00FF] = .done (.andiBCcr 0xFF) [] ∧ decodeWords [0x0207, 0x0000, 0x4E71] = .done (.andiBDr 0 7) [0x4E71] ∧
    decodeWords [0x0237, 0x0000, 0xF8FF] = .done (.andiBIndex 0 7 ⟨.a 7, .long, 0xFF⟩) [] := by decide

theorem witness_OperationWordMap :
    (0x0200 : Word) = (match Size.byte with | .byte => 0x0200 | .word => 0x0240 | .long => 0x0280) ∧
    (0x0240 : Word) = (match Size.word with | .byte => 0x0200 | .word => 0x0240 | .long => 0x0280) ∧
    (0x0280 : Word) = (match Size.long with | .byte => 0x0200 | .word => 0x0240 | .long => 0x0280) ∧
    (0x033C : Word).extractLsb' 8 8 ≠ 0x02 := by decide

theorem witness_LengthFromOperationWord :
    decodeOp 0x02B9 = .ok (.ea .long .absL) ∧
    decodeWords (0x02B9 :: [0, 0xFFFF, 1, 0x2344, 0x4E71]) = .done (.andiLAbsL 0xFFFF 0x12344) [0x4E71] := by decide

theorem witness_ByteImmediateHighByteRefused :
    decodeOp 0x023C = .ok .ccr ∧ decodeOp 0x0200 = .ok (.ea .byte (.dr 0)) ∧ (0x010F : Word).extractLsb' 8 8 ≠ 0 ∧
    launchRefusal (code [0x0200, 0x010F] base) = none ∧ (code [0x0200, 0x010F] base).pc.toNat + 4 ≤ 2 ^ 32 ∧
    got (memRead .fetch .word (code [0x0200, 0x010F] base) 0x1000) = some 0x0200 ∧
    got (memRead .fetch .word (code [0x0200, 0x010F] base) 0x1002) = some 0x010F := by decide

theorem witness_BriefExtensionWordFields :
    (0x1204 : Word).extractLsb' 8 3 ≠ 0 ∧ (0xF8FF : Word).extractLsb' 8 3 = 0 ∧ (0x0000 : Word).extractLsb' 8 3 = 0 := by decide

theorem witness_StepRunsDecodedInstruction :
    launchRefusal topState = none ∧
    decodeWords [0x02B9, 0x0000, 0xFFFF, 0x0001, 0x2344] = .done (.andiLAbsL 0xFFFF 0x12344) [] ∧
    topState.pc.toNat + 2 * 5 = 2 ^ 32 ∧
    (∀ k : Fin 5, got (memRead .fetch .word topState (topState.pc + BitVec.ofNat 32 (2 * k))) =
      some (#v[0x02B9, 0x0000, 0xFFFF, 0x0001, 0x2344][k])) ∧
    (got (step topState)).map (fun t => t.pc) = some 0 := by decide

theorem witness_FetchStops :
    (launchRefusal { base with pc := 0xFFFFFFFF } = none ∧ ({ base with pc := 0xFFFFFFFF } : State).pc[0] = true) ∧
    (launchRefusal { base with pc := 0x1100 } = none ∧ ({ base with pc := 0x1100 } : State).pc[0] = false ∧
      admitsAll .fetch .word base.cfg 0x1100 = false ∧ admitsAll .fetch .word base.cfg 0x10FE = true) ∧
    (launchRefusal (code [0x4E71] base) = none ∧ got (memRead .fetch .word (code [0x4E71] base) 0x1000) = some 0x4E71 ∧
      decodeOp 0x4E71 = .error .otherOperationWord) := by decide

theorem witness_LaterFetchStops :
    (let s := code [0x0200] { base with pc := 0x10FE }
     launchRefusal s = none ∧ violatesPrivilege s 0x0200 = false ∧ decodeWords [0x0200] = .incomplete ∧
      s.pc.toNat + 2 * (0 + 1) < 2 ^ 32 ∧ got (memRead .fetch .word s s.pc) = some 0x0200 ∧
      admitsAll .fetch .word s.cfg 0x1100 = false) ∧
    (let s := code [0x02B9, 0, 0xFFFF] base
     launchRefusal s = none ∧ violatesPrivilege s 0x02B9 = false ∧ decodeWords [0x02B9, 0, 0xFFFF] = .incomplete ∧
      s.pc.toNat + 2 * (2 + 1) < 2 ^ 32 ∧ got (memRead .fetch .word s 0x1000) = some 0x02B9 ∧
      got (memRead .fetch .word s 0x1002) = some 0 ∧ got (memRead .fetch .word s 0x1004) = some 0xFFFF ∧
      stop (memRead .fetch .word s 0x1006) = some (.inr (.valuelessByte 0x1006))) := by decide

theorem witness_PrivilegeCheckComesFirst :
    supervisor trapState = false ∧ launchRefusal trapState = none ∧
    got (memRead .fetch .word trapState trapState.pc) = some 0x027C := by decide

theorem witness_StepRefusesTraceAndOtherProcessors :
    (base.cfg.cpu = .mc68000 ∧ flagT { base with sr := 0xA000 } = true) ∧
    ({ base.cfg with cpu := .mc68020 } : Config).cpu ≠ .mc68000 ∧ ({ base.cfg with cpu := .mc68020 } : Config).cpu ≠ .mc68010 := by decide

theorem witness_ProgramCounterAdvance :
    (∃ t, exec (.andiBCcr 0x10) userState = .next t) ∧ (∃ t, exec (.andiWSr 0xDFFF) toUserState = .next t) ∧
    supervisor toUserState = true ∧ trapState.cfg.cpu = .mc68000 ∧ (∃ t, takePrivilegeViolation trapState = .next t) ∧
    (let s := code [0x0200] { topState with pc := 0xFFFFFFFE }
     launchRefusal s = none ∧ got (memRead .fetch .word s s.pc) = some 0x0200 ∧ decodeOp 0x0200 = .ok (.ea .byte (.dr 0)) ∧
      violatesPrivilege s 0x0200 = false ∧ 2 ^ 32 < s.pc.toNat + opLength (.ea .byte (.dr 0)) ∧
      decodeWords [0x0200] = .incomplete ∧ s.pc.toNat + 2 * (0 + 1) = 2 ^ 32) := by
  refine ⟨⟨_, rfl⟩, ⟨_, exec_of _⟩, by decide, by decide, trapped, by decide⟩

theorem witness_AndiToCcrResult :
    holds userState [.flags] = true ∧ holds { userState with noValue := flagsHeld } [.flags] = true := by decide

theorem witness_AndiToSrResult :
    supervisor toUserState = true ∧ holds toUserState [.flags] = true ∧ supervisor trapState = false ∧
    ∃ t, takePrivilegeViolation trapState = .next t :=
  ⟨by decide, by decide, by decide, trapped⟩

/-- Both values of bit 13 of the datum. -/
theorem witness_AndiToSrMovesToUserMode :
    supervisor toUserState = true ∧
    (∃ t, exec (.andiWSr 0xDFFF) toUserState = .next t ∧ (0xDFFF : Word)[13] = false) ∧
    (∃ t, exec (.andiWSr 0x2000) toUserState = .next t ∧ (0x2000 : Word)[13] = true) :=
  ⟨by decide, ⟨_, exec_of _, by decide⟩, ⟨_, exec_of _, by decide⟩⟩

theorem witness_AndiToSrSystemFields :
    toUserState.cfg.cpu = .mc68000 ∧ supervisor toUserState = true ∧ ∃ t, exec (.andiWSr 0xFDFF) toUserState = .next t :=
  ⟨by decide, by decide, ⟨_, exec_of _⟩⟩

theorem witness_StatusBitsOnlyFall :
    (∃ t, exec (.andiBCcr 0x00) userState = .next t) ∧ supervisor toUserState = true ∧
    (∃ t, exec (.andiWSr 0x0000) toUserState = .next t) := ⟨⟨_, rfl⟩, by decide, ⟨_, exec_of _⟩⟩

theorem witness_StatusFormLaws :
    (∃ t1 t2 t, exec (.andiBCcr 0x1E) userState = .next t1 ∧ exec (.andiBCcr 0x0F) t1 = .next t2 ∧
      exec (.andiBCcr (0x1E &&& 0x0F)) userState = .next t) ∧
    (supervisor toUserState = true ∧ ∃ t1 t2, exec (.andiWSr 0xFFFE) toUserState = .next t1 ∧ supervisor t1 = true ∧
      exec (.andiWSr 0xFFFE) t1 = .next t2) ∧
    (∃ t u, exec (.andiBCcr 0x1E) toUserState = .next t ∧
      exec (.andiWSr (0xFF00 ||| (0x1E : Byte).setWidth 16)) toUserState = .next u) ∧
    ((0xFF00 : Word).extractLsb' 8 8 = 0xFF ∧ ∃ t, exec (.andiWSr 0xFF00) toUserState = .next t) := by
  refine ⟨⟨_, _, _, rfl, rfl, rfl⟩, ⟨by decide, ?_⟩, ⟨_, _, rfl, exec_of _⟩, by decide, _, exec_of _⟩
  obtain ⟨t1, h1, h2⟩ := next_with (x := exec (.andiWSr 0xFFFE) toUserState) 
    (p := fun t => supervisor t && holds t [.flags]) (by decide)
  rw [Bool.and_eq_true] at h2
  exact ⟨t1, _, h1, h2.1, exec_andiWSr_of_supervisor h2.1 h2.2⟩

theorem witness_PrivilegeViolationEntry :
    trapState.cfg.cpu = .mc68000 ∧ 3 ≤ trapState.cfg.addrBits ∧ supervisor trapState = false ∧ trapReady trapState = true ∧
    trapReady { trapState with cfg := { trapState.cfg with addrBits := 24, memMap := ⟨[], [⟨0x7FFA, 6⟩], [⟨0x20, 4⟩]⟩ } } = true := by
  decide

theorem witness_PrivilegeViolationEntry68010 :
    trapState010.cfg.cpu = .mc68010 ∧ 3 ≤ trapState010.cfg.addrBits ∧ supervisor trapState010 = false ∧
    trapReady010 trapState010 = true := by decide

theorem witness_TrapEntryFaults :
    trapState.cfg.cpu = .mc68000 ∧ supervisor trapState = false ∧ holds trapState [.flags, .ssp] = true ∧
    ({ trapState with ssp := 0x7FFF } : State).ssp[0] = true ∧
    ({ trapState with ssp := 0x2002 } : State).ssp[0] = false ∧ admitsAll .data .long trapState.cfg (0x2002 - 4) = false ∧
    ({ trapState with noValue := nothingHeld } : State).noValue.lacks .flags = true ∧
    (let s := { trapState with noValue := { trapState.noValue with ssp := true } }
     s.noValue.lacks .flags = false ∧ s.noValue.lacks .ssp = true) := by decide

theorem witness_ReturnRestoresTrappedState :
    trapState.cfg.cpu = .mc68000 ∧ 3 ≤ trapState.cfg.addrBits ∧ ∃ t, takePrivilegeViolation trapState = .next t :=
  ⟨by decide, by decide, trapped⟩

theorem witness_RunEndsAtTrap :
    launchRefusal trapState = none ∧ trapState.pc ≠ 0x1004 ∧ supervisor trapState = false ∧
    got (memRead .fetch .word trapState trapState.pc) = some 0x027C ∧ ∃ t, takePrivilegeViolation trapState = .next t :=
  ⟨by decide, by decide, by decide, by decide, trapped⟩

theorem witness_DataRegisterResult :
    holds registerState [.d 7] = true ∧
    holds { registerState with noValue := { nothingHeld with d := #v[true, true, true, true, true, true, true, false] } } [.d 7] = true := by
  decide

/-- One destination of each mode, the byte ones at the last byte of `data`, the A7 ones in both modes. -/
theorem witness_MemoryOperandResult :
    3 ≤ base.cfg.addrBits ∧
    holds postIncState (eaRegisters postIncState (.postInc 1)) = true ∧ holds userState (eaRegisters userState (.preDec 7)) = true ∧
    holds base (eaRegisters base (.index 4 ⟨.d 1, .long, 4⟩)) = true ∧
    holds { topState with noValue := nothingHeld } (eaRegisters topState (.absL 0x12344)) = true ∧
    readable .data .word postIncState (effectiveAddress .word postIncState (.ind 1)) = true ∧
    readable .data .word postIncState (effectiveAddress .word postIncState (.postInc 1)) = true ∧
    (let s := poke 0x7FFE [0x03, 0x77] { base with usp := 0x8000, sr := 0 }
     readable .data .byte s (effectiveAddress .byte s (.preDec 7)) = true) ∧
    (let s := poke 0x7FFF [0xFF] base
     readable .data .byte s (effectiveAddress .byte s (.disp 0 0x7FFF)) = true) ∧
    (let s := poke 0x26002 [0xF0] { base with a := #v[0, 0, 0, 0, 0x6000, 0, 0], d := #v[0, 0x0001FFFE, 0, 0, 0, 0, 0, 0] }
     readable .data .byte s (effectiveAddress .byte s (.index 4 ⟨.d 1, .long, 4⟩)) = true) ∧
    readable .data .word (poke 0xFF8000 [0xAB, 0xCD] base) (effectiveAddress .word base (.absW 0x8000)) = true ∧
    readable .data .long topState (effectiveAddress .long topState (.absL 0x12344)) = true := by decide

theorem witness_DataFormFlags :
    ((readD registerState 0).setWidth 8 = 0xFF ∧ ∃ t, exec (Instr.andi .byte 0 (.dr 0)) registerState = .next t) ∧
    (got (loadBytes .word postIncState (effectiveAddress .word postIncState (.postInc 1))) = some 0xFFFF ∧
      ∃ t, exec (Instr.andi .word 0x8000 (.mem (.postInc 1))) postIncState = .next t ∧ flagN t = true) :=
  ⟨⟨by decide, ⟨_, rfl⟩⟩, ⟨by decide, next_with (by decide)⟩⟩

theorem witness_AddressRegisterUpdates :
    (∃ t, exec (Instr.andi .word 0x0FF0 (.mem (.postInc 1))) postIncState = .next t ∧ decide (readA t 1 = 0x2002) = true) ∧
    (∃ t, exec (Instr.andi .byte 1 (.mem (.preDec 7))) (poke 0x3000 [0x03] { base with usp := 0x3002, sr := 0 }) = .next t ∧
      decide (readA t 7 = 0x3000) = true) ∧
    (∃ t, exec (Instr.andi .long 0xFFFF (.mem (.absL 0x12344))) topState = .next t ∧ decide (t.a = topState.a) = true) :=
  ⟨next_with (by decide), next_with (by decide), next_with (by decide)⟩

theorem witness_MemoryFormStops :
    base.cfg.cpu.modelled = true ∧ holds base (eaRegisters base (.absL 0x2001)) = true ∧
    (Size.word ≠ .byte ∧ (effectiveAddress .word base (.absL 0x2001))[0] = true) ∧
    (admitsAll .data .byte base.cfg (effectiveAddress .byte base (.absL 0x1FFF)) = false) ∧
    ((effectiveAddress .long base (.absL 0x7FFE))[0] = false ∧
      admitsAll .data .long base.cfg (effectiveAddress .long base (.absL 0x7FFE)) = false) ∧
    (admitsAll .data .long base.cfg (effectiveAddress .long base (.absL 0x7FFC)) = true ∧
      holdsValues .long base (effectiveAddress .long base (.absL 0x7FFC)) = false) := by decide

theorem witness_DataFormLaws :
    (∃ t1 t2, exec (Instr.andi .byte 0xFF (.dr 0)) registerState = .next t1 ∧ exec (Instr.andi .byte 0xFF (.dr 0)) t1 = .next t2) ∧
    (∃ t1 t2, exec (Instr.andi .long 0 (.dr 7)) registerState = .next t1 ∧ exec (Instr.andi .long 1 (.dr 7)) t1 = .next t2) :=
  ⟨⟨_, _, rfl, rfl⟩, ⟨_, _, rfl, rfl⟩⟩

theorem witness_AlignmentOfAccesses :
    base.cfg.cpu.modelled = true ∧ Cpu.modelled .mc68010 = true ∧ Size.long ≠ .byte ∧ (0xFFFFFFFF : Long)[0] = true ∧
    (0xFFFFFFFE : Long)[0] = false := by decide

theorem witness_BigEndianAccesses :
    (let s := poke 0x2000 [0x12, 0x34, 0x56, 0x78] base
     byteAt s 0x2000 = some 0x12 ∧ byteAt s (0x2000 + 1) = some 0x34 ∧ byteAt s (0x2000 + 2) = some 0x56 ∧
      byteAt s (0x2000 + 3) = some 0x78 ∧ got (checkAccess .data .word s 0x2000) = some () ∧
      got (checkAccess .data .long s 0x2000) = some ()) ∧
    3 ≤ base.cfg.addrBits ∧ (∃ t, memWrite .long base 0x7FFC 0x12345678 = .next t) ∧ (∃ t, memWrite .word base 0x7FFE 0x1234 = .next t) := by
  refine ⟨by decide, by decide, ?_, ?_⟩
  · exact ⟨_, memWrite_of_ok _ (by decide) (by decide)⟩
  · exact ⟨_, memWrite_of_ok _ (by decide) (by decide)⟩

theorem witness_WritesAreLocal :
    (∃ t, memWrite .long base 0xFFFFFFFC 0x12345678 = .next t) ∧ within base.cfg 0xFFFFFFFC 4 0x00000000 = false ∧
    (0xFFFFFFFC : Long).toNat % 2 ^ base.cfg.addrBits = (0x00FFFFFC : Long).toNat % 2 ^ base.cfg.addrBits := by
  refine ⟨?_, by decide, by decide⟩
  exact ⟨_, memWrite_of_ok _ (by decide) (by decide)⟩

theorem witness_CodeIsNeverWritten :
    (aligned .word 0x1000 = true ∧ within base.cfg 0x1000 2 0x1001 = true ∧
      inRegions base.cfg.memMap.code (reduce base.cfg 0x1001) = true) ∧
    (∃ t, step postIncState = .next t ∧ decide (byteAt t 0x2000 ≠ byteAt postIncState 0x2000) = true) ∧
    inRegions postIncState.cfg.memMap.code (reduce postIncState.cfg 0x10FF) = true :=
  ⟨by decide, next_with (by decide), by decide⟩

theorem postIncState_inv : Inv postIncState := ⟨by decide, by decide, by decide, by decide⟩
theorem trapState_inv : Inv trapState := ⟨by decide, by decide, by decide, by decide⟩

theorem witness_StepKeepsInvariant :
    (Inv postIncState ∧ ∃ t, step postIncState = .next t) ∧ (Inv trapState ∧ ∃ t, step trapState = .next t) :=
  ⟨⟨postIncState_inv, stepped (by decide)⟩, ⟨trapState_inv, stepped (by decide)⟩⟩

theorem witness_RunKeepsInvariant :
    (Inv postIncState ∧ ∃ t, runToEnd 0x1004 5 postIncState = .normal t) ∧
    (Inv trapState ∧ ∃ t, runToEnd 0x1004 5 trapState = .trapped t) ∧
    (Inv postIncState ∧ ∃ t, runToEnd 0x1008 1 postIncState = .running t) := by
  refine ⟨⟨postIncState_inv, ?_⟩, ⟨trapState_inv, ?_⟩, ⟨postIncState_inv, ?_⟩⟩
  · exact ⟨_, (by decide : runToEnd 0x1004 5 postIncState = .normal (ran postIncState))⟩
  · exact ⟨_, (by decide : runToEnd 0x1004 5 trapState = .trapped (ran trapState))⟩
  · exact ⟨_, (by decide : runToEnd 0x1008 1 postIncState = .running (ran postIncState))⟩

theorem witness_StepFrame : ∃ t, step registerState = .next t ∧ decide (readD t 0 ≠ readD registerState 0) = true :=
  next_with (by decide)

theorem witness_AddressRegistersWrittenOnlyBySideEffect :
    traps postIncState = false ∧ ∃ t, step postIncState = .next t ∧ decide (t.a ≠ postIncState.a) = true :=
  ⟨by decide, next_with (by decide)⟩

theorem witness_ModeChanges :
    (supervisor trapState = false ∧ ∃ t, step trapState = .next t ∧ supervisor t = true) ∧
    (supervisor toUserState = true ∧ ∃ t, step toUserState = .next t ∧ (!supervisor t) = true) :=
  ⟨⟨by decide, next_with (by decide)⟩, ⟨by decide, next_with (p := fun t => !supervisor t) (by decide)⟩⟩

theorem witness_UserModeKeepsSystemByte :
    supervisor userState = false ∧ (∃ t, step userState = .next t) ∧ supervisor trapState = false ∧ traps trapState = true :=
  ⟨by decide, stepped (by decide), by decide, by decide⟩

theorem witness_InactiveStackPointerUnreachable :
    supervisor userState = false ∧ (∀ imm, Instr.andiBPreDec 1 7 ≠ .andiWSr imm) ∧ supervisor toUserState = true := by
  refine ⟨by decide, fun _ => by simp, by decide⟩

theorem witness_SystemByteUnreadable :
    (∀ imm, Instr.andiBPreDec 1 7 ≠ .andiWSr imm) ∧ (0xA704 : Word) &&& 0x20FF = ({ base with sr := 0x2004 } : State).sr &&& 0x20FF := by
  refine ⟨fun _ => by simp, by decide⟩

theorem witness_ResetSequence :
    (let s := poke 0 [0x00, 0x00, 0x80, 0x00, 0x00, 0x00, 0x10, 0x00] base
     readable .vector .long s 0x000000 = true ∧ readable .vector .long s 0x000004 = true) := by decide

theorem witness_BusCyclesAgree : Cpu.modelled .mc68000 = true ∧ Cpu.modelled .mc68010 = true := by decide

/-- R212: a launch, and each premise that can fail: an odd END, an odd pc, code that ends before END, T = 1, a reserved bit. -/
theorem test_launch :
    (launch 0x1004 1 userState).isSome = true ∧ launch 0x1003 1 userState = none ∧ launch 0x1004 1 { userState with pc := 0x1001 } = none ∧
    launch 0x1102 1 { userState with pc := 0x10FE } = none ∧ (launch 0x1100 0 { userState with pc := 0x10FE }).isSome = true ∧
    launch 0x1004 1 { userState with sr := 0x8015 } = none ∧ launch 0x1004 1 { userState with sr := 0x0035 } = none := by decide

/-- R17: END just past the last instruction word, inside an instruction, and beyond a word that is no ANDI, where the run is refused. -/
theorem test_end_of_sequence :
    (let s := code [0x0200, 0x000F, 0x0241, 0xFF00] base
     LaunchState 0x1004 s ∧ LaunchState 0x1008 s ∧ ¬ LaunchState 0x1002 s ∧ ¬ LaunchState 0x1006 s) ∧
    (let s := code [0x0200, 0x000F, 0x4E71, 0x0200] base
     (launch 0x1008 3 s).map (fun r => match r with | .refused e => some e | _ => none) =
      some (some (.undecodable (.notAndi .otherOperationWord 0x4E71) 0x1004))) := by decide

theorem witness_LaunchStateIsReady : LaunchState 0x1004 userState ∧ userState.pc ≠ 0x1004 := by decide

theorem witness_LaunchStateSurvivesStep :
    LaunchState 0x1004 userState ∧ userState.pc ≠ 0x1004 ∧ (∃ t, step userState = .next t) ∧ traps userState = false :=
  ⟨by decide, by decide, stepped (by decide), by decide⟩

theorem witness_LaunchedRunEnds :
    (LaunchState 0x1004 userState ∧ (0x1004 - userState.pc).toNat ≤ 4 * 1) ∧ (LaunchState 0x1004 trapState ∧ LaunchState 0x1000 userState) := by
  decide

theorem witness_PreparedTrapReachesEvenHandler :
    trapState.cfg.cpu = .mc68000 ∧ supervisor trapState = false ∧ trapPrepared trapState = true ∧
    (∀ k < 4, within trapState.cfg (trapState.ssp - 6) 6 (0x000020 + BitVec.ofNat 32 k) = false) ∧
    trapPrepared (poke 0x20 [0x00, 0x00, 0x05, 0x01] trapState) = false := by decide

/-- Each kind of register among those of an address, and a register of which a part is written. -/
theorem witness_ValuelessRegistersRefused :
    (let s := { base with noValue := nothingHeld }
     s.noValue.d[(7 : Fin 8)] = true ∧ (s.noValue.x || s.noValue.n || s.noValue.z || s.noValue.v || s.noValue.c) = true ∧
      supervisor s = true ∧ (∀ q ∈ eaRegisters s (.index 7 ⟨.a 6, .word, 0⟩), s.noValue.lacks q = true) ∧
      eaRegisters s (.index 7 ⟨.a 6, .word, 0⟩) = [.ssp, .a 6] ∧ eaRegisters s (.preDec 0) = [.a 0]) ∧
    (let s := { base with noValue := { base.noValue with d := Vector.replicate 8 true } }
     RegName.d 2 ∈ eaRegisters s (.index 1 ⟨.d 2, .long, 0⟩) ∧ s.noValue.lacks (.d 2) = true ∧ s.noValue.lacks (.a 1) = false) := by
  decide

/-- Two states that differ in what they hold of D0, USP and X, none of which holds a value; a step of them, and a stop. -/
theorem witness_ValuelessContentsUnreadable :
    let n : NoValue := { base.noValue with d := #v[true, false, false, false, false, false, false, false], usp := true, x := true }
    let f (v : Long) (sr : Word) : State :=
      { postIncState with d := #v[v, 0, 0, 0, 0, 0, 0, 0], usp := v, sr := sr, noValue := n }
    SameSeen (f 0 0x2000) (f 0xFFFFFFFF 0x2010) ∧ (∃ t, step (f 0 0x2000) = .next t) ∧
    SameSeen (code [0x0200, 0x00FF] (f 0 0x2000)) (code [0x0200, 0x00FF] (f 0xFFFFFFFF 0x2010)) ∧
    stop (step (code [0x0200, 0x00FF] (f 0 0x2000))) = some (.inr (.valuelessRegister (.d 0))) := by
  refine ⟨⟨by decide, by decide, by decide, by decide, by decide, by decide, by decide, by decide, by decide, by decide⟩,
    stepped (by decide),
    ⟨by decide, by decide, by decide, by decide, by decide, by decide, by decide, by decide, by decide, by decide⟩, by decide⟩

end Sys2Proof.Tests
end

section
/-! PROOFS of the family 00_scope.md: how a run goes on and how it ends (R17). First the length that an operation word tells and the
rules for a run, for a sequence up to `END`, and for what one step keeps; then the four obligations. -/

namespace Sys2Proof

/-! ### The operation word and the length it tells (R95) -/

theorem map_eq_done {α β : Type} {f : α → β} {p : Parsed α} {b : β} {rest : List Word} (h : p.map f = .done b rest) :
    ∃ a, p = .done a rest ∧ b = f a := by
  cases p <;> cases h
  exact ⟨_, rfl, rfl⟩

/-- A destination that was read has the mode it was read for. -/
theorem modeOf_of_decodeEa {m : Mode} {ws rest : List Word} {e : Ea} (h : decodeEa m ws = .done e rest) : modeOf e = m := by
  cases m with
  | dr r | ind r | postInc r | preDec r => cases h; rfl
  | disp r | index r | absW | absL => obtain ⟨a, -, rfl⟩ := map_eq_done h; rfl

/-- What the words after an operation word can spell, said once. -/
theorem decodeOperands_cases {op : Op} {ws rest : List Word} {i : Instr} (h : decodeOperands op ws = .done i rest) :
    (∃ imm, op = .ccr ∧ i = .andiBCcr imm) ∨ (∃ imm, op = .sr ∧ i = .andiWSr imm) ∨
    (∃ (sz : Size) (imm : BitVec sz.bits) (e : Ea), op = .ea sz (modeOf e) ∧ i = Instr.andi sz imm e) := by
  cases op with
  | ccr =>
    obtain ⟨imm, -, rfl⟩ := map_eq_done h
    exact .inl ⟨imm, rfl, rfl⟩
  | sr =>
    obtain ⟨imm, -, rfl⟩ := map_eq_done h
    exact .inr (.inl ⟨imm, rfl, rfl⟩)
  | ea sz m =>
    simp only [decodeOperands] at h
    split at h
    · cases h
    · cases h
    · rename_i imm ws' _
      obtain ⟨e, he, rfl⟩ := map_eq_done h
      exact .inr (.inr ⟨sz, imm, e, by rw [modeOf_of_decodeEa he], rfl⟩)

theorem opLength_modeOf (sz : Size) (e : Ea) : opLength (.ea sz (modeOf e)) = eaLength sz e := by
  cases e with
  | dr r => cases sz <;> rfl
  | mem m => cases sz <;> cases m <;> rfl

/-- The length of the instruction that was read is the one its operation word tells. -/
theorem opLength_of_decodeOperands {op : Op} {ws rest : List Word} {i : Instr} (h : decodeOperands op ws = .done i rest) :
    opLength op = i.length := by
  rcases decodeOperands_cases h with ⟨imm, rfl, rfl⟩ | ⟨imm, rfl, rfl⟩ | ⟨sz, imm, e, rfl, rfl⟩
  · rfl
  · rfl
  · rw [opLength_modeOf, length_andi]

/-- Lengths are even, and at least four bytes (R90). -/
theorem opLength_even_ge_four (op : Op) : opLength op % 2 = 0 ∧ 4 ≤ opLength op := by
  cases op with
  | ccr | sr => decide
  | ea sz m =>
    simp only [opLength]
    split <;> omega

/-- Only the fixed word of ANDI to SR is read as ANDI to SR (R91). -/
theorem eq_of_decodeOp_sr {w0 : Word} (h : decodeOp w0 = .ok .sr) : w0 = 0x027C := by
  by_contra hne
  simp only [decodeOp, if_neg hne] at h
  split at h
  · cases h
  · split at h
    · cases h
    · split at h
      · cases h
      · split at h <;> cases h

theorem andi_ne_andiWSr {sz : Size} {imm : BitVec sz.bits} {e : Ea} {v : Word} : Instr.andi sz imm e ≠ .andiWSr v := by
  intro h
  have hf := congrArg Instr.form h
  rw [form_andi] at hf
  cases hf

/-- ANDI to SR is read from its fixed word only. -/
theorem eq_of_decodeWords_andiWSr {w0 : Word} {ws rest : List Word} {imm : Word}
    (h : decodeWords (w0 :: ws) = .done (.andiWSr imm) rest) : w0 = 0x027C := by
  obtain ⟨op, ho, hd⟩ := Machine.decodeOp_of_decodeWords h
  rcases decodeOperands_cases hd with ⟨_, -, hi⟩ | ⟨_, rfl, -⟩ | ⟨sz, imm', e, -, hi⟩
  · cases hi
  · exact eq_of_decodeOp_sr ho
  · exact absurd hi.symm andi_ne_andiWSr

end Sys2Proof

namespace Sys2Proof.Machine

/-! ### Addresses on the way to `END` -/

theorem even_iff {a : Long} : a[0] = false ↔ a.toNat % 2 = 0 := by
  rw [← BitVec.getLsbD_eq_getElem, BitVec.getLsbD, Nat.testBit_zero]
  simp

/-- An even address stays even after an even number of bytes. -/
theorem even_add {a : Long} {n : Nat} (ha : a[0] = false) (hn : n % 2 = 0) : (a + BitVec.ofNat 32 n)[0] = false := by
  rw [even_iff] at ha ⊢
  rw [BitVec.toNat_add, BitVec.toNat_ofNat]
  omega

/-- Two different even addresses are at least a word apart. -/
theorem two_le_distance {a e : Long} (ha : a[0] = false) (he : e[0] = false) (hne : a ≠ e) : 2 ≤ (e - a).toNat := by
  rw [even_iff] at ha he
  have hne' : a.toNat ≠ e.toNat := fun h => hne (BitVec.eq_of_toNat_eq h)
  rw [BitVec.toNat_sub]
  omega

theorem eq_of_distance_zero {a e : Long} (h : (e - a).toNat = 0) : a = e := by
  apply BitVec.eq_of_toNat_eq
  rw [BitVec.toNat_sub] at h
  omega

/-- The way that is left after `n` of its bytes. -/
theorem distance_add {a e : Long} {n : Nat} (h : n ≤ (e - a).toNat) :
    (e - (a + BitVec.ofNat 32 n)).toNat = (e - a).toNat - n := by
  rw [BitVec.toNat_sub] at h ⊢
  rw [BitVec.toNat_sub, BitVec.toNat_add, BitVec.toNat_ofNat]
  omega

theorem add_ofNat_add (a : Long) (n k : Nat) : a + BitVec.ofNat 32 n + BitVec.ofNat 32 k = a + BitVec.ofNat 32 (n + k) := by
  rw [BitVec.add_assoc, BitVec.ofNat_add]

/-! ### The sequence up to `END` (R17) -/

/-- A sequence ends at `END` when it is there, or when the instruction at `a`, if there is one, ends no later and the rest of the
sequence ends there. -/
theorem sequenceEnds_succ {s : State} {e a : Long} {n : Nat} :
    sequenceEnds s e (n + 1) a = true ↔
      a = e ∨ ∀ w0 op, loadBytes .word s a = .next w0 → decodeOp w0 = .ok op →
        opLength op ≤ (e - a).toNat ∧ sequenceEnds s e n (a + BitVec.ofNat 32 (opLength op)) = true := by
  by_cases ha : a = e
  · simp [sequenceEnds, ha]
  refine ⟨fun h => .inr fun w0 op hw ho => sequenceEnds_next h ha hw ho, fun h => ?_⟩
  replace h := h.resolve_left ha
  simp only [sequenceEnds, if_neg ha]
  split
  · rfl
  · rfl
  · rename_i w0 hw
    split
    · rfl
    · rename_i op ho
      simpa using h w0 op hw ho

/-- No more fuel is needed than there are bytes up to `END`. -/
theorem sequenceEnds_less_fuel {s : State} {e a : Long} {n m : Nat} (hm : (e - a).toNat ≤ m) (hn : m ≤ n)
    (h : sequenceEnds s e n a = true) : sequenceEnds s e m a = true := by
  induction m generalizing a n with
  | zero => simp [sequenceEnds, eq_of_distance_zero (Nat.le_zero.1 hm)]
  | succ m ih =>
    obtain ⟨n, rfl⟩ : ∃ k, n = k + 1 := ⟨n - 1, by omega⟩
    rw [sequenceEnds_succ] at h ⊢
    refine h.imp_right fun h w0 op hw ho => ?_
    obtain ⟨hl, hs⟩ := h w0 op hw ho
    have h4 := (opLength_even_ge_four op).2
    exact ⟨hl, ih (by rw [distance_add hl]; omega) (by omega) hs⟩

/-- The end of a sequence depends on its own bytes alone. -/
theorem sequenceEnds_congr {s t : State} {e a : Long} {n : Nat} (hc : t.cfg = s.cfg) (ha : a[0] = false) (he : e[0] = false)
    (hb : ∀ k < (e - a).toNat, byteAt t (a + BitVec.ofNat 32 k) = byteAt s (a + BitVec.ofNat 32 k))
    (h : sequenceEnds s e n a = true) : sequenceEnds t e n a = true := by
  induction n generalizing a with
  | zero => exact h
  | succ n ih =>
    rw [sequenceEnds_succ] at h ⊢
    by_cases hae : a = e
    · exact .inl hae
    refine .inr fun w0 op hw ho => ?_
    have h2 := two_le_distance ha he hae
    rw [loadBytes_congr (sz := .word) hc fun k (hk : k < 2) => hb k (by omega)] at hw
    obtain ⟨hl, hs⟩ := h.resolve_left hae w0 op hw ho
    refine ⟨hl, ih (even_add ha (opLength_even_ge_four op).1) (fun k hk => ?_) hs⟩
    rw [distance_add hl] at hk
    rw [add_ofNat_add]
    exact hb _ (by omega)

/-! ### What one step keeps -/

/-- What a step from `s` to `t` keeps of the parameters, memory and SR, an exception included. -/
structure Kept (s t : State) : Prop where
  cfg : t.cfg = s.cfg
  memory : Memory.wf s.mem = true → Memory.wf t.mem = true
  inRange : (∀ c ∈ s.mem, c.1 < 2 ^ s.cfg.addrBits) → ∀ c ∈ t.mem, c.1 < 2 ^ s.cfg.addrBits
  code : ∀ x, inRegions s.cfg.memMap.code (reduce s.cfg x) = true → byteAt t x = byteAt s x
  srReservedZero : t.sr &&& ~~~srMask s.cfg.cpu = 0
  traceOff : flagT s = false → flagT t = false

theorem Kept.inv {s t : State} (h : Kept s t) (hs : Inv s) : Inv t where
  memory := h.memory hs.memory
  inRange := by rw [h.cfg]; exact h.inRange hs.inRange
  srReservedZero := by rw [h.cfg]; exact h.srReservedZero
  traceOff := h.traceOff hs.traceOff

/-- A write of SR leaves the bits drawn as 0 at 0 (R35). -/
theorem writeSr_srReservedZero (s : State) (v : Word) : (writeSr s v).sr &&& ~~~srMask s.cfg.cpu = 0 := by
  simp [writeSr, BitVec.and_assoc]

theorem flagT_of_systemByte {s t : State} (h : systemByte t = systemByte s) : flagT t = flagT s := by
  rw [flagT_eq, flagT_eq, h]

/-- ANDI to SR never turns trace on (R116). -/
theorem flagT_writeSr_and {s : State} (imm : Word) (h : flagT s = false) : flagT (writeSr s (readSr s &&& imm)) = false := by
  unfold flagT at h ⊢
  simp [h]

/-- An instruction that writes no memory. -/
theorem kept_of_mem {s t : State} (hc : t.cfg = s.cfg) (hm : t.mem = s.mem) (hr : t.sr &&& ~~~srMask s.cfg.cpu = 0)
    (ht : flagT s = false → flagT t = false) : Kept s t :=
  ⟨hc, by rw [hm]; exact id, by rw [hm]; exact id, fun x _ => byteAt_congr hm hc x, hr, ht⟩

/-- A data form with a destination in memory: its one store reaches no byte of `code` (R65). -/
theorem kept_of_memoryResult {sz : Size} {imm old : BitVec sz.bits} {m : MemEa} {s : State} (n : Nat)
    (ha : admitsAll .data sz s.cfg (effectiveAddress sz s m) = true) : Kept s (advancePc (memoryResult sz imm old m s) n) where
  cfg := memoryResult_cfg ..
  memory h := by rw [advancePc_mem, memoryResult_mem]; exact storeBytes_wf h
  inRange h := by rw [advancePc_mem, memoryResult_mem]; exact storeBytes_inRange h
  code x hx := by
    rw [byteAt_congr (advancePc_mem ..) (advancePc_cfg ..), byteAt_memoryResult, byteAt_storeBytes_other (not_code_of_admitted ha hx)]
  srReservedZero := by
    rw [advancePc_sr, memoryResult, updateAfter_sr, storeBytes_sr, ← updateBefore_cfg sz s m]
    exact writeSr_srReservedZero (updateBefore sz s m) _
  traceOff h := by
    rw [← h, flagT, flagT, readSr_advancePc]
    simp only [readSr_memoryResult]
    exact flagT_of_systemByte (systemByte_dataFlags ..)

theorem kept_of_takePrivilegeViolation {s t : State} (h : takePrivilegeViolation s = .next t) : Kept s t := by
  obtain ⟨hc, -, -, -, -, -, hr, hw, hi, hb⟩ := takeException_frame h
  refine ⟨hc, hw, hi, hb, by rw [hr]; exact writeSr_srReservedZero s _, fun _ => ?_⟩
  rw [← flagT_enterSupervisor s, flagT, flagT, readSr, readSr, hr, hc]
  rfl

theorem kept_of_exec {i : Instr} {s t : State} (h : exec i s = .next t) : Kept s t := by
  rcases exec_cases h with ⟨imm, rfl, -, rfl⟩ | ⟨imm, rfl, -, -, rfl⟩ | ⟨imm, -, -, hp⟩ | ⟨sz, imm, r, rfl, -, rfl⟩ |
    ⟨sz, imm, old, m, rfl, -, -, ha, -, rfl⟩
  · exact kept_of_mem rfl rfl (writeSr_srReservedZero s _) (flagT_of_systemByte (systemByte_writeCcr ..)).trans
  · exact kept_of_mem rfl rfl (writeSr_srReservedZero s _) (flagT_writeSr_and imm)
  · exact kept_of_takePrivilegeViolation hp
  · exact kept_of_mem rfl rfl (writeSr_srReservedZero s _) (flagT_of_systemByte (systemByte_dataFlags ..)).trans
  · exact kept_of_memoryResult _ ha

theorem kept_of_step {s t : State} (h : step s = .next t) : Kept s t := by
  rcases (step_cases h).2 with ⟨i, -, he, -⟩ | ⟨-, hp, -⟩
  · exact kept_of_exec he
  · exact kept_of_takePrivilegeViolation hp

/-! ### Where one step leads -/

/-- An instruction that takes no exception leaves `pc` just past its words (R27). -/
theorem pc_of_exec {i : Instr} {s t : State} (h : exec i s = .next t) (hn : ∀ imm, i = .andiWSr imm → supervisor s = true) :
    t.pc = s.pc + BitVec.ofNat 32 i.length := by
  rcases exec_cases h with ⟨imm, rfl, -, rfl⟩ | ⟨imm, rfl, -, -, rfl⟩ | ⟨imm, hi, hs, -⟩ | ⟨sz, imm, r, rfl, -, rfl⟩ |
    ⟨sz, imm, old, m, rfl, -, -, -, -, rfl⟩
  · rfl
  · rfl
  · rw [hn imm hi] at hs
    cases hs
  · rw [length_andi]
    rfl
  · rw [length_andi, advancePc_pc, memoryResult_pc]

/-- A step that takes no exception moves `pc` by the length that the operation word at `pc` tells. -/
theorem pc_of_step {s t : State} (h : step s = .next t) (ht : traps s = false) :
    ∃ w0 op, loadBytes .word s s.pc = .next w0 ∧ decodeOp w0 = .ok op ∧ t.pc = s.pc + BitVec.ofNat 32 (opLength op) := by
  rcases (step_cases h).2 with ⟨i, hf, he, -⟩ | ⟨-, -, ht'⟩
  · obtain ⟨w0, ws, rest, hr, hd, hv⟩ := fetch_eq_instr hf
    obtain ⟨-, -, hw⟩ := memRead_eq_next hr
    obtain ⟨op, ho, hops⟩ := decodeOp_of_decodeWords hd
    refine ⟨w0, op, hw, ho, ?_⟩
    rw [opLength_of_decodeOperands hops]
    refine pc_of_exec he fun imm hi => ?_
    subst hi
    simpa [violatesPrivilege, eq_of_decodeWords_andiWSr hd] using hv
  · rw [ht] at ht'
    cases ht'

theorem fetch_of_violation {s : State} (hs : supervisor s = false) (hr : memRead .fetch .word s s.pc = .next 0x027C) :
    fetch s = .privilegeViolation := by
  unfold fetch fetchWord
  rw [hr]
  simp [violatesPrivilege, hs]

/-! ### The rules of a run -/

section runToEnd
variable {e : Long} {k : Nat} {s t : State}

theorem runToEnd_at_end (k : Nat) (h : s.pc = e) : runToEnd e k s = .normal s := by
  cases k <;> simp [runToEnd, h]

theorem runToEnd_zero_of_ne (h : s.pc ≠ e) : runToEnd e 0 s = .running s := by
  simp [runToEnd, h]

theorem runToEnd_of_trap (h : s.pc ≠ e) (hs : step s = .next t) (ht : traps s = true) : runToEnd e (k + 1) s = .trapped t := by
  simp [runToEnd, h, hs, ht]

theorem runToEnd_of_step (h : s.pc ≠ e) (hs : step s = .next t) (ht : traps s = false) :
    runToEnd e (k + 1) s = runToEnd e k t := by
  simp [runToEnd, h, hs, ht]

theorem runToEnd_of_fault {f : Fault} (h : s.pc ≠ e) (hs : step s = .fault f) : runToEnd e (k + 1) s = .fault f := by
  simp [runToEnd, h, hs]

theorem runToEnd_of_refused {f : Refusal} (h : s.pc ≠ e) (hs : step s = .refused f) : runToEnd e (k + 1) s = .refused f := by
  simp [runToEnd, h, hs]

end runToEnd

/-- The state in which a run ends, or in which its steps are used up. -/
def RunEnd.state? : RunEnd → Option State
  | .normal s | .trapped s | .running s => some s
  | .fault _ | .refused _ => none

/-- A property that every step keeps holds in the state in which a run ends. -/
theorem runToEnd_keeps {P : State → Prop} (hP : ∀ s t, P s → step s = .next t → P t) {e : Long} {k : Nat} {s t : State} (hs : P s)
    (h : (runToEnd e k s).state? = some t) : P t := by
  induction k generalizing s with
  | zero =>
    by_cases he : s.pc = e
    · rw [runToEnd_at_end 0 he] at h
      cases h
      exact hs
    · rw [runToEnd_zero_of_ne he] at h
      cases h
      exact hs
  | succ k ih =>
    by_cases he : s.pc = e
    · rw [runToEnd_at_end _ he] at h
      cases h
      exact hs
    cases hstep : step s with
    | next u =>
      cases ht : traps s with
      | true =>
        rw [runToEnd_of_trap he hstep ht] at h
        cases h
        exact hP s t hs hstep
      | false =>
        rw [runToEnd_of_step he hstep ht] at h
        exact ih (hP s u hs hstep) h
    | fault f =>
      rw [runToEnd_of_fault he hstep] at h
      cases h
    | refused f =>
      rw [runToEnd_of_refused he hstep] at h
      cases h

/-! ### Launched runs -/

theorem inv_of_launchState {e : Long} {s : State} (h : LaunchState e s) : Inv s := by
  obtain ⟨-, -, hr, ht, ⟨-, hm, hi⟩, -⟩ := h
  exact ⟨hm, hi, hr, ht⟩

/-- The instruction at the `pc` of a launch state ends no later than `END`, and the state after it is a launch state. -/
theorem launchState_of_kept {e : Long} {s t : State} {w0 : Word} {op : Op} (h : LaunchState e s) (hne : s.pc ≠ e) (hk : Kept s t)
    (hw : loadBytes .word s s.pc = .next w0) (ho : decodeOp w0 = .ok op) (hpc : t.pc = s.pc + BitVec.ofNat 32 (opLength op)) :
    LaunchState e t ∧ (e - t.pc).toNat + 4 ≤ (e - s.pc).toNat := by
  have hi := hk.inv (inv_of_launchState h)
  obtain ⟨hpe, hee, -, -, ⟨hwf, -, -⟩, hcode, hend, -⟩ := h
  obtain ⟨heven, hfour⟩ := opLength_even_ge_four op
  obtain ⟨n, hn⟩ : ∃ n, (e - s.pc).toNat = n + 1 :=
    ⟨_, (Nat.succ_pred fun hz => hne (eq_of_distance_zero hz)).symm⟩
  rw [EndPastLastWord, hn] at hend
  obtain ⟨hle, hrest⟩ := sequenceEnds_next hend hne hw ho
  have hdist : (e - t.pc).toNat = (e - s.pc).toNat - opLength op := by rw [hpc, distance_add hle]
  have hpt : PcEven t := by rw [PcEven, hpc]; exact even_add hpe heven
  have hcode' : CodeInCode e t := by
    intro k hk'
    rw [hk.cfg, hpc, add_ofNat_add]
    exact hcode _ (by omega)
  have hend' : EndPastLastWord e t := by
    refine sequenceEnds_congr hk.cfg hpt hee (fun k hk' => hk.code _ ?_) ?_
    · have := hcode' k hk'
      rwa [hk.cfg] at this
    · rw [← hpc] at hrest
      exact sequenceEnds_less_fuel le_rfl (by omega) hrest
  exact ⟨⟨hpt, hee, hi.srReservedZero, hi.traceOff, ⟨by rw [hk.cfg]; exact hwf, hi.memory, hi.inRange⟩, hcode', hend', trivial,
    trivial⟩, by omega⟩

/-- A step that takes no exception goes from a launch state to one that is nearer to `END`: the operation word at `pc` tells how far it
goes, and it writes no code. -/
theorem launchState_of_step {e : Long} {s t : State} (h : LaunchState e s) (hne : s.pc ≠ e) (hs : step s = .next t)
    (ht : traps s = false) : LaunchState e t ∧ (e - t.pc).toNat + 4 ≤ (e - s.pc).toNat := by
  obtain ⟨w0, op, hw, ho, hpc⟩ := pc_of_step hs ht
  exact launchState_of_kept h hne (kept_of_step hs) hw ho hpc

/-- A run with a step for every four bytes up to `END` has ended, by induction on the steps. -/
theorem runToEnd_ends {e : Long} {s : State} {k : Nat} (h : LaunchState e s) (hk : (e - s.pc).toNat ≤ 4 * k) :
    (∃ t, runToEnd e k s = .normal t ∧ t.pc = e) ∨ (∃ t, runToEnd e k s = .trapped t) ∨
    (∃ f, runToEnd e k s = .refused f) ∨ (∃ f, runToEnd e k s = .fault f) := by
  by_cases he : s.pc = e
  · exact .inl ⟨s, runToEnd_at_end k he, he⟩
  induction k generalizing s with
  | zero => exact absurd (eq_of_distance_zero (Nat.le_zero.1 hk)) he
  | succ k ih =>
    cases hstep : step s with
    | next t =>
      cases ht : traps s with
      | true => exact .inr (.inl ⟨t, runToEnd_of_trap he hstep ht⟩)
      | false =>
        obtain ⟨hl, hd⟩ := launchState_of_step h he hstep ht
        rw [runToEnd_of_step he hstep ht]
        by_cases he' : t.pc = e
        · exact .inl ⟨t, runToEnd_at_end k he', he'⟩
        · exact ih hl (by omega) he'
    | fault f => exact .inr (.inr (.inr ⟨f, runToEnd_of_fault he hstep⟩))
    | refused f => exact .inr (.inr (.inl ⟨f, runToEnd_of_refused he hstep⟩))

end Sys2Proof.Machine

open Sys2Proof Sys2Proof.Machine

/-! ### The obligations -/

/-- Settles O38: every step keeps the invariant, and so does a run. -/
theorem runKeepsInvariant : Obligations.RunKeepsInvariant := by
  intro e k s t hs h
  refine runToEnd_keeps (fun s t hs h => (kept_of_step h).inv hs) (e := e) (k := k) hs ?_
  rcases h with h | h | h <;> rw [h] <;> rfl

/-- Settles O52, by `launchState_of_step`. -/
theorem launchStateSurvivesStep : Obligations.LaunchStateSurvivesStep :=
  fun _ _ _ h hne hs ht => launchState_of_step h hne hs ht

/-- Settles O53: a launch is the run from its launch state, which ends by `runToEnd_ends`. -/
theorem launchedRunEnds : Obligations.LaunchedRunEnds := by
  intro e s k h hk
  simpa only [launch, if_pos h, Option.some.injEq] using runToEnd_ends h hk

/-- Settles O24: the fetch finds the violation, so the step is the entry and the run ends there. -/
theorem runEndsAtTrap : Obligations.RunEndsAtTrap := by
  intro s t e k hl hne hs hr hp
  have hf := fetch_of_violation hs hr
  refine runToEnd_of_trap hne ?_ (by simp [traps, hf])
  rw [step_of_fetch hl, hf]
  exact hp

end

section
/-! PROOFS of the family 10_state.md: what a step keeps of the state (R23, R27, R35), what it reads of it (R24), and registers that hold
no value (R37). First the equations, the congruences and the rules for reading words that the proofs share; then the obligations. -/

namespace Sys2Proof

/-! ### How many words an instruction takes (R89, R90) -/

/-- The length in bytes is that of the encoding (R90). -/
theorem length_eq_encode (i : Instr) : i.length = 2 * (encode i).length := by
  have andi (sz : Size) (imm : BitVec sz.bits) (e : Ea) :
      (Instr.andi sz imm e).length = 2 * (encode (Instr.andi sz imm e)).length := by
    rw [length_andi, encode_andi]
    cases sz <;> cases e with
    | dr r => rfl
    | mem m => cases m <;> rfl
  rcases Machine.instr_cases i with ⟨imm, rfl⟩ | ⟨imm, rfl⟩ | ⟨sz, imm, r, rfl⟩ | ⟨sz, imm, m, rfl⟩
  · rfl
  · rfl
  · exact andi sz imm (.dr r)
  · exact andi sz imm (.mem m)

theorem length_of_decodeWord {w : Word} {ws rest : List Word} (h : decodeWord ws = .done w rest) : ws.length = 1 + rest.length := by
  cases ws with
  | nil => cases h
  | cons w ws => cases h; simp [Nat.add_comm]

theorem length_of_decodeImm {sz : Size} {imm : BitVec sz.bits} {ws rest : List Word} (h : decodeImm sz ws = .done imm rest) :
    ws.length = (if sz = .long then 2 else 1) + rest.length := by
  rw [immWords_of_decodeImm h]
  cases sz <;> simp [immWords, longWords] <;> omega

theorem length_of_decodeEa {m : Mode} {e : Ea} {ws rest : List Word} (h : decodeEa m ws = .done e rest) :
    ws.length = extensionWords m + rest.length := by
  cases m with
  | dr r | ind r | postInc r | preDec r => cases h; simp [extensionWords]
  | disp r | absW =>
    obtain ⟨a, ha, -⟩ := map_eq_done h
    exact length_of_decodeWord ha
  | index r =>
    obtain ⟨x, hx, -⟩ := map_eq_done h
    rw [briefWord_of_decodeBrief hx]
    simp [extensionWords, Nat.add_comm]
  | absL =>
    obtain ⟨a, ha, -⟩ := map_eq_done h
    exact length_of_decodeImm (sz := .long) ha

/-- The words that were read are as many as the operation word tells (R95). -/
theorem opLength_add_rest {op : Op} {w0 : Word} {ws rest : List Word} {i : Instr} (ho : decodeOp w0 = .ok op)
    (h : decodeWords (w0 :: ws) = .done i rest) : opLength op + 2 * rest.length = 2 * (ws.length + 1) := by
  simp only [decodeWords, ho] at h
  cases op with
  | ccr =>
    obtain ⟨imm, hi, -⟩ := map_eq_done h
    have := length_of_decodeImm (sz := .byte) hi
    simp at this
    simp only [opLength]
    omega
  | sr =>
    obtain ⟨imm, hi, -⟩ := map_eq_done h
    have := length_of_decodeWord hi
    simp only [opLength]
    omega
  | ea sz m =>
    simp only [decodeOperands] at h
    split at h
    · cases h
    · cases h
    · rename_i imm ws' hi
      obtain ⟨e, he, -⟩ := map_eq_done h
      have hi' := length_of_decodeImm hi
      have he' := length_of_decodeEa he
      simp only [opLength]
      by_cases hz : sz = .long
      · rw [if_pos hz] at hi' ⊢
        omega
      · rw [if_neg hz] at hi' ⊢
        omega

/-! ### Words beyond the ones that decide (R95) -/

/-- What was read, with more words left over. -/
def Parsed.append {α : Type} (p : Parsed α) (more : List Word) : Parsed α :=
  match p with
  | .done a rest => .done a (rest ++ more)
  | .incomplete => .incomplete
  | .error e => .error e

theorem Parsed.map_append {α β : Type} (f : α → β) (p : Parsed α) (more : List Word) :
    (p.append more).map f = (p.map f).append more := by
  cases p <;> rfl

theorem Parsed.append_eq_incomplete {α : Type} {p : Parsed α} {more : List Word} : p.append more = .incomplete ↔ p = .incomplete := by
  cases p <;> simp [Parsed.append]

theorem Parsed.map_eq_incomplete {α β : Type} {f : α → β} {p : Parsed α} : p.map f = .incomplete ↔ p = .incomplete := by
  cases p <;> simp [Parsed.map]

/-- More words change nothing that was decided. -/
def Extends {α : Type} (read : List Word → Parsed α) : Prop :=
  ∀ ws more, read ws ≠ .incomplete → read (ws ++ more) = (read ws).append more

theorem Extends.map {α β : Type} {read : List Word → Parsed α} (h : Extends read) (f : α → β) :
    Extends fun ws => (read ws).map f := by
  intro ws more hne
  simp only [ne_eq, Parsed.map_eq_incomplete] at hne
  simp only [h ws more hne, Parsed.map_append]

theorem extends_decodeImmByte : Extends decodeImmByte := by
  intro ws more h
  cases ws with
  | nil => exact absurd rfl h
  | cons w ws =>
    simp only [List.cons_append, decodeImmByte]
    split <;> rfl

theorem extends_decodeWord : Extends decodeWord := by
  intro ws more h
  cases ws with
  | nil => exact absurd rfl h
  | cons w ws => rfl

theorem extends_decodeLong : Extends decodeLong := by
  intro ws more h
  match ws, h with
  | [], h | [_], h => exact absurd rfl h
  | hi :: lo :: ws, _ => rfl

theorem extends_decodeBrief : Extends decodeBrief := by
  intro ws more h
  cases ws with
  | nil => exact absurd rfl h
  | cons w ws =>
    simp only [List.cons_append, decodeBrief]
    split <;> rfl

theorem extends_decodeImm (sz : Size) : Extends (decodeImm sz) := by
  cases sz
  · exact extends_decodeImmByte
  · exact extends_decodeWord
  · exact extends_decodeLong

theorem extends_decodeEa (m : Mode) : Extends (decodeEa m) := by
  cases m with
  | dr r | ind r | postInc r | preDec r => exact fun _ _ _ => rfl
  | disp r | absW => exact extends_decodeWord.map _
  | index r => exact extends_decodeBrief.map _
  | absL => exact extends_decodeLong.map _

theorem extends_decodeOperands (op : Op) : Extends (decodeOperands op) := by
  cases op with
  | ccr => exact extends_decodeImmByte.map _
  | sr => exact extends_decodeWord.map _
  | ea sz m =>
    intro ws more h
    simp only [decodeOperands] at h ⊢
    cases hi : decodeImm sz ws with
    | incomplete => rw [hi] at h; exact absurd rfl h
    | error e => rw [extends_decodeImm sz ws more (by simp [hi]), hi]; rfl
    | done imm rest =>
      rw [hi] at h
      rw [extends_decodeImm sz ws more (by simp [hi]), hi]
      exact (extends_decodeEa m).map _ rest more h

theorem extends_decodeWords : Extends decodeWords := by
  intro ws more h
  cases ws with
  | nil => exact absurd rfl h
  | cons w0 ws =>
    simp only [List.cons_append, decodeWords] at h ⊢
    split
    · rfl
    · rename_i op ho
      rw [ho] at h
      exact extends_decodeOperands op ws more h

/-- Words that begin an incomplete instruction are incomplete. -/
theorem decodeWords_incomplete_of_append {ws more : List Word} (h : decodeWords (ws ++ more) = .incomplete) :
    decodeWords ws = .incomplete := by
  by_contra hne
  rw [extends_decodeWords ws more hne, Parsed.append_eq_incomplete] at h
  exact hne h

end Sys2Proof

namespace Sys2Proof.Machine

/-! ### The fetch at the top of the address space (R27) -/

/-- The words of a fetched instruction do not pass the top of the address space: each next word is fetched below it, at an even
address. -/
theorem fetchRest_below_top {s : State} {n : Nat} {w0 : Word} {ws : List Word} {op : Op} {i : Instr} (ho : decodeOp w0 = .ok op)
    (heven : s.pc[0] = false) (hle : s.pc.toNat + 2 * (ws.length + 1) ≤ 2 ^ 32) (h : fetchRest s n (w0 :: ws) = .instr i) :
    s.pc.toNat + opLength op ≤ 2 ^ 32 := by
  induction n generalizing ws with
  | zero => cases h
  | succ n ih =>
    unfold fetchRest at h
    split at h
    · rename_i hd
      have := opLength_add_rest ho hd
      omega
    · cases h
    · split at h
      · cases h
      · rename_i htop
        split at h
        · rename_i w _
          refine ih (ws := ws ++ [w]) ?_ h
          rw [even_iff] at heven
          simp only [List.length_cons, List.length_append, List.length_nil] at htop ⊢
          omega
        · cases h
        · cases h

/-- Where the words up to the top leave the instruction incomplete, the fetch is refused there (R27): by induction on the words that are
still to be fetched. -/
theorem fetchRest_wraps {s : State} {n : Nat} {ws more : List Word} (hd : decodeWords (ws ++ more) = .incomplete)
    (htop : s.pc.toNat + 2 * (ws ++ more).length = 2 ^ 32)
    (hr : ∀ k (h : k < (ws ++ more).length), ws.length ≤ k →
      memRead .fetch .word s (s.pc + BitVec.ofNat 32 (2 * k)) = .next (ws ++ more)[k]) :
    fetchRest s n ws = .refused (.instructionWraps s.pc) := by
  induction more generalizing n ws with
  | nil =>
    cases n with
    | zero => rfl
    | succ n =>
      rw [List.append_nil] at hd htop
      unfold fetchRest
      rw [hd]
      simp only
      rw [if_pos (by omega)]
  | cons w more ih =>
    cases n with
    | zero => rfl
    | succ n =>
      have hw : memRead .fetch .word s (s.pc + BitVec.ofNat 32 (2 * ws.length)) = .next w := by
        simpa using hr ws.length (by simp) le_rfl
      have hassoc : ws ++ w :: more = ws ++ [w] ++ more := by simp
      rw [fetchRest_word (decodeWords_incomplete_of_append hd) (by simp at htop; omega) hw]
      simp only [hassoc] at hd htop hr
      refine ih hd htop fun k hk hle => hr k hk ?_
      simp at hle
      omega

theorem fetch_of_word {s : State} {w0 : Word} (hr : memRead .fetch .word s s.pc = .next w0) (hv : violatesPrivilege s w0 = false) :
    fetch s = fetchRest s 6 [w0] := by
  unfold fetch fetchWord
  rw [hr]
  simp [hv]

/-- ANDI to SR is fetched in supervisor mode only (R114). -/
theorem supervisor_of_fetch_andiWSr {s : State} {imm : Word} (h : fetch s = .instr (.andiWSr imm)) : supervisor s = true := by
  obtain ⟨w0, ws, rest, -, hd, hv⟩ := fetch_eq_instr h
  simpa [violatesPrivilege, eq_of_decodeWords_andiWSr hd] using hv

/-- A step is the violation exactly where the fetch finds it, so past the privilege check a step that answers has run an instruction. -/
theorem exec_of_step {s t : State} {w0 : Word} (h : step s = .next t) (hr : memRead .fetch .word s s.pc = .next w0)
    (hv : violatesPrivilege s w0 = false) : ∃ i, fetchRest s 6 [w0] = .instr i ∧ exec i s = .next t := by
  rcases (step_cases h).2 with ⟨i, hf, he, -⟩ | ⟨hf, -, -⟩
  · exact ⟨i, by rw [← hf, fetch_of_word hr hv], he⟩
  · rw [fetch_of_word hr hv] at hf
    exact absurd hf (fetchRest_ne_privilegeViolation _ _ _)

/-! ### Equations of the meanings as a check of values and a result (R37) -/

theorem exec_register (sz : Size) (imm : BitVec sz.bits) (r : Fin 8) (s : State) :
    exec (Instr.andi sz imm (.dr r)) s =
      andThen (require [.d r] s) fun _ => .next (advancePc (registerResult sz imm r s) (eaLength sz (.dr r))) := by
  rw [exec_andi]
  show andThen (andThen (require [.d r] s) _) _ = _
  cases require [.d r] s <;> rfl

theorem exec_andiBCcr (imm : Byte) (s : State) :
    exec (.andiBCcr imm) s = andThen (require [.flags] s) fun _ => .next (advancePc (writeCcr s (readCcr s &&& imm)) 4) := rfl

theorem exec_andiWSr {imm : Word} {s : State} (h : supervisor s = true) :
    exec (.andiWSr imm) s = andThen (require [.flags] s) fun _ => .next (advancePc (writeSr s (readSr s &&& imm)) 4) := by
  show execAndiWSr imm s = _
  rw [execAndiWSr, if_pos h]

/-- A check of values that do not hold refuses whatever comes after it, at one of them. -/
theorem require_andThen_refused {α : Type} {rs : List RegName} {s : State} (f : Unit → Res α) {q : RegName} (hq : q ∈ rs)
    (hl : s.noValue.lacks q = true) :
    ∃ p ∈ rs, s.noValue.lacks p = true ∧ andThen (require rs s) f = .refused (.valuelessRegister p) := by
  have hh : holds s rs = false := by
    rw [holds, List.all_eq_false]
    exact ⟨q, hq, by simp [hl]⟩
  obtain ⟨p, hp, hpl, hr⟩ := require_of_not_holds hh
  exact ⟨p, hp, hpl, by rw [hr, andThen_refused]⟩

/-- A check of one register that does not hold a value. -/
theorem require_one_andThen_refused {α : Type} {s : State} (f : Unit → Res α) {q : RegName} (hl : s.noValue.lacks q = true) :
    andThen (require [q] s) f = .refused (.valuelessRegister q) := by
  obtain ⟨p, hp, -, h⟩ := require_andThen_refused f (List.mem_singleton_self q) hl
  rwa [List.mem_singleton.1 hp] at h

/-! ### What an effective address reads (R161) -/

theorem eaRegisters_congr {s t : State} (hs : supervisor t = supervisor s) (m : MemEa) : eaRegisters t m = eaRegisters s m := by
  have ha (r : Fin 8) : addressReg t r = addressReg s r := addressReg_congr hs
  cases m with
  | ind r | postInc r | preDec r | disp r _ => simp only [eaRegisters, ha]
  | index r x =>
    have hx : indexReg t x.reg = indexReg s x.reg := by
      cases x.reg with
      | d q => rfl
      | a q => exact ha q
    simp only [eaRegisters, ha, hx]
  | absW a | absL a => rfl

/-- An effective address reads no register but those it names. -/
theorem effectiveAddress_congr {sz : Size} {s t : State} {m : MemEa}
    (ha : ∀ r, addressReg s r ∈ eaRegisters s m → readA t r = readA s r)
    (hd : ∀ r, .d r ∈ eaRegisters s m → readD t r = readD s r) : effectiveAddress sz t m = effectiveAddress sz s m := by
  cases m with
  | ind r | postInc r | preDec r | disp r _ => simp only [effectiveAddress, ha r (List.mem_singleton_self _)]
  | index r x =>
    have hx : readIndexReg t x.reg = readIndexReg s x.reg := by
      obtain ⟨reg, _, _⟩ := x
      cases reg with
      | d q => exact hd q (List.mem_cons_of_mem _ (List.mem_singleton_self _))
      | a q => exact ha q (List.mem_cons_of_mem _ (List.mem_singleton_self _))
    simp only [effectiveAddress, ha r List.mem_cons_self, indexValue, hx]
  | absW a | absL a => rfl

/-! ### The stack pointer that A7 does not name (R24) -/

/-- Replace the stack pointer that A7 does not name: USP in supervisor mode, SSP in user mode. -/
def setInactive (mode : Bool) (v : Long) (s : State) : State :=
  if mode then { s with usp := v } else { s with ssp := v }

section setInactive
variable (mode : Bool) (v : Long) (s : State)
@[simp] theorem setInactive_cfg : (setInactive mode v s).cfg = s.cfg := by cases mode <;> rfl
@[simp] theorem setInactive_mem : (setInactive mode v s).mem = s.mem := by cases mode <;> rfl
@[simp] theorem setInactive_noValue : (setInactive mode v s).noValue = s.noValue := by cases mode <;> rfl
@[simp] theorem readD_setInactive (r : Fin 8) : readD (setInactive mode v s) r = readD s r := by cases mode <;> rfl
@[simp] theorem readSr_setInactive : readSr (setInactive mode v s) = readSr s := by cases mode <;> rfl
@[simp] theorem supervisor_setInactive : supervisor (setInactive mode v s) = supervisor s := by cases mode <;> rfl
@[simp] theorem readCcr_setInactive : readCcr (setInactive mode v s) = readCcr s := by cases mode <;> rfl
theorem advancePc_setInactive (n : Nat) : advancePc (setInactive mode v s) n = setInactive mode v (advancePc s n) := by
  cases mode <;> rfl
theorem writeSr_setInactive (w : Word) : writeSr (setInactive mode v s) w = setInactive mode v (writeSr s w) := by
  cases mode <;> rfl
theorem writeCcr_setInactive (b : Byte) : writeCcr (setInactive mode v s) b = setInactive mode v (writeCcr s b) := by
  cases mode <;> rfl
theorem dataFlags_setInactive {w : Nat} (res : BitVec w) :
    dataFlags (setInactive mode v s) res = setInactive mode v (dataFlags s res) := by
  cases mode <;> rfl
theorem writeD_setInactive (sz : Size) (r : Fin 8) (x : BitVec sz.bits) :
    writeD sz (setInactive mode v s) r x = setInactive mode v (writeD sz s r x) := by
  cases mode <;> rfl
theorem storeBytes_setInactive (sz : Size) (a : Long) (x : BitVec sz.bits) :
    storeBytes sz (setInactive mode v s) a x = setInactive mode v (storeBytes sz s a x) := by
  cases mode <;> rfl
end setInactive

section inactive
variable {mode : Bool} {s : State} (h : supervisor s = mode)
include h

theorem readA_setInactive (v : Long) (r : Fin 8) : readA (setInactive mode v s) r = readA s r := by
  unfold readA
  rw [supervisor_setInactive, h]
  cases mode <;> rfl

theorem writeA_setInactive (v : Long) (r : Fin 8) (x : Long) :
    writeA (setInactive mode v s) r x = setInactive mode v (writeA s r x) := by
  unfold writeA
  rw [supervisor_setInactive, h]
  cases mode <;> split <;> rfl

theorem updateBefore_setInactive (sz : Size) (v : Long) (m : MemEa) :
    updateBefore sz (setInactive mode v s) m = setInactive mode v (updateBefore sz s m) := by
  cases m with
  | preDec r => simp only [updateBefore, readA_setInactive h, writeA_setInactive h]
  | ind _ | postInc _ | disp _ _ | index _ _ | absW _ | absL _ => rfl

theorem updateAfter_setInactive (sz : Size) (v : Long) (m : MemEa) :
    updateAfter sz (setInactive mode v s) m = setInactive mode v (updateAfter sz s m) := by
  cases m with
  | postInc r => simp only [updateAfter, readA_setInactive h, writeA_setInactive h]
  | ind _ | preDec _ | disp _ _ | index _ _ | absW _ | absL _ => rfl

theorem effectiveAddress_setInactive (sz : Size) (v : Long) (m : MemEa) :
    effectiveAddress sz (setInactive mode v s) m = effectiveAddress sz s m :=
  effectiveAddress_congr (fun r _ => readA_setInactive h v r) fun r _ => readD_setInactive mode v s r

theorem memoryResult_setInactive (sz : Size) (imm old : BitVec sz.bits) (v : Long) (m : MemEa) :
    memoryResult sz imm old m (setInactive mode v s) = setInactive mode v (memoryResult sz imm old m s) := by
  have hs : supervisor (storeBytes sz (dataFlags (updateBefore sz s m) (old &&& imm)) (effectiveAddress sz s m) (old &&& imm)) = mode :=
    ((supervisor_dataFlags (updateBefore sz s m) (old &&& imm)).trans (by simp [supervisor])).trans h
  simp only [memoryResult, updateBefore_setInactive h, effectiveAddress_setInactive h, dataFlags_setInactive, storeBytes_setInactive,
    updateAfter_setInactive hs]

/-- An instruction that takes no exception neither reads nor writes the stack pointer that A7 does not name. -/
theorem exec_setInactive (v : Long) (i : Instr) (hi : ∀ imm, i = .andiWSr imm → mode = true) :
    exec i (setInactive mode v s) = andThen (exec i s) fun t => .next (setInactive mode v t) := by
  have hreq (rs : List RegName) : require rs (setInactive mode v s) = require rs s := require_congr (setInactive_noValue ..)
  rcases instr_cases i with ⟨imm, rfl⟩ | ⟨imm, rfl⟩ | ⟨sz, imm, r, rfl⟩ | ⟨sz, imm, m, rfl⟩
  · rw [exec_andiBCcr, exec_andiBCcr, hreq, readCcr_setInactive, writeCcr_setInactive, advancePc_setInactive]
    cases require [.flags] s <;> rfl
  · have hs : supervisor s = true := h.trans (hi imm rfl)
    rw [exec_andiWSr hs, exec_andiWSr (by simpa using hs), hreq, readSr_setInactive, writeSr_setInactive, advancePc_setInactive]
    cases require [.flags] s <;> rfl
  · have hres : registerResult sz imm r (setInactive mode v s) = setInactive mode v (registerResult sz imm r s) := by
      simp only [registerResult, readD_setInactive, dataFlags_setInactive, writeD_setInactive]
    rw [exec_register, exec_register, hreq, hres, advancePc_setInactive]
    cases require [.d r] s <;> rfl
  · rw [exec_memory, exec_memory, hreq, eaRegisters_congr (supervisor_setInactive ..), effectiveAddress_setInactive h,
      memRead_congr (setInactive_mem ..) (setInactive_cfg ..)]
    simp only [memoryResult_setInactive h, advancePc_setInactive]
    cases require (eaRegisters s m) s with
    | next u => cases memRead .data sz s (effectiveAddress sz s m) <;> rfl
    | fault e | refused e => rfl
end inactive

/-! ### States that differ in what holds no value (R37) -/

/-- Two outcomes are alike: next values in the relation, or the same stop. -/
inductive Alike {α β : Type} (R : α → β → Prop) : Res α → Res β → Prop
  | next {a : α} {b : β} (h : R a b) : Alike R (.next a) (.next b)
  | fault (e : Fault) : Alike R (.fault e) (.fault e)
  | refused (e : Refusal) : Alike R (.refused e) (.refused e)

/-- Going on alike from alike outcomes. -/
theorem Alike.andThen {α β γ δ : Type} {R : α → β → Prop} {Q : γ → δ → Prop} {x : Res α} {y : Res β} {f : α → Res γ}
    {g : β → Res δ} (hx : Alike R x y) (hf : ∀ a b, R a b → Alike Q (f a) (g b)) : Alike Q (Machine.andThen x f) (Machine.andThen y g) := by
  cases hx with
  | next h => exact hf _ _ h
  | fault e => exact .fault e
  | refused e => exact .refused e

/-- Going on alike from one outcome. -/
theorem Alike.andThen_same {α γ δ : Type} {Q : γ → δ → Prop} {f : α → Res γ} {g : α → Res δ} (x : Res α)
    (hf : ∀ a, x = .next a → Alike Q (f a) (g a)) : Alike Q (Machine.andThen x f) (Machine.andThen x g) := by
  cases x with
  | next a => exact hf a rfl
  | fault e => exact .fault e
  | refused e => exact .refused e

/-- Words agree under a mask when they agree in its bits. -/
theorem and_eq_and_iff {w : Nat} {a b m : BitVec w} : a &&& m = b &&& m ↔ ∀ i, m.getLsbD i = true → a.getLsbD i = b.getLsbD i := by
  refine ⟨fun h i hi => ?_, fun h => BitVec.eq_of_getLsbD_eq fun i _ => ?_⟩
  · have := congrArg (·.getLsbD i) h
    simpa [hi] using this
  · rw [BitVec.getLsbD_and, BitVec.getLsbD_and]
    cases hi : m.getLsbD i with
    | false => simp
    | true => rw [h i hi]

/-- Every bit of SR but the five flags always holds a value. -/
theorem getLsbD_seenSr_high (n : NoValue) {i : Nat} (h5 : 5 ≤ i) (h16 : i < 16) : (seenSr n).getLsbD i = true := by
  simp only [seenSr, BitVec.getLsbD_append]
  interval_cases i <;> simp

theorem getLsbD_seenSr_X (n : NoValue) : (seenSr n).getLsbD 4 = !n.x := by
  simp only [seenSr, BitVec.getLsbD_append]
  simp

/-- Where the flags hold values, all of SR does. -/
theorem seenSr_of_flags {n : NoValue} (h : n.lacks .flags = false) : seenSr n = BitVec.allOnes 16 := by
  simp only [NoValue.lacks, Bool.or_eq_false_iff] at h
  obtain ⟨⟨⟨⟨hx, hn⟩, hz⟩, hv⟩, hc⟩ := h
  simp only [seenSr, hx, hn, hz, hv, hc]
  rfl

/-- SR after the data forms is stored as it is read (R35). -/
theorem sr_dataFlags {w : Nat} (s : State) (res : BitVec w) : (dataFlags s res).sr = readSr (dataFlags s res) := by
  simp [readSr, dataFlags, writeCcr, writeSr, BitVec.and_assoc]

/-- The bits of SR are those of its two bytes. -/
theorem getLsbD_readSr (s : State) (i : Nat) :
    (readSr s).getLsbD i = if i < 8 then (readCcr s).getLsbD i else (systemByte s).getLsbD (i - 8) := by
  rw [readSr_eq_append, BitVec.getLsbD_append]

/-- The data forms leave SR above the flags they write (R134). -/
theorem getLsbD_sr_dataFlags_high {w : Nat} (s : State) (res : BitVec w) {i : Nat} (hi : 4 ≤ i) :
    (dataFlags s res).sr.getLsbD i = (readSr s).getLsbD i := by
  rw [sr_dataFlags, getLsbD_readSr, getLsbD_readSr, systemByte_dataFlags]
  split
  · rw [readCcr_dataFlags, ← readCcr_and_flags s]
    simp only [BitVec.getLsbD_append, BitVec.getLsbD_and]
    interval_cases i <;> simp
  · rfl

/-- The four flags the data forms write come from the result alone (R134). -/
theorem getLsbD_sr_dataFlags_low {w : Nat} (s t : State) (res : BitVec w) {i : Nat} (hi : i < 4) :
    (dataFlags t res).sr.getLsbD i = (dataFlags s res).sr.getLsbD i := by
  rw [sr_dataFlags, sr_dataFlags, getLsbD_readSr, getLsbD_readSr, if_pos (by omega), if_pos (by omega)]
  simp only [readCcr_dataFlags, BitVec.getLsbD_append, BitVec.getLsbD_and]
  interval_cases i <;> simp

namespace SameSeen
variable {s t : State} (h : SameSeen s t)
include h

theorem readSr_seen : readSr t &&& seenSr s.noValue = readSr s &&& seenSr s.noValue := by
  have swap (v m : Word) : v &&& m &&& seenSr s.noValue = v &&& seenSr s.noValue &&& m := by ac_rfl
  rw [Machine.readSr, Machine.readSr, h.cfg, swap, h.sr, swap]

theorem systemByte : systemByte t = systemByte s := by
  unfold Machine.systemByte
  apply BitVec.eq_of_getLsbD_eq
  intro i hi
  simp only [BitVec.getLsbD_extractLsb', hi, decide_true, Bool.true_and]
  exact and_eq_and_iff.1 h.readSr_seen _ (getLsbD_seenSr_high _ (by omega) (by omega))

theorem supervisor : supervisor t = supervisor s := by rw [supervisor_eq, supervisor_eq, h.systemByte]

/-- SR is read where the flags hold values. -/
theorem readSr (hf : s.noValue.lacks .flags = false) : readSr t = readSr s := by
  have := h.readSr_seen
  rwa [seenSr_of_flags hf, BitVec.and_allOnes, BitVec.and_allOnes] at this

theorem readD {r : Fin 8} (hr : s.noValue.lacks (.d r) = false) : readD t r = readD s r := h.d r hr

theorem readA {r : Fin 8} (hr : s.noValue.lacks (addressReg s r) = false) : readA t r = readA s r := by
  unfold addressReg at hr
  unfold Machine.readA
  rw [h.supervisor]
  split <;> rename_i h7
  · rw [dif_pos h7] at hr
    exact h.a _ hr
  · rw [dif_neg h7] at hr
    split <;> rename_i hs
    · rw [if_pos hs] at hr
      exact h.ssp hr
    · rw [if_neg hs] at hr
      exact h.usp hr

/-! What each update keeps. -/

theorem withPc (v : Long) : SameSeen { s with pc := v } { t with pc := v } := { h with pc := rfl }

theorem withSsp (v : Long) : SameSeen { s with ssp := v } { t with ssp := v } := { h with ssp := fun _ => rfl }

theorem advancePc (n : Nat) : SameSeen (advancePc s n) (advancePc t n) := by
  unfold Machine.advancePc
  rw [h.pc]
  exact h.withPc _

theorem storeBytes (sz : Size) (a : Long) (v : BitVec sz.bits) : SameSeen (storeBytes sz s a v) (storeBytes sz t a v) :=
  { h with mem := by simp only [Machine.storeBytes, h.mem, h.cfg] }

theorem writeSr (v : Word) : SameSeen (writeSr s v) (writeSr t v) :=
  { h with sr := by simp only [Machine.writeSr, h.cfg] }

theorem dataFlags {w : Nat} (res : BitVec w) : SameSeen (dataFlags s res) (dataFlags t res) :=
  { h with
    noValue := by rw [dataFlags_noValue, dataFlags_noValue, h.noValue]
    d := fun r hr => h.d r ((lacks_dataFlags s res (by simp)).symm.trans hr)
    a := fun r hr => h.a r ((lacks_dataFlags s res (by simp)).symm.trans hr)
    usp := fun hr => h.usp ((lacks_dataFlags s res (by simp)).symm.trans hr)
    ssp := fun hr => h.ssp ((lacks_dataFlags s res (by simp)).symm.trans hr)
    sr := by
      rw [and_eq_and_iff]
      intro i hi
      rcases Nat.lt_or_ge i 4 with h4 | h4
      · exact getLsbD_sr_dataFlags_low s t res h4
      have hb : (seenSr s.noValue).getLsbD i = true := by
        rcases Nat.eq_or_lt_of_le h4 with rfl | h5
        · rw [getLsbD_seenSr_X] at hi ⊢
          exact hi
        · exact getLsbD_seenSr_high _ h5 (BitVec.lt_of_getLsbD hi)
      rw [getLsbD_sr_dataFlags_high _ _ h4, getLsbD_sr_dataFlags_high _ _ h4]
      exact and_eq_and_iff.1 h.readSr_seen i hb }

theorem writeD {sz : Size} {r : Fin 8} (v : BitVec sz.bits) (hr : s.noValue.lacks (.d r) = false) :
    SameSeen (writeD sz s r v) (writeD sz t r v) := by
  have hs : (Machine.writeD sz s r v).noValue = s.noValue := writeD_noValue hr
  have ht : (Machine.writeD sz t r v).noValue = t.noValue := writeD_noValue (h.noValue ▸ hr)
  have hd (q : Fin 8) (hq : s.noValue.lacks (.d q) = false) :
      Machine.readD (Machine.writeD sz t r v) q = Machine.readD (Machine.writeD sz s r v) q := by
    by_cases hqr : q = r
    · subst hqr
      rw [readD_writeD_same, readD_writeD_same, h.readD hr]
    · rw [readD_writeD_other _ _ _ _ hqr, readD_writeD_other _ _ _ _ hqr, h.readD hq]
  exact
    { noValue := by rw [hs, ht, h.noValue]
      cfg := h.cfg
      pc := h.pc
      vbr := h.vbr
      mem := h.mem
      d := fun q hq => hd q (hs ▸ hq)
      a := fun q hq => h.a q (hs ▸ hq)
      usp := fun hq => h.usp (hs ▸ hq)
      ssp := fun hq => h.ssp (hs ▸ hq)
      sr := by rw [hs]; exact h.sr }

theorem writeA {r : Fin 8} (v : Long) (hr : s.noValue.lacks (addressReg s r) = false) :
    SameSeen (writeA s r v) (writeA t r v) := by
  unfold addressReg at hr
  unfold Machine.writeA
  rw [h.supervisor, h.noValue]
  split
  · rename_i h7
    rw [dif_pos h7] at hr
    rw [NoValue.give_of_not_lacks hr]
    refine { h with noValue := rfl, a := fun q hq => ?_ }
    by_cases hqr : r.val = q.val
    · simp [hqr]
    · simpa [hqr] using h.a q hq
  · rename_i h7
    rw [dif_neg h7] at hr
    split <;> rename_i hs
    · rw [if_pos hs] at hr
      rw [NoValue.give_of_not_lacks hr]
      exact { h with noValue := rfl, ssp := fun _ => rfl }
    · rw [if_neg hs] at hr
      rw [NoValue.give_of_not_lacks hr]
      exact { h with noValue := rfl, usp := fun _ => rfl }

theorem updateBefore (sz : Size) {m : MemEa} (hm : holds s (eaRegisters s m) = true) :
    SameSeen (updateBefore sz s m) (updateBefore sz t m) := by
  cases m with
  | preDec r =>
    have hr : s.noValue.lacks (addressReg s r) = false := by simpa [eaRegisters] using hm
    simp only [Machine.updateBefore, h.readA hr]
    exact h.writeA _ hr
  | ind _ | postInc _ | disp _ _ | index _ _ | absW _ | absL _ => exact h

theorem updateAfter (sz : Size) {m : MemEa} (hm : ∀ r, m = .postInc r → s.noValue.lacks (addressReg s r) = false) :
    SameSeen (updateAfter sz s m) (updateAfter sz t m) := by
  cases m with
  | postInc r =>
    have hr := hm r rfl
    simp only [Machine.updateAfter, h.readA hr]
    exact h.writeA _ hr
  | ind _ | preDec _ | disp _ _ | index _ _ | absW _ | absL _ => exact h

theorem eaRegisters (m : MemEa) : eaRegisters t m = eaRegisters s m := eaRegisters_congr h.supervisor m

theorem require (rs : List RegName) : require rs t = require rs s := require_congr h.noValue

/-- Where the registers of an address hold values, the address is one. -/
theorem effectiveAddress (sz : Size) {m : MemEa} (hm : holds s (Machine.eaRegisters s m) = true) :
    effectiveAddress sz t m = effectiveAddress sz s m := by
  have hl : ∀ q ∈ Machine.eaRegisters s m, s.noValue.lacks q = false := by simpa [holds] using hm
  exact effectiveAddress_congr (fun r hr => h.readA (hl _ hr)) fun r hr => h.readD (hl _ hr)

theorem memRead (k : Access) (sz : Size) (a : Long) : memRead k sz t a = memRead k sz s a := memRead_congr h.mem h.cfg

theorem registerResult {sz : Size} {imm : BitVec sz.bits} {r : Fin 8} (hr : holds s [.d r] = true) :
    SameSeen (registerResult sz imm r s) (registerResult sz imm r t) := by
  have hr' : s.noValue.lacks (.d r) = false := by simpa using hr
  simp only [Machine.registerResult, h.readD hr']
  exact (h.dataFlags _).writeD _ ((lacks_dataFlags s _ (by simp)).trans hr')

theorem memoryResult {sz : Size} {imm old : BitVec sz.bits} {m : MemEa} (hm : holds s (Machine.eaRegisters s m) = true) :
    SameSeen (memoryResult sz imm old m s) (memoryResult sz imm old m t) := by
  simp only [Machine.memoryResult, h.effectiveAddress sz hm]
  refine (((h.updateBefore sz hm).dataFlags _).storeBytes ..).updateAfter sz fun r hr => ?_
  subst hr
  have hl : s.noValue.lacks (addressReg s r) = false := by simpa [Machine.eaRegisters] using hm
  have hs : Machine.supervisor (Machine.storeBytes sz (Machine.dataFlags s (old &&& imm)) (Machine.readA s r) (old &&& imm)) =
      Machine.supervisor s := supervisor_dataFlags s _
  exact (congrArg _ (addressReg_congr hs)).trans ((lacks_dataFlags s (old &&& imm) (addressReg_ne_flags s r)).trans hl)

theorem enterSupervisor (hf : s.noValue.lacks .flags = false) : SameSeen (enterSupervisor s) (enterSupervisor t) := by
  rw [Machine.enterSupervisor, Machine.enterSupervisor, h.readSr hf, h.cfg]
  exact h.writeSr _

end SameSeen

/-- The states are one but for what holds no value, and SSP holds one. -/
def SameSeenStack (s t : State) : Prop := SameSeen s t ∧ s.noValue.lacks .ssp = false

theorem memWrite_alike {s t : State} (h : SameSeenStack s t) (sz : Size) (a : Long) (v : BitVec sz.bits) :
    Alike SameSeenStack (memWrite sz s a v) (memWrite sz t a v) := by
  have hc : checkAccess .data sz t a = checkAccess .data sz s a := by simp only [checkAccess, h.1.cfg]
  rw [memWrite, memWrite, hc]
  exact .andThen_same _ fun _ _ => .next ⟨h.1.storeBytes sz a v, h.2⟩

theorem push_alike {s t : State} (h : SameSeenStack s t) (sz : Size) (v : BitVec sz.bits) :
    Alike SameSeenStack (push sz v s) (push sz v t) := by
  rw [push, push, h.1.ssp h.2]
  have hs := h.1.withSsp (s.ssp - BitVec.ofNat 32 sz.bytes)
  exact memWrite_alike ⟨hs, h.2⟩ ..

theorem pushFormat_alike {s t : State} (h : SameSeenStack s t) (n : Nat) : Alike SameSeenStack (pushFormat n s) (pushFormat n t) := by
  rw [pushFormat, pushFormat, h.1.cfg]
  cases s.cfg.cpu with
  | mc68000 => exact .next h
  | mc68010 | mc68020 | mc68030 | mc68040 | mc68060 => exact push_alike h ..

/-- Taking an exception reads the flags and SSP, which must hold values, and no other register (log 25). -/
theorem takeException_alike {s t : State} (h : SameSeen s t) (n : Nat) : Alike SameSeen (takeException n s) (takeException n t) := by
  rw [takeException, takeException, h.require]
  refine .andThen_same _ fun _ hh => ?_
  obtain ⟨hf, hp⟩ : s.noValue.lacks .flags = false ∧ s.noValue.lacks .ssp = false := by simpa using require_next hh
  rw [h.pc, h.readSr hf]
  have h0 : SameSeenStack (enterSupervisor s) (enterSupervisor t) := ⟨h.enterSupervisor hf, hp⟩
  refine (pushFormat_alike h0 n).andThen fun s1 t1 h1 => ?_
  refine (push_alike h1 .long s.pc).andThen fun s2 t2 h2 => ?_
  refine (push_alike h2 .word (readSr s)).andThen fun s3 t3 h3 => ?_
  have hv : vectorBase t3 = vectorBase s3 := by simp only [vectorBase, h3.1.cfg, h3.1.vbr]
  rw [h3.1.memRead, hv]
  exact .andThen_same _ fun target _ => .next (h3.1.withPc target)

theorem exec_alike {s t : State} (h : SameSeen s t) (i : Instr) : Alike SameSeen (exec i s) (exec i t) := by
  have flags {u : Unit} (hh : require [.flags] s = .next u) : s.noValue.lacks .flags = false := by simpa using require_next hh
  rcases instr_cases i with ⟨imm, rfl⟩ | ⟨imm, rfl⟩ | ⟨sz, imm, r, rfl⟩ | ⟨sz, imm, m, rfl⟩
  · rw [exec_andiBCcr, exec_andiBCcr, h.require]
    refine .andThen_same _ fun _ hh => .next (.advancePc ?_ 4)
    have hc : readCcr t = readCcr s := by rw [readCcr, readCcr, h.readSr (flags hh)]
    rw [writeCcr, writeCcr, h.systemByte, hc]
    exact h.writeSr _
  · cases hs : supervisor s with
    | true =>
      rw [exec_andiWSr hs, exec_andiWSr (h.supervisor.trans hs), h.require]
      refine .andThen_same _ fun _ hh => .next (.advancePc ?_ 4)
      rw [h.readSr (flags hh)]
      exact h.writeSr _
    | false =>
      rw [exec_andiWSr_of_user hs, exec_andiWSr_of_user (h.supervisor.trans hs)]
      exact takeException_alike h _
  · rw [exec_register, exec_register, h.require]
    exact .andThen_same _ fun _ hh => .next ((h.registerResult (require_next hh)).advancePc _)
  · rw [exec_memory, exec_memory, h.require, h.eaRegisters]
    refine .andThen_same _ fun _ hh => ?_
    rw [h.effectiveAddress sz (require_next hh), h.memRead]
    exact .andThen_same _ fun old _ => .next ((h.memoryResult (require_next hh)).advancePc _)

theorem fetchRest_congr {s t : State} (hm : t.mem = s.mem) (hc : t.cfg = s.cfg) (hp : t.pc = s.pc) (n : Nat) (ws : List Word) :
    fetchRest t n ws = fetchRest s n ws := by
  induction n generalizing ws with
  | zero => simp only [fetchRest, hp]
  | succ n ih => simp only [fetchRest, fetchWord, memRead_congr hm hc, hp, ih]

/-- The fetch reads memory, the parameters, `pc` and the mode only (R190). -/
theorem fetch_congr {s t : State} (hm : t.mem = s.mem) (hc : t.cfg = s.cfg) (hp : t.pc = s.pc) (hs : supervisor t = supervisor s) :
    fetch t = fetch s := by
  rw [fetch, fetch, fetchWord, fetchWord, memRead_congr hm hc, hp]
  cases memRead .fetch .word s s.pc with
  | next w0 =>
    have hv : violatesPrivilege t w0 = violatesPrivilege s w0 := by rw [violatesPrivilege, violatesPrivilege, hs]
    simp only [hv, fetchRest_congr hm hc hp]
  | fault e | refused e => rfl

theorem step_alike {s t : State} (h : SameSeen s t) : Alike SameSeen (step s) (step t) := by
  have hl : launchRefusal t = launchRefusal s := by rw [launchRefusal, launchRefusal, h.cfg, flagT_of_systemByte h.systemByte]
  rw [step, step, hl, fetch_congr h.mem h.cfg h.pc h.supervisor]
  cases launchRefusal s with
  | some e => exact .refused e
  | none =>
    cases fetch s with
    | instr i => exact exec_alike h i
    | privilegeViolation => exact takeException_alike h _
    | fault e => exact .fault e
    | refused e => exact .refused e

end Sys2Proof.Machine

open Sys2Proof Sys2Proof.Machine

/-! ### The obligations -/

/-- Settles O36: what one step keeps (`kept_of_step`) carries the invariant over. -/
theorem stepKeepsInvariant : Obligations.StepKeepsInvariant :=
  fun _ _ hs h => (kept_of_step h).inv hs

/-- Settles O43: both halves are `exec_setInactive`, of user mode and of supervisor mode. -/
theorem inactiveStackPointerUnreachable : Obligations.InactiveStackPointerUnreachable :=
  fun i _ v => ⟨fun h hi => exec_setInactive h v i fun imm he => absurd he (hi imm), fun h => exec_setInactive h v i fun _ _ => rfl⟩

/-- Settles O51: the two steps have alike outcomes (`step_alike`). -/
theorem valuelessContentsUnreadable : Obligations.ValuelessContentsUnreadable := by
  intro s t h
  have ha := step_alike h
  generalize step s = x at ha
  generalize step t = y at ha
  cases ha with
  | next h => simpa using h
  | fault e => simp
  | refused e => simp

/-- Settles O37: the memory is empty and SR is 0x2700. -/
theorem resetMeetsInvariant : Obligations.ResetMeetsInvariant where
  memory := rfl
  inRange := by simp [State.reset]
  srReservedZero := by decide
  traceOff := by decide

/-- Settles O46, by evaluation of the fixed state. -/
theorem resetState : Obligations.ResetState :=
  ⟨by decide, by decide, by decide, by decide, rfl⟩

/-- Settles O13: `pc_of_exec`, the vector load of the entry, and the two rules of the fetch at the top of the address space. -/
theorem programCounterAdvance : Obligations.ProgramCounterAdvance := by
  refine ⟨fun i s t h hn => ?_, fun s t hc h => ?_, fun s w0 op hl hr ho hv htop t h => ?_, fun s w0 ws hl hv hd htop hr => ?_⟩
  · rw [← length_eq_encode]
    exact pc_of_exec h fun imm hi => hn.resolve_left fun hne => hne imm hi
  · obtain ⟨target, -, -, -, hread, rfl⟩ := takeException_mc68000 hc h
    obtain ⟨-, -, hload⟩ := memRead_eq_next hread
    exact (loadBytes_congr_mem rfl rfl).trans hload
  · obtain ⟨i, hf, -⟩ := exec_of_step h hr hv
    have heven : s.pc[0] = false := by simpa [aligned] using (memRead_eq_next hr).1
    have hle : s.pc.toNat + 2 * (([] : List Word).length + 1) ≤ 2 ^ 32 := by
      rw [even_iff] at heven
      have := s.pc.isLt
      simp only [List.length_nil]
      omega
    have := fetchRest_below_top ho heven hle hf
    omega
  · have hr0 : memRead .fetch .word s s.pc = .next w0 := by simpa using hr 0 (by simp)
    rw [step_of_fetch hl, fetch_of_word hr0 hv, fetchRest_wraps (ws := [w0]) (more := ws) hd htop fun k hk _ => hr k hk]

/-- Settles O39: case by case of what a step can do (`step_cases`, `exec_cases`). -/
theorem stepFrame : Obligations.StepFrame := by
  intro s t h
  rcases (step_cases h).2 with ⟨i, hf, he, -⟩ | ⟨-, hp, -⟩
  · rcases exec_cases he with ⟨imm, rfl, -, rfl⟩ | ⟨imm, rfl, -, -, rfl⟩ | ⟨imm, rfl, hs, -⟩ | ⟨sz, imm, r, rfl, hh, rfl⟩ |
      ⟨sz, imm, old, m, rfl, hh, -, -, -, rfl⟩
    · exact ⟨rfl, rfl, .inl rfl, fun q hq => absurd rfl hq⟩
    · exact ⟨rfl, rfl, .inl rfl, fun q hq => absurd rfl hq⟩
    · rw [supervisor_of_fetch_andiWSr hf] at hs
      cases hs
    · have hn := (advancePc_noValue _ (eaLength sz (.dr r))).trans (registerResult_noValue (imm := imm) hh)
      refine ⟨rfl, rfl, .inr ⟨hn, sz, imm, .dr r, hf⟩, fun q hq => ?_⟩
      have hqr : q = r := by
        by_contra hne
        exact hq (readD_writeD_other _ _ _ _ hne)
      exact ⟨sz, imm, hqr ▸ hf⟩
    · have hn := (advancePc_noValue _ (eaLength sz (.mem m))).trans (memoryResult_noValue (imm := imm) (old := old) hh)
      refine ⟨by simp, by simp, .inr ⟨hn, sz, imm, .mem m, hf⟩, fun q hq => ?_⟩
      simp [readD] at hq
  · obtain ⟨hc, hv, hd, -, -, hn, -⟩ := takeException_frame hp
    exact ⟨hc, hv, .inl hn, fun q hq => absurd (by simp only [readD, hd]) hq⟩

/-- Settles O40: outside trap entry only a memory form writes an address register, and of these only `(Ar)+` and `-(Ar)`. -/
theorem addressRegistersWrittenOnlyBySideEffect : Obligations.AddressRegistersWrittenOnlyBySideEffect := by
  intro s t h ht hne
  rcases (step_cases h).2 with ⟨i, hf, he, -⟩ | ⟨-, -, htrap⟩
  · rcases exec_cases he with ⟨imm, rfl, -, rfl⟩ | ⟨imm, rfl, -, -, rfl⟩ | ⟨imm, rfl, hs, -⟩ | ⟨sz, imm, r, rfl, -, rfl⟩ |
      ⟨sz, imm, old, m, rfl, -, -, -, -, rfl⟩
    · simp at hne
    · simp at hne
    · rw [supervisor_of_fetch_andiWSr hf] at hs
      cases hs
    · simp [registerResult] at hne
    · by_contra hno
      obtain ⟨ha, hu, hp⟩ := memoryResult_registers (sz := sz) (imm := imm) (old := old) (m := m) (s := s)
        (fun r hm => hno ⟨sz, imm, r, .inl (hm ▸ hf)⟩) (fun r hm => hno ⟨sz, imm, r, .inr (hm ▸ hf)⟩)
      simp [ha, hu, hp] at hne
  · rw [ht] at htrap
    cases htrap

/-- Settles O50: each meaning begins with the check of what it reads (`require`). -/
theorem valuelessRegistersRefused : Obligations.ValuelessRegistersRefused := by
  refine ⟨fun sz imm r s h => ?_, fun sz imm m s q hq hl => ?_, fun s r k d8 d16 => ?_, fun s h => ⟨fun imm => ?_, fun imm hs => ?_⟩,
    fun sz s r v h => ⟨fun hsz => ?_, fun hsz => ?_⟩⟩
  · rw [exec_register]
    exact require_one_andThen_refused _ h
  · rw [exec_memory]
    exact require_andThen_refused _ hq hl
  · exact ⟨rfl, rfl, rfl, rfl, fun _ => rfl, fun _ => rfl⟩
  · rw [exec_andiBCcr]
    exact require_one_andThen_refused _ h
  · rw [exec_andiWSr hs]
    exact require_one_andThen_refused _ h
  · cases sz with
    | byte | word => exact h
    | long => exact absurd rfl hsz
  · subst hsz
    exact NoValue.lacks_give s.noValue (.d r)

end

section
/-! PROOFS of the family 20_memory.md: byte order (R52), alignment (R55), addresses (R60), what a write reaches (R62, R65), and where an
operand in memory stops its instruction (R190). First the rules of one access that the laws of memory leave out; then the five
obligations. -/

namespace Sys2Proof.Machine

/-! ### Alignment of one access (R55) -/

theorem aligned_odd {sz : Size} {a : Long} (hsz : sz ≠ .byte) (ha : a[0] = true) : aligned sz a = false := by
  cases sz with
  | byte => exact absurd rfl hsz
  | word | long => simp [aligned, ha]

theorem aligned_even (sz : Size) {a : Long} (ha : a[0] = false) : aligned sz a = true := aligned_iff.2 (.inr ha)

/-- An aligned read stops at the map or at a byte without a value, never as an address error. -/
theorem memRead_ne_addressError {k : Access} {sz : Size} {s : State} {a e : Long} (ha : aligned sz a = true) :
    memRead k sz s a ≠ .fault (.addressError e) := by
  cases hm : admitsAll k sz s.cfg a with
  | false =>
    rw [memRead_notAdmitted ha hm]
    simp
  | true =>
    rw [memRead_of_ok ha hm]
    exact loadBytes_ne_fault

/-- An aligned write stops at the map alone. -/
theorem memWrite_ne_addressError {sz : Size} {s : State} {a e : Long} {v : BitVec sz.bits} (ha : aligned sz a = true) :
    memWrite sz s a v ≠ .fault (.addressError e) := by
  cases hm : admitsAll .data sz s.cfg a with
  | false =>
    rw [memWrite_notAdmitted ha hm]
    simp
  | true =>
    rw [memWrite_of_ok v ha hm]
    simp

/-! ### Addresses and bytes (R60, R65) -/

/-- Addresses that reduce to one address name one byte (R60). -/
theorem byteAt_of_reduce {s : State} {x y : Long} (h : reduce s.cfg x = reduce s.cfg y) : byteAt s x = byteAt s y := by
  rw [byteAt, byteAt, h]

/-- A write one of whose bytes lies in `code` is not admitted (R65). -/
theorem not_admitted_of_code {sz : Size} {s : State} {a x : Long} (hw : within s.cfg a sz.bytes x = true)
    (hx : inRegions s.cfg.memMap.code (reduce s.cfg x) = true) : admitsAll .data sz s.cfg a = false := by
  by_contra hm
  rw [not_code_of_admitted (by simpa using hm) hx] at hw
  cases hw

/-! ### Byte order (R52) -/

/-- An access that passes its check reads the bytes. -/
theorem memRead_of_check {k : Access} {sz : Size} {s : State} {a : Long} (h : checkAccess k sz s a = .next ()) :
    memRead k sz s a = loadBytes sz s a := by
  rw [memRead, h, andThen_next]

end Sys2Proof.Machine

open Sys2Proof Sys2Proof.Machine

/-! ### The obligations -/

/-- Settles O35: the map does not admit the write, and every step keeps the bytes of `code` (`Kept.code`). -/
theorem codeIsNeverWritten : Obligations.CodeIsNeverWritten :=
  ⟨fun _ _ _ _ _ ha hw hx => memWrite_notAdmitted ha (not_admitted_of_code hw hx), fun _ _ x h hx => (kept_of_step h).code x hx⟩

/-- Settles O30: the instruction stops where its one read does (`exec_memory`). -/
theorem memoryFormStops : Obligations.MemoryFormStops := by
  intro sz imm m s _ hh a
  rw [exec_memory, require_andThen _ hh]
  refine ⟨fun hsz ha => ?_, fun ha hm => ?_, fun ha hm hv => ?_⟩
  · rw [memRead_odd (aligned_odd hsz ha), andThen_fault]
  · rw [memRead_notAdmitted (aligned_iff.2 ha) hm, andThen_fault]
  · obtain ⟨k, hk, hl⟩ := loadBytes_of_not_holdsValues hv
    exact ⟨k, hk, by rw [memRead_of_ok (aligned_iff.2 ha) hm, hl, andThen_refused]⟩

/-- Settles O32: an access of a word or a long word is aligned exactly at an even address, and an aligned access is no address error. -/
theorem alignmentOfAccesses : Obligations.AlignmentOfAccesses :=
  fun _ _ _ _ =>
    ⟨fun _ _ hsz ha => ⟨memRead_odd (aligned_odd hsz ha), memWrite_odd (aligned_odd hsz ha)⟩,
      fun _ => memRead_ne_addressError rfl, fun _ _ => memWrite_ne_addressError rfl,
      fun sz _ ha => memRead_ne_addressError (aligned_even sz ha), fun sz _ _ ha => memWrite_ne_addressError (aligned_even sz ha)⟩

/-- Settles O33: a load puts its bytes together, and the bytes after a store are those of the value (`byteAt_storeLong`,
`byteAt_storeWord`). -/
theorem bigEndianAccesses : Obligations.BigEndianAccesses := by
  refine ⟨fun k s a b0 b1 b2 b3 h0 h1 => ⟨fun hc => ?_, fun h2 h3 hc => ?_⟩, fun s t a v hb h => ?_, fun s t a v hb h => ?_⟩
  · rw [memRead_of_check hc, loadWord_of_bytes h0 h1]
  · rw [memRead_of_check hc, loadLong_of_bytes h0 h1 h2 h3]
  · obtain ⟨-, -, rfl⟩ := memWrite_eq_next h
    obtain ⟨h0, h1, h2, h3⟩ := byteAt_storeLong s a hb v
    have h3' : byteAt (storeBytes .long s a v) (a + 2 + 1) = some (v.extractLsb' 0 8) := by
      rw [show a + 2 + 1 = a + 3 from add_ofNat_add a 2 1, h3]
    have halves (n : Nat) : v.extractLsb' (n + 8) 8 ++ v.extractLsb' n 8 = v.extractLsb' n 16 :=
      BitVec.extractLsb'_append_extractLsb'_eq_extractLsb' rfl
    exact ⟨loadBytes_storeBytes .long s a v hb, by rw [loadWord_of_bytes h0 h1, halves 16], by rw [loadWord_of_bytes h2 h3', halves 0],
      loadByte_of_byteAt h0, loadByte_of_byteAt h1, loadByte_of_byteAt h2, loadByte_of_byteAt h3⟩
  · obtain ⟨-, -, rfl⟩ := memWrite_eq_next h
    obtain ⟨h0, h1⟩ := byteAt_storeWord s a hb v
    exact ⟨loadBytes_storeBytes .word s a v hb, loadByte_of_byteAt h0, loadByte_of_byteAt h1⟩

/-- Settles O34: a write that answers is its store, which leaves every other byte and is read back. -/
theorem writesAreLocal : Obligations.WritesAreLocal := by
  intro sz s t a v h
  obtain ⟨-, -, rfl⟩ := memWrite_eq_next h
  exact ⟨fun _ hx => byteAt_storeBytes_other hx, loadBytes_storeBytes sz s a v, fun _ _ hxy => byteAt_of_reduce hxy⟩

end

section
/-! PROOFS of the family 30_encoding.md: the operation words and the lengths they tell (R90, R92, R95), the high byte of a byte immediate
(R94), and the step on words that decode (R96, R190). First the rules of the decoder and of the fetch that earlier parts leave out; then
the four obligations. -/

namespace Sys2Proof

/-! ### Operation words (R92) -/

/-- A word outside `0x02xx` is no ANDI, the two fixed words of R91 lying inside. -/
theorem decodeOp_of_highByte {w0 : Word} (h : w0.extractLsb' 8 8 ≠ 0x02) : decodeOp w0 = .error .otherOperationWord := by
  have hccr : w0 ≠ 0x023C := by rintro rfl; exact h rfl
  have hsr : w0 ≠ 0x027C := by rintro rfl; exact h rfl
  rw [decodeOp, if_neg hccr, if_neg hsr, if_pos h]

/-- The word `k` of the map spells an ANDI. -/
def spellsAndi (k : Nat) : Bool := (decodeOp (0x0200 + BitVec.ofNat 16 k)).isOk

/-- The count of R92, block by block of the size field: six rows of eight registers and the two absolute addresses for each size, and one
fixed word among the byte and one among the word forms. -/
theorem count_spellsAndi : (List.range 256).countP spellsAndi = 152 := by
  have hblocks : List.range 256 = List.range' 0 64 ++ (List.range' 64 64 ++ (List.range' 128 64 ++ List.range' 192 64)) := by
    rw [List.range'_append_1 (s := 128), List.range'_append_1 (s := 64), List.range'_append_1 (s := 0), List.range_eq_range']
  have hbyte : (List.range' 0 64).countP spellsAndi = (6 * 8 + 2) + 1 := by decide
  have hword : (List.range' 64 64).countP spellsAndi = (6 * 8 + 2) + 1 := by decide
  have hlong : (List.range' 128 64).countP spellsAndi = 6 * 8 + 2 := by decide
  have heleven : (List.range' 192 64).countP spellsAndi = 0 := by decide
  simp only [hblocks, List.countP_append, hbyte, hword, hlong, heleven]

/-- No instruction is longer than ten bytes (R90). -/
theorem opLength_le_ten (op : Op) : opLength op ≤ 10 := by
  cases op with
  | ccr | sr => decide
  | ea sz m =>
    have hm : extensionWords m ≤ 2 := by cases m <;> simp [extensionWords]
    simp only [opLength]
    split <;> omega

/-! ### Words that are read, and words that are rejected -/

/-- The words of an instruction before its last one leave it incomplete. -/
theorem decodeWords_incomplete_of_done {ws more : List Word} {i : Instr} (h : decodeWords (ws ++ more) = .done i []) (hne : more ≠ []) :
    decodeWords ws = .incomplete := by
  by_contra hd
  rw [extends_decodeWords ws more hd] at h
  cases hw : decodeWords ws with
  | done j rest =>
    rw [hw] at h
    simp only [Parsed.append, Parsed.done.injEq, List.append_eq_nil_iff] at h
    exact hne h.2.2
  | incomplete => exact hd hw
  | error e => rw [hw] at h; cases h

/-- The fixed word of ANDI to SR spells nothing else (R91). -/
theorem eq_andiWSr_of_decodeWords {ws rest : List Word} {i : Instr} (h : decodeWords (0x027C :: ws) = .done i rest) :
    ∃ imm, i = .andiWSr imm := by
  obtain ⟨imm, -, hi⟩ := map_eq_done (show (decodeWord ws).map .andiWSr = .done i rest from h)
  exact ⟨imm, hi⟩

/-- A byte form reads its immediate from the word after the operation word, whose high byte must be 0 (R86, R94). -/
theorem decodeWords_highByte {w0 w1 : Word} {rest : List Word} (ho : decodeOp w0 = .ok .ccr ∨ ∃ m, decodeOp w0 = .ok (.ea .byte m))
    (h : w1.extractLsb' 8 8 ≠ 0) : decodeWords (w0 :: w1 :: rest) = .error (.byteImmediateHighByte w1) := by
  have himm : decodeImmByte (w1 :: rest) = .error (.byteImmediateHighByte w1) := if_neg h
  rcases ho with ho | ⟨m, ho⟩
  · simp only [decodeWords, ho, decodeOperands, himm, Parsed.map]
  · simp only [decodeWords, ho, decodeOperands, decodeImm, himm]

end Sys2Proof

namespace Sys2Proof.Machine

/-! ### The fetch of words that decide (R190) -/

theorem violatesPrivilege_iff {s : State} {w0 : Word} : violatesPrivilege s w0 = true ↔ w0 = 0x027C ∧ supervisor s = false := by
  simp [violatesPrivilege]

theorem fetchRest_of_done {s : State} {ws rest : List Word} {i : Instr} (n : Nat) (h : decodeWords ws = .done i rest) :
    fetchRest s (n + 1) ws = .instr i := by
  simp only [fetchRest, h]

theorem fetchRest_of_error {s : State} {ws : List Word} {e : DecodeError} (n : Nat) (h : decodeWords ws = .error e) :
    fetchRest s (n + 1) ws = .refused (.undecodable e s.pc) := by
  simp only [fetchRest, h]

/-- Words that can be fetched below the top of the address space are fetched one after the other, as long as the words before each leave
the instruction incomplete. -/
theorem fetchRest_append {s : State} {n : Nat} {ws more : List Word}
    (hd : ∀ p q, p ++ q = ws ++ more → q ≠ [] → decodeWords p = .incomplete) (htop : s.pc.toNat + 2 * (ws ++ more).length ≤ 2 ^ 32)
    (hr : ∀ k (h : k < (ws ++ more).length), memRead .fetch .word s (s.pc + BitVec.ofNat 32 (2 * k)) = .next (ws ++ more)[k]) :
    fetchRest s (n + more.length) ws = fetchRest s n (ws ++ more) := by
  induction more generalizing ws with
  | nil => simp
  | cons w more ih =>
    have hw : memRead .fetch .word s (s.pc + BitVec.ofNat 32 (2 * ws.length)) = .next w := by
      simpa using hr ws.length (by simp)
    have hassoc : ws ++ w :: more = ws ++ [w] ++ more := by simp
    rw [List.length_cons, ← Nat.add_assoc, fetchRest_word (hd ws _ rfl (by simp)) (by simp at htop; omega) hw, hassoc]
    simp only [hassoc] at hd htop hr
    exact ih hd htop hr

/-- The fetch finds the instruction that the words at `pc` are, past the privilege check. -/
theorem fetch_of_words {s : State} {w0 : Word} {ws : List Word} {i : Instr} (hv : violatesPrivilege s w0 = false)
    (hd : decodeWords (w0 :: ws) = .done i []) (htop : s.pc.toNat + 2 * (w0 :: ws).length ≤ 2 ^ 32)
    (hr : ∀ k (h : k < (w0 :: ws).length), memRead .fetch .word s (s.pc + BitVec.ofNat 32 (2 * k)) = .next (w0 :: ws)[k]) :
    fetch s = .instr i := by
  obtain ⟨op, ho, -⟩ := decodeOp_of_decodeWords hd
  have hlen : ws.length ≤ 4 := by
    have h1 := opLength_add_rest ho hd
    have h2 := opLength_le_ten op
    simp at h1
    omega
  have h0 : memRead .fetch .word s s.pc = .next w0 := by
    rw [← BitVec.add_zero s.pc]
    exact hr 0 (by simp)
  have hfuel : 6 = 5 - ws.length + 1 + ws.length := by omega
  rw [fetch_of_word h0 hv, hfuel, fetchRest_append (ws := [w0]) (fun p q hpq hq => ?_) htop hr]
  · exact fetchRest_of_done _ hd
  · exact decodeWords_incomplete_of_done (by rw [hpq]; exact hd) hq

end Sys2Proof.Machine

open Sys2Proof Sys2Proof.Machine

/-! ### The obligations -/

/-- Settles O5: the operation word tells the length (`opLength_of_decodeOperands`) and how many words are used (`opLength_add_rest`); the
encoding has that length (`length_eq_encode`); the table is `eaLength`. -/
theorem lengthFromOperationWord : Obligations.LengthFromOperationWord := by
  refine ⟨fun w0 ws op i rest ho h => ⟨?_, ?_⟩, fun i => (length_eq_encode i).symm, fun _ => rfl, fun _ => rfl, ?_⟩
  · obtain ⟨op', ho', hops⟩ := decodeOp_of_decodeWords h
    obtain rfl : op = op' := Except.ok.inj (ho.symm.trans ho')
    exact (opLength_of_decodeOperands hops).symm
  · rw [opLength_add_rest ho h]
    omega
  · intro sz imm r d16 a x l
    simp only [length_andi]
    cases sz <;> exact ⟨rfl, rfl, rfl, rfl, rfl, rfl, rfl, rfl⟩

/-- Settles O6: neither operation word is that of ANDI to SR, so the fetch goes on to the second word, where the decoder rejects. -/
theorem byteImmediateHighByteRefused : Obligations.ByteImmediateHighByteRefused := by
  intro s w0 w1 rest ho h
  refine ⟨decodeWords_highByte ho h, fun hl htop hr0 hr1 => ?_⟩
  have hfirst : decodeWords [w0] = .incomplete := by
    rcases ho with ho | ⟨m, ho⟩ <;> exact decodeWords_operationWord ho
  have hv : violatesPrivilege s w0 = false := by
    by_contra hv
    obtain ⟨rfl, -⟩ := violatesPrivilege_iff.1 (by simpa using hv)
    rcases ho with ho | ⟨m, ho⟩ <;> cases ho
  have hf : fetch s = .refused (.undecodable (.byteImmediateHighByte w1) s.pc) := by
    rw [fetch_of_word hr0 hv, fetchRest_word hfirst (by simp; omega) hr1]
    exact fetchRest_of_error _ (decodeWords_highByte ho h)
  rw [step_of_fetch hl, hf]

/-- Settles O4: each row is decided for its eight registers, and `count_spellsAndi` counts the words that are accepted. -/
theorem operationWordMap : Obligations.OperationWordMap := by
  refine ⟨fun sz r base hbase => ?_, rfl, rfl, rfl, by decide, fun _ => decodeOp_of_highByte, ?_⟩
  · subst hbase
    cases sz <;> revert r <;> decide
  · exact List.countP_eq_length_filter.symm.trans count_spellsAndi

/-- Settles O8: the fetch finds the instruction, or the privilege violation, which is then what the instruction means. -/
theorem stepRunsDecodedInstruction : Obligations.StepRunsDecodedInstruction := by
  intro s ws i hl hd htop hr
  cases ws with
  | nil => cases hd
  | cons w0 ws =>
    rw [step_of_fetch hl]
    cases hv : violatesPrivilege s w0 with
    | false => rw [fetch_of_words hv hd htop hr]
    | true =>
      obtain ⟨rfl, hs⟩ := violatesPrivilege_iff.1 hv
      obtain ⟨imm, rfl⟩ := eq_andiWSr_of_decodeWords hd
      have h0 : memRead .fetch .word s s.pc = .next 0x027C := by simpa using hr 0 (by simp)
      rw [fetch_of_violation hs h0, exec_andiWSr_of_user hs]

end

section
/-! PROOFS of the family 40_andi_to_ccr_sr.md: ANDI to CCR (R110, R111) and ANDI to SR (R112 to R116), and the laws of both (R117, R118).
First what each leaves in SR, as one AND with a datum of 16 bits, from which the laws of both forms follow alike; then the seven
obligations. -/

namespace Sys2Proof.Machine

/-! ### AND on words -/

theorem and_le_left {w : Nat} (a b : BitVec w) : a &&& b ≤ a := by
  rw [BitVec.le_def, BitVec.toNat_and]
  exact Nat.and_le_left

theorem and_le_right {w : Nat} (a b : BitVec w) : a &&& b ≤ b := by
  rw [BitVec.and_comm]
  exact and_le_left b a

/-- Bits only fall under an AND (R117). -/
theorem getElem_of_and {w : Nat} {old datum res : BitVec w} (h : res = old &&& datum) {i : Nat} (hi : i < w) (hr : res[i] = true) :
    old[i] = true := by
  subst h
  rw [BitVec.getElem_and, Bool.and_eq_true] at hr
  exact hr.1

/-- The laws of R118 (a) and (b), of SR alone: an AND with `m1`, then one with `m2`, and beside them a single AND with both. -/
theorem and_laws {w : Nat} {old once twice both m1 m2 : BitVec w} (h1 : once = old &&& m1) (h2 : twice = once &&& m2) :
    (m1 = m2 → twice = once) ∧ (both = old &&& (m1 &&& m2) → twice = both) ∧ (both = old &&& (m2 &&& m1) → twice = both) := by
  subst h1 h2
  refine ⟨?_, ?_, ?_⟩ <;> rintro rfl
  · rw [BitVec.and_assoc, BitVec.and_self]
  · exact BitVec.and_assoc ..
  · rw [BitVec.and_comm m2, BitVec.and_assoc]

/-- The datum of ANDI to CCR as a datum of ANDI to SR (R118 (c)). -/
theorem ones_append (imm : Byte) : 0xFF#8 ++ imm = 0xFF00 ||| imm.setWidth 16 := by
  rw [BitVec.append_def]
  rfl

theorem ones_append_and (a b : Byte) : 0xFF#8 ++ (a &&& b) = (0xFF#8 ++ a) &&& (0xFF#8 ++ b) := by
  rw [BitVec.and_append, BitVec.and_self]

/-! ### The two bytes of SR -/

@[simp] theorem readCcr_advancePc (s : State) (n : Nat) : readCcr (advancePc s n) = readCcr s := rfl
@[simp] theorem systemByte_advancePc (s : State) (n : Nat) : systemByte (advancePc s n) = systemByte s := rfl

/-- An AND with what CCR holds is inside the five flags already. -/
theorem readCcr_and_and_flags (s : State) (v : Byte) : readCcr s &&& v &&& 0x1F = readCcr s &&& v := by
  rw [BitVec.and_assoc, BitVec.and_comm v, ← BitVec.and_assoc, readCcr_and_flags]

/-- Trap entry leaves the flags (R184). -/
theorem readCcr_enterSupervisor (s : State) : readCcr (enterSupervisor s) = readCcr s := by
  have hmask : (srMask s.cfg.cpu).extractLsb' 0 8 = 0x1F := by cases s.cfg.cpu <;> rfl
  have htrace : (~~~traceBits s.cfg.cpu).extractLsb' 0 8 = BitVec.allOnes 8 := by cases s.cfg.cpu <;> rfl
  have hs : (0x2000 : Word).extractLsb' 0 8 = 0#8 := rfl
  unfold enterSupervisor
  rw [readCcr, readSr_writeSr, BitVec.extractLsb'_and, BitVec.extractLsb'_and, BitVec.extractLsb'_or, hmask, htrace, hs,
    BitVec.or_zero, BitVec.and_allOnes]
  exact readCcr_and_flags s

theorem readCcr_of_takeException {n : Nat} {s t : State} (h : takeException n s = .next t) : readCcr t = readCcr s := by
  obtain ⟨hc, -, -, -, -, -, hr, -⟩ := takeException_frame h
  rw [← readCcr_enterSupervisor s, readCcr, readCcr, readSr, readSr, hr, hc]
  rfl

/-! ### What the two forms answer -/

section next
variable {s t : State}

theorem eq_of_exec_andiBCcr {imm : Byte} (h : exec (.andiBCcr imm) s = .next t) :
    t = advancePc (writeCcr s (readCcr s &&& imm)) 4 := by
  rw [exec_andiBCcr] at h
  cases (require_andThen_next h).2
  rfl

theorem eq_of_exec_andiWSr {imm : Word} (hs : supervisor s = true) (h : exec (.andiWSr imm) s = .next t) :
    t = advancePc (writeSr s (readSr s &&& imm)) 4 := by
  rw [exec_andiWSr hs] at h
  cases (require_andThen_next h).2
  rfl

/-- CCR after ANDI to CCR (R110). -/
theorem readCcr_of_andiBCcr {imm : Byte} (h : exec (.andiBCcr imm) s = .next t) : readCcr t = readCcr s &&& imm := by
  rw [eq_of_exec_andiBCcr h, readCcr_advancePc, readCcr_writeCcr, readCcr_and_and_flags]

theorem systemByte_of_andiBCcr {imm : Byte} (h : exec (.andiBCcr imm) s = .next t) : systemByte t = systemByte s := by
  rw [eq_of_exec_andiBCcr h, systemByte_advancePc, systemByte_writeCcr]

/-- All of SR after ANDI to CCR: the AND with a high byte of ones (R118 (c)). -/
theorem readSr_of_andiBCcr {imm : Byte} (h : exec (.andiBCcr imm) s = .next t) : readSr t = readSr s &&& (0xFF#8 ++ imm) := by
  rw [readSr_eq_append t, readSr_eq_append s, readCcr_of_andiBCcr h, systemByte_of_andiBCcr h, BitVec.and_append]
  exact congrArg (· ++ _) BitVec.and_allOnes.symm

/-- SR after ANDI to SR in supervisor mode (R112). -/
theorem readSr_of_andiWSr {imm : Word} (hs : supervisor s = true) (h : exec (.andiWSr imm) s = .next t) :
    readSr t = readSr s &&& imm := by
  rw [eq_of_exec_andiWSr hs h, readSr_advancePc, readSr_writeSr, readSr_and_and_mask]

theorem supervisor_of_andiWSr {imm : Word} (hs : supervisor s = true) (h : exec (.andiWSr imm) s = .next t) :
    supervisor t = imm[13] := by
  simp only [supervisor] at hs ⊢
  simp only [readSr_of_andiWSr hs h, BitVec.getElem_and, hs, Bool.true_and]

theorem interruptMask_of_andiWSr {imm : Word} (hs : supervisor s = true) (h : exec (.andiWSr imm) s = .next t) :
    interruptMask t = interruptMask s &&& imm.extractLsb' 8 3 := by
  rw [interruptMask, readSr_of_andiWSr hs h, BitVec.extractLsb'_and]
  rfl

end next

/-- `A[7]` is the stack pointer of the mode (R24). -/
theorem readA_seven (s : State) : readA s 7 = if supervisor s then s.ssp else s.usp := rfl

end Sys2Proof.Machine

open Sys2Proof Sys2Proof.Machine

/-! ### The obligations -/

/-- Settles O14: the flags are bits of CCR (`readCcr_of_andiBCcr`). -/
theorem andiToCcrResult : Obligations.AndiToCcrResult := by
  intro imm s hh
  have h : exec (.andiBCcr imm) s = .next (advancePc (writeCcr s (readCcr s &&& imm)) 4) := by
    rw [exec_andiBCcr, require_andThen _ hh]
  have hccr := readCcr_of_andiBCcr h
  refine ⟨_, h, hccr, systemByte_of_andiBCcr h, ?_, ?_, ?_, ?_, ?_, rfl, rfl, rfl, rfl, rfl, rfl, rfl, rfl, byteAt_congr rfl rfl⟩
  all_goals simp only [flagX_eq, flagN_eq, flagZ_eq, flagV_eq, flagC_eq, hccr, BitVec.getLsbD_and, ← BitVec.getLsbD_eq_getElem]

/-- Settles O15: in supervisor mode the flags are bits of the new SR (`readSr_of_andiWSr`); in user mode trap entry leaves CCR
(`readCcr_of_takeException`). -/
theorem andiToSrResult : Obligations.AndiToSrResult := by
  refine fun imm s => ⟨fun hs hh => ?_, fun hs => ⟨exec_andiWSr_of_user hs, fun t => readCcr_of_takeException⟩⟩
  have h := exec_andiWSr_of_supervisor (imm := imm) hs hh
  have hsr := readSr_of_andiWSr hs h
  exact ⟨_, h, hsr, congrArg (·[4]) hsr, congrArg (·[3]) hsr, congrArg (·[2]) hsr, congrArg (·[1]) hsr, congrArg (·[0]) hsr,
    rfl, rfl, rfl, rfl, rfl, rfl, rfl, rfl, byteAt_congr rfl rfl⟩

/-- Settles O16: S was 1, so it becomes bit 13 of the datum (`supervisor_of_andiWSr`), and `A[7]` follows S. -/
theorem andiToSrMovesToUserMode : Obligations.AndiToSrMovesToUserMode := by
  intro imm s t hs h
  have ht := supervisor_of_andiWSr hs h
  obtain rfl := eq_of_exec_andiWSr hs h
  refine ⟨ht, fun h13 => ⟨?_, fun imm' => exec_andiWSr_of_user (ht.trans h13)⟩, fun h13 => ?_⟩
  · rw [readA_seven, ht, h13]
    rfl
  · rw [readA_seven, ht, h13]
    rfl

/-- Settles O17: T is a bit of the new SR, and the mask is the old one AND bits 10 to 8 of the datum. -/
theorem andiToSrSystemFields : Obligations.AndiToSrSystemFields := by
  intro imm s t _ hs h
  rw [interruptMask_of_andiWSr hs h]
  refine ⟨?_, ?_, ?_, ?_, BitVec.le_def.1 (and_le_left _ _)⟩
  · simp only [flagT, readSr_of_andiWSr hs h, BitVec.getElem_and]
  · simp
  · simp
  · simp

/-- Settles O18: both forms are an AND of all of SR (`readSr_of_andiBCcr`, `readSr_of_andiWSr`). -/
theorem statusBitsOnlyFall : Obligations.StatusBitsOnlyFall := by
  refine ⟨fun imm s t h => ⟨fun i hi => getElem_of_and (readSr_of_andiBCcr h) hi, ?_⟩,
    fun imm s t hs h => ⟨fun i hi => getElem_of_and (readSr_of_andiWSr hs h) hi, ?_⟩⟩
  · rw [readCcr_of_andiBCcr h]
    exact ⟨and_le_left _ _, and_le_right _ _⟩
  · rw [readSr_of_andiWSr hs h]
    exact ⟨and_le_left _ _, and_le_right _ _⟩

/-- Settles O19: the laws of AND (`and_laws`), of the datum with a high byte of ones for ANDI to CCR. -/
theorem statusFormLaws : Obligations.StatusFormLaws := by
  refine ⟨fun i1 i2 s t1 t2 t h1 h2 => ?_, fun i1 i2 s t1 t2 t hs hs1 h1 h2 => ?_, fun imm s t u hs ht hu => ?_,
    fun imm s t hs hi h => ?_⟩
  · obtain ⟨hidem, hcomp, hswap⟩ := and_laws (both := readSr t) (readSr_of_andiBCcr h1) (readSr_of_andiBCcr h2)
    refine ⟨fun he => hidem (by rw [he]), fun h => hcomp ?_, fun h => hswap ?_⟩
    · rw [readSr_of_andiBCcr h, ones_append_and]
    · rw [readSr_of_andiBCcr h, ones_append_and]
  · obtain ⟨hidem, hcomp, hswap⟩ := and_laws (both := readSr t) (readSr_of_andiWSr hs h1) (readSr_of_andiWSr hs1 h2)
    exact ⟨hidem, fun h => hcomp (readSr_of_andiWSr hs h), fun h => hswap (readSr_of_andiWSr hs h)⟩
  · rw [readSr_of_andiBCcr ht, readSr_of_andiWSr hs hu, ones_append]
  · have hsr := readSr_of_andiWSr hs h
    obtain rfl := eq_of_exec_andiWSr hs h
    refine ⟨?_, ?_, rfl, rfl, rfl, rfl, rfl, rfl, rfl, rfl⟩
    · rw [systemByte, hsr, BitVec.extractLsb'_and, hi]
      exact BitVec.and_allOnes
    · rw [readCcr, hsr, BitVec.extractLsb'_and]
      rfl

/-- Settles O11: the meaning asks S alone, and the fetch finds the violation at the operation word (`fetch_of_violation`). -/
theorem privilegeCheckComesFirst : Obligations.PrivilegeCheckComesFirst := by
  refine fun s hs => ⟨fun imm => exec_andiWSr_of_user hs, fun hl hr => ?_⟩
  rw [step_of_fetch hl, fetch_of_violation hs hr]

end

section
/-! PROOFS of the family 41_andi_ea.md: ANDI to a data register (R135) and to memory (R136), the flags of both (R134), and the laws on a
register (R137). First the flags, read off SR after `dataFlags`, and what ANDI to `Dr` leaves in the data registers and SR for the result
it computed (`LeavesOperand`); then the four obligations. -/

namespace Sys2Proof.Machine

/-! ### The flags of the data forms (R134) -/

/-- The flags are read off SR, so a state whose SR is that of `dataFlags` has its flags. -/
theorem flags_of_readSr {w : Nat} {s t : State} {res : BitVec w} (h : readSr t = readSr (dataFlags s res)) :
    flagX t = flagX s ∧ flagN t = res.getLsbD (w - 1) ∧ flagZ t = decide (res = 0) ∧ flagV t = false ∧ flagC t = false ∧
      systemByte t = systemByte s := by
  refine ⟨(congrArg (·[4]) h).trans (flagX_dataFlags s res), ?_, ?_, (congrArg (·[1]) h).trans (flagV_dataFlags s res),
    (congrArg (·[0]) h).trans (flagC_dataFlags s res), ?_⟩
  · rw [← BitVec.msb_eq_getLsbD_last]
    exact (congrArg (·[3]) h).trans (flagN_dataFlags s res)
  · exact (congrArg (·[2]) h).trans (flagZ_dataFlags s res)
  · exact (congrArg (·.extractLsb' 8 8) h).trans (systemByte_dataFlags s res)

/-- Of two data forms in sequence the second alone decides the four flags, and both keep the rest of SR (R134). -/
theorem readSr_dataFlags_of_dataFlags {w : Nat} {s t : State} {first : BitVec w} (h : readSr t = readSr (dataFlags s first))
    (res : BitVec w) : readSr (dataFlags t res) = readSr (dataFlags s res) := by
  rw [← sr_dataFlags, ← sr_dataFlags]
  apply BitVec.eq_of_getLsbD_eq
  intro i _
  by_cases hi : i < 4
  · exact getLsbD_sr_dataFlags_low s t res hi
  · have hi : 4 ≤ i := by omega
    rw [getLsbD_sr_dataFlags_high t res hi, h, ← sr_dataFlags, getLsbD_sr_dataFlags_high s first hi,
      getLsbD_sr_dataFlags_high s res hi]

/-! ### What the data forms answer -/

theorem eq_of_exec_register {sz : Size} {imm : BitVec sz.bits} {r : Fin 8} {s t : State}
    (h : exec (Instr.andi sz imm (.dr r)) s = .next t) : t = advancePc (registerResult sz imm r s) (eaLength sz (.dr r)) := by
  rw [exec_register] at h
  cases (require_andThen_next h).2
  rfl

/-- A memory form that answers has read its operand (R130). -/
theorem eq_of_exec_memory {sz : Size} {imm : BitVec sz.bits} {m : MemEa} {s t : State}
    (h : exec (Instr.andi sz imm (.mem m)) s = .next t) :
    ∃ old, loadBytes sz s (effectiveAddress sz s m) = .next old ∧
      t = advancePc (memoryResult sz imm old m s) (eaLength sz (.mem m)) := by
  rw [exec_memory] at h
  obtain ⟨old, hr, h⟩ := andThen_eq_next (require_andThen_next h).2
  cases h
  exact ⟨old, (memRead_eq_next hr).2.2, rfl⟩

/-- A memory form whose operand can be read answers (R136). -/
theorem exec_memory_of_readable {sz : Size} (imm : BitVec sz.bits) {m : MemEa} {s : State} (hh : holds s (eaRegisters s m) = true)
    (hr : readable .data sz s (effectiveAddress sz s m) = true) :
    ∃ old, loadBytes sz s (effectiveAddress sz s m) = .next old ∧
      exec (Instr.andi sz imm (.mem m)) s = .next (advancePc (memoryResult sz imm old m s) (eaLength sz (.mem m))) := by
  obtain ⟨old, hread, hl⟩ := memRead_of_readable hr
  exact ⟨old, hl, by rw [exec_memory, require_andThen _ hh, hread, andThen_next]⟩

/-- After a memory form the operand reads as the AND (R136). -/
theorem loadBytes_memoryResult (sz : Size) (imm old : BitVec sz.bits) (m : MemEa) (s : State) (hb : 3 ≤ s.cfg.addrBits) :
    loadBytes sz (memoryResult sz imm old m s) (effectiveAddress sz s m) = .next (old &&& imm) := by
  rw [loadBytes_congr_mem (memoryResult_mem ..) (memoryResult_cfg ..)]
  exact loadBytes_storeBytes sz s _ _ hb

/-! ### Data registers and SR after ANDI to `Dr` (R134, R135) -/

/-- The data registers and SR of `t` are those of `s` after the data form to `Dr` whose result was `res`. -/
structure LeavesOperand (sz : Size) (r : Fin 8) (s : State) (res : BitVec sz.bits) (t : State) : Prop where
  d : t.d = s.d.set r (putLowPart sz (readD s r) res)
  sr : readSr t = readSr (dataFlags s res)

theorem leavesOperand_registerResult (sz : Size) (imm : BitVec sz.bits) (r : Fin 8) (s : State) (n : Nat) :
    LeavesOperand sz r s (lowPart sz (readD s r) &&& imm) (advancePc (registerResult sz imm r s) n) := ⟨rfl, rfl⟩

theorem leavesOperand_of_exec {sz : Size} {imm : BitVec sz.bits} {r : Fin 8} {s t : State}
    (h : exec (Instr.andi sz imm (.dr r)) s = .next t) : LeavesOperand sz r s (lowPart sz (readD s r) &&& imm) t :=
  eq_of_exec_register h ▸ leavesOperand_registerResult ..

namespace LeavesOperand
variable {sz : Size} {r : Fin 8} {s t u : State} {res res' : BitVec sz.bits}

theorem readD_same (h : LeavesOperand sz r s res t) : readD t r = putLowPart sz (readD s r) res := by
  simp [readD, h.d]

theorem readD_other (h : LeavesOperand sz r s res t) {q : Fin 8} (hq : q ≠ r) : readD t q = readD s q := by
  have hv : r.val ≠ q.val := fun e => hq (Fin.ext e.symm)
  simp [readD, h.d, hv]

theorem operand (h : LeavesOperand sz r s res t) : lowPart sz (readD t r) = res := by
  rw [h.readD_same, lowPart_putLowPart]

/-- Each bit of the register: those of the result, and above it those that were there (R135). -/
theorem getLsbD_readD (h : LeavesOperand sz r s res t) {i : Nat} (hi : i < 32) :
    (readD t r).getLsbD i = if i < sz.bits then res.getLsbD i else (readD s r).getLsbD i := by
  rw [h.readD_same, getLsbD_putLowPart _ _ _ hi]

/-- The result decides the data registers and SR. -/
theorem unique (h : LeavesOperand sz r s res t) (h' : LeavesOperand sz r s res u) : t.d = u.d ∧ readSr t = readSr u :=
  ⟨h.d.trans h'.d.symm, h.sr.trans h'.sr.symm⟩

/-- Of two forms on one register in sequence only the second result is left. -/
theorem trans (h : LeavesOperand sz r s res t) (h' : LeavesOperand sz r t res' u) : LeavesOperand sz r s res' u where
  d := by rw [h'.d, h.readD_same, putLowPart_putLowPart, h.d, Vector.set_set]
  sr := h'.sr.trans (readSr_dataFlags_of_dataFlags h.sr res')

/-- A result equal to the old operand leaves the data registers. -/
theorem d_of_operand (h : LeavesOperand sz r s (lowPart sz (readD s r)) t) : t.d = s.d := by
  rw [h.d, putLowPart_lowPart]
  exact Vector.set_getElem_self _

end LeavesOperand

end Sys2Proof.Machine

open Sys2Proof Sys2Proof.Machine

/-! ### The obligations -/

/-- Settles O25: the register and SR are those of `LeavesOperand`, and the rest of the state is left as it is. -/
theorem dataRegisterResult : Obligations.DataRegisterResult := by
  intro sz imm r s hh
  have hl := leavesOperand_registerResult sz imm r s (eaLength sz (.dr r))
  obtain ⟨hx, hn, hz, hv, hc, hb⟩ := flags_of_readSr hl.sr
  refine ⟨_, exec_register_of_holds hh, fun i hi => ?_, hx, hn, hz, hv, hc, hb, ?_, fun q => hl.readD_other, rfl, rfl, rfl, rfl, rfl,
    registerResult_noValue hh, byteAt_congr rfl rfl⟩
  · rw [← BitVec.getLsbD_eq_getElem, hl.getLsbD_readD hi]
    split
    · rename_i hlow
      rw [BitVec.getLsbD_eq_getElem hlow, BitVec.getElem_and]
      simp [lowPart, hi]
    · rfl
  · cases sz <;> rfl

/-- Settles O26: the form answers with `memoryResult` (`exec_memory_of_readable`), whose one store is read back and leaves every other
byte. -/
theorem memoryOperandResult : Obligations.MemoryOperandResult := by
  intro sz imm m s hbits hh hr
  obtain ⟨old, hold, hexec⟩ := exec_memory_of_readable imm hh hr
  obtain ⟨hx, hn, hz, hv, hc, hb⟩ := flags_of_readSr (readSr_memoryResult sz imm old m s)
  obtain ⟨husp, hssp⟩ := memoryResult_inactive sz imm old m s
  refine ⟨old, _, hold, hexec, ?_, hx, hn, hz, hv, hc, hb, ?_, readA_memoryResult sz imm old m s, husp, hssp, memoryResult_d ..,
    memoryResult_vbr .., memoryResult_cfg .., memoryResult_noValue hh, fun x hout => ?_⟩
  · rw [loadBytes_congr_mem (advancePc_mem ..) (advancePc_cfg ..)]
    exact loadBytes_memoryResult sz imm old m s hbits
  · rw [advancePc_pc, memoryResult_pc, length_andi]
  · exact (byteAt_memoryResult ..).trans (byteAt_storeBytes_other hout)

/-- Settles O27: SR after either shape of destination is that of `dataFlags` for the AND (`flags_of_readSr`). -/
theorem dataFormFlags : Obligations.DataFormFlags := by
  intro sz imm old e s t hold h
  have hsr : readSr t = readSr (dataFlags s (old &&& imm)) := by
    cases e with
    | dr r =>
      cases hold
      exact (leavesOperand_of_exec h).sr
    | mem m =>
      obtain ⟨v, hv, rfl⟩ := eq_of_exec_memory h
      cases hv.symm.trans hold
      exact readSr_memoryResult ..
  obtain ⟨hx, hn, hz, hv, hc, hb⟩ := flags_of_readSr hsr
  refine ⟨hx, by rw [hn], ?_, hv, hc, hb⟩
  rw [hz, decide_eq_true_eq]
  exact ⟨fun h0 i _ => by rw [h0]; exact BitVec.getLsbD_zero, fun h0 => BitVec.eq_of_getLsbD_eq fun i hi => by simpa using h0 i hi⟩

/-- Settles O31: the results of both forms are ANDs of the old operand, and a result decides the data registers and SR
(`LeavesOperand.unique`). -/
theorem dataFormLaws : Obligations.DataFormLaws := by
  intro sz i1 i2 r s t1 t2 e1 e2
  have h1 := leavesOperand_of_exec e1
  have h2 := h1.trans (leavesOperand_of_exec e2)
  rw [h1.operand] at h2
  have hop : (readD t1 r).setWidth sz.bits = lowPart sz (readD s r) &&& i1 := h1.operand
  refine ⟨fun t e => ?_, fun t e => ?_, fun hi => ?_, fun hi => ?_, fun hi => ?_, ?_, ?_⟩
  · rw [BitVec.and_assoc] at h2
    exact h2.unique (leavesOperand_of_exec e)
  · rw [BitVec.and_assoc, BitVec.and_comm i1] at h2
    exact h2.unique (leavesOperand_of_exec e)
  · rw [hi, BitVec.and_assoc, BitVec.and_self, ← hi] at h2
    exact h2.unique h1
  · rw [hi, BitVec.and_allOnes] at h1
    exact h1.d_of_operand
  · have hzero : lowPart sz (readD s r) &&& i1 = 0 := by rw [hi]; exact BitVec.and_zero
    obtain ⟨-, -, hz, -⟩ := flags_of_readSr h1.sr
    exact ⟨hop.trans hzero, hz.trans (decide_eq_true hzero)⟩
  · rw [hop]
    exact and_le_left _ _
  · rw [hop]
    exact and_le_right _ _

end

section
/-! PROOFS of the family 42_addressing_modes.md: the brief extension word (R156), the step of `(Ar)+` and `-(Ar)` (R160), and the effective
address of each mode (R152 to R159). First each part of the addressing modes as the obligations write it out; then the three obligations. -/

namespace Sys2Proof

/-! ### The index register field (R156) -/

theorem regOf_eq_iff {f : BitVec 3} {r : Fin 8} : regOf f = r ↔ f.toNat = r.val := Fin.ext_iff

/-- The D/A bit tells a data register from an address register, the field beside it which one. -/
theorem indexReg_iff (b : Bool) (f : BitVec 3) (r : Fin 8) :
    ((if b then IndexReg.a (regOf f) else .d (regOf f)) = .d r ↔ b = false ∧ f.toNat = r.val) ∧
    ((if b then IndexReg.a (regOf f) else .d (regOf f)) = .a r ↔ b = true ∧ f.toNat = r.val) := by
  cases b <;> simp [regOf_eq_iff]

end Sys2Proof

namespace Sys2Proof.Machine

/-! ### The step and the index value (R156, R160) -/

/-- `inc` in numbers (R160). -/
theorem increment_eq (sz : Size) (r : Fin 8) :
    increment sz r = if sz = .byte then (if r = 7 then 2 else 1) else if sz = .word then 2 else 4 := by
  cases sz with
  | byte => by_cases hr : r = 7 <;> simp [increment, hr]
  | word | long => rfl

/-- `Xn.W` is the low word of `Xn`, sign-extended (R156). -/
theorem indexValue_word (s : State) (x : IndexReg) (d8 : Byte) :
    indexValue s ⟨x, .word, d8⟩ = ((readIndexReg s x).extractLsb' 0 16).signExtend 32 :=
  congrArg (BitVec.signExtend 32) (BitVec.setWidth_eq_extractLsb' (by decide))

end Sys2Proof.Machine

open Sys2Proof Sys2Proof.Machine

/-! ### The obligations -/

/-- Settles O7: `decodeBrief` asks bits 10 to 8 first; the size is bit 11, and the index register is that of `indexReg_iff`. -/
theorem briefExtensionWordFields : Obligations.BriefExtensionWordFields := by
  refine fun e rest => ⟨fun h => if_neg h, fun h => ⟨_, if_pos h, rfl, ?_, fun r => ?_, fun r => ?_⟩⟩
  · cases e[11] <;> simp
  · exact (indexReg_iff ..).1
  · exact (indexReg_iff ..).2

/-- Settles O28: the form answers with `memoryResult` (`eq_of_exec_memory`), whose address registers are known, and `inc` is
`increment_eq`. -/
theorem addressRegisterUpdates : Obligations.AddressRegisterUpdates := by
  intro sz imm m s t h
  obtain ⟨old, -, rfl⟩ := eq_of_exec_memory h
  simp only [← increment_eq]
  exact ⟨readA_memoryResult sz imm old m s, memoryResult_inactive sz imm old m s⟩

/-- Settles O29: each mode by its equation, with `increment_eq` for `-(Ar)` and `indexValue_word` for `Xn.W`. -/
theorem effectiveAddresses : Obligations.EffectiveAddresses := by
  intro sz s r q d16 a d8 l
  have hword (x : IndexReg) : effectiveAddress sz s (.index r ⟨x, .word, d8⟩) =
      readA s r + d8.signExtend 32 + ((readIndexReg s x).extractLsb' 0 16).signExtend 32 :=
    congrArg (readA s r + d8.signExtend 32 + ·) (indexValue_word s x d8)
  exact ⟨rfl, rfl, congrArg (readA s r - ·) (increment_eq sz r), rfl, hword (.d q), rfl, hword (.a q), rfl, rfl, rfl⟩

end

section
/-! PROOFS of the family 60_exceptions.md: the ways between the modes (R196), SR[15:8] (R197), taking and returning from the privilege
violation (R184 to R186, R192), and where the fetch stops (R190). First the words that leave an instruction incomplete, what a step can do
to SR[15:8] and what reads it, the stops of the fetch, and the supervisor stack; then the ten obligations. -/

namespace Sys2Proof

/-! ### Words that leave an instruction incomplete (R90) -/

theorem length_of_decodeImm_incomplete {sz : Size} {ws : List Word} (h : decodeImm sz ws = .incomplete) : ws.length < 2 := by
  match sz, ws, h with
  | _, [], _ | _, [_], _ => simp
  | .byte, w :: _ :: _, h =>
    simp only [decodeImm, decodeImmByte] at h
    split at h <;> cases h
  | .word, _ :: _ :: _, h => cases h
  | .long, _ :: _ :: _, h => cases h

theorem length_of_decodeEa_incomplete {m : Mode} {ws : List Word} (h : decodeEa m ws = .incomplete) : ws.length < 2 := by
  cases m with
  | dr r | ind r | postInc r | preDec r => cases h
  | disp r | absW => exact length_of_decodeImm_incomplete (sz := .word) (Parsed.map_eq_incomplete.1 h)
  | absL => exact length_of_decodeImm_incomplete (sz := .long) (Parsed.map_eq_incomplete.1 h)
  | index r =>
    have h := Parsed.map_eq_incomplete.1 h
    match ws, h with
    | [], _ => simp
    | e :: _, h =>
      simp only [decodeBrief] at h
      split at h <;> cases h

/-- No instruction has more than five words (R90), so there are at most four while it is incomplete. -/
theorem length_of_decodeWords_incomplete {w0 : Word} {ws : List Word} (h : decodeWords (w0 :: ws) = .incomplete) : ws.length ≤ 3 := by
  simp only [decodeWords] at h
  split at h
  · cases h
  · rename_i op _
    cases op with
    | ccr =>
      have := length_of_decodeImm_incomplete (sz := .byte) (Parsed.map_eq_incomplete.1 h)
      omega
    | sr =>
      have := length_of_decodeImm_incomplete (sz := .word) (Parsed.map_eq_incomplete.1 h)
      omega
    | ea sz m =>
      simp only [decodeOperands] at h
      split at h
      · rename_i hi
        have := length_of_decodeImm_incomplete hi
        omega
      · cases h
      · rename_i imm rest hi
        have hlen := length_of_decodeImm hi
        have := length_of_decodeEa_incomplete (Parsed.map_eq_incomplete.1 h)
        split at hlen <;> omega

end Sys2Proof

namespace Sys2Proof.Machine

/-! ### The ways between the modes (R196) -/

/-- What a step can do to SR[15:8], said once: leave it, write it by ANDI to SR in supervisor mode, or take the privilege violation in
user mode (R196, R197). -/
theorem step_systemByte {s t : State} (h : step s = .next t) :
    systemByte t = systemByte s ∨
    (supervisor s = true ∧ ∃ imm, fetch s = .instr (.andiWSr imm) ∧ exec (.andiWSr imm) s = .next t) ∨
    (supervisor s = false ∧ traps s = true ∧ takePrivilegeViolation s = .next t) := by
  rcases (step_cases h).2 with ⟨i, hf, he, -⟩ | ⟨hf, hp, ht⟩
  · by_cases hi : ∃ imm, i = .andiWSr imm
    · obtain ⟨imm, rfl⟩ := hi
      exact .inr (.inl ⟨supervisor_of_fetch_andiWSr hf, imm, hf, he⟩)
    · exact .inl (exec_systemByte he fun imm hne => hi ⟨imm, hne⟩)
  · exact .inr (.inr ⟨(fetch_eq_privilegeViolation hf).2, ht, hp⟩)

theorem supervisor_of_systemByte {s t : State} (h : systemByte t = systemByte s) : supervisor t = supervisor s := by
  rw [supervisor_eq, supervisor_eq, h]

/-! ### What reads SR[15:8] (R197) -/

/-- The state with its SR replaced. -/
def withSr (v : Word) (s : State) : State := { s with sr := v }

/-- The state with SR[15:8] replaced, the low byte being left. -/
def withSystemByte (b : Byte) (s : State) : State := writeSr s (b ++ readCcr s)

/-- Replacing SR[15:8] is one way of replacing SR. -/
theorem withSystemByte_eq_withSr (b : Byte) (s : State) : withSystemByte b s = withSr ((b ++ readCcr s) &&& srMask s.cfg.cpu) s := rfl

/-- Of the low byte only the five flags are implemented (R33). -/
theorem append_and_srMask (b c : Byte) (cpu : Cpu) : (b ++ (c &&& 0x1F)) &&& srMask cpu = (b ++ c) &&& srMask cpu := by
  have hmask : srMask cpu = (srMask cpu).extractLsb' 8 8 ++ 0x1F#8 := by cases cpu <;> rfl
  rw [hmask, BitVec.and_append, BitVec.and_append, BitVec.and_assoc]
  rfl

/-- A write of CCR keeps the SR[15:8] there is, and forgets the low byte there was. -/
theorem writeCcr_withSr (v : Word) (s : State) (c : Byte) :
    writeCcr (withSr v s) c = withSystemByte (systemByte (withSr v s)) (writeCcr s c) := by
  rw [withSystemByte, readCcr_writeCcr]
  exact congrArg (withSr · s) (append_and_srMask (systemByte (withSr v s)) c s.cfg.cpu).symm

/-- The new SR[15:8] is read back. -/
theorem systemByte_withSystemByte {s t : State} (h : t.cfg = s.cfg) : systemByte (withSystemByte (systemByte s) t) = systemByte s := by
  refine Eq.trans ?_ (systemByte_writeCcr s (readCcr t))
  simp only [systemByte, withSystemByte, writeCcr, readSr_writeSr, h]

section withSr
variable {v : Word} {s : State}

@[simp] theorem withSr_cfg : (withSr v s).cfg = s.cfg := rfl
@[simp] theorem withSr_mem : (withSr v s).mem = s.mem := rfl

/-- Where the new SR agrees in S, it is not seen by the address registers. -/
theorem readA_withSr (hs : supervisor (withSr v s) = supervisor s) (r : Fin 8) : readA (withSr v s) r = readA s r :=
  readA_congr (s := s) (t := withSr v s) rfl rfl rfl hs r

theorem writeA_withSr (hs : supervisor (withSr v s) = supervisor s) (r : Fin 8) (x : Long) :
    writeA (withSr v s) r x = withSr v (writeA s r x) := by
  unfold writeA
  rw [hs]
  split
  · rfl
  · split <;> rfl

theorem updateBefore_withSr (hs : supervisor (withSr v s) = supervisor s) (sz : Size) (m : MemEa) :
    updateBefore sz (withSr v s) m = withSr v (updateBefore sz s m) := by
  cases m with
  | preDec r => simp only [updateBefore, readA_withSr hs, writeA_withSr hs]
  | ind _ | postInc _ | disp _ _ | index _ _ | absW _ | absL _ => rfl

theorem updateAfter_withSr (hs : supervisor (withSr v s) = supervisor s) (sz : Size) (m : MemEa) :
    updateAfter sz (withSr v s) m = withSr v (updateAfter sz s m) := by
  cases m with
  | postInc r => simp only [updateAfter, readA_withSr hs, writeA_withSr hs]
  | ind _ | preDec _ | disp _ _ | index _ _ | absW _ | absL _ => rfl

theorem updateAfter_withSystemByte {b : Byte} (hs : supervisor (withSystemByte b s) = supervisor s) (sz : Size) (m : MemEa) :
    updateAfter sz (withSystemByte b s) m = withSystemByte b (updateAfter sz s m) := by
  rw [withSystemByte_eq_withSr] at hs ⊢
  rw [updateAfter_withSr hs, withSystemByte_eq_withSr, updateAfter_cfg, readCcr, readCcr, readSr_updateAfter]

theorem effectiveAddress_withSr (hs : supervisor (withSr v s) = supervisor s) (sz : Size) (m : MemEa) :
    effectiveAddress sz (withSr v s) m = effectiveAddress sz s m :=
  effectiveAddress_congr (fun r _ => readA_withSr hs r) fun _ _ => rfl

/-- Where the new SR agrees in the low byte, the data forms see it as the new SR[15:8] alone. -/
theorem dataFlags_withSr (hc : readCcr (withSr v s) = readCcr s) {w : Nat} (res : BitVec w) :
    dataFlags (withSr v s) res = withSystemByte (systemByte (withSr v s)) (dataFlags s res) := by
  rw [dataFlags, hc, writeCcr_withSr]
  rfl

theorem registerResult_withSr (hc : readCcr (withSr v s) = readCcr s) (sz : Size) (imm : BitVec sz.bits) (r : Fin 8) :
    registerResult sz imm r (withSr v s) = withSystemByte (systemByte (withSr v s)) (registerResult sz imm r s) := by
  change writeD sz (dataFlags (withSr v s) (lowPart sz (readD s r) &&& imm)) r _ = _
  rw [dataFlags_withSr hc]
  rfl

theorem memoryResult_withSr (hs : supervisor (withSr v s) = supervisor s) (hc : readCcr (withSr v s) = readCcr s) (sz : Size)
    (imm old : BitVec sz.bits) (m : MemEa) :
    memoryResult sz imm old m (withSr v s) = withSystemByte (systemByte (withSr v s)) (memoryResult sz imm old m s) := by
  have hread : readSr (withSr v (updateBefore sz s m)) = readSr (withSr v s) := by simp only [readSr, withSr, updateBefore_cfg]
  have hbyte : systemByte (withSr v (updateBefore sz s m)) = systemByte (withSr v s) := congrArg (·.extractLsb' 8 8) hread
  have hlow : readCcr (withSr v (updateBefore sz s m)) = readCcr (updateBefore sz s m) := by
    refine (congrArg (·.extractLsb' 0 8) hread).trans (hc.trans ?_)
    simp only [readCcr, readSr_updateBefore]
  have hmode : supervisor (withSystemByte (systemByte (withSr v s)) (dataFlags (updateBefore sz s m) (old &&& imm))) =
      supervisor (dataFlags (updateBefore sz s m) (old &&& imm)) := by
    have hcfg : (dataFlags (updateBefore sz s m) (old &&& imm)).cfg = (withSr v s).cfg := updateBefore_cfg ..
    rw [supervisor_of_systemByte (systemByte_withSystemByte hcfg), hs, supervisor_dataFlags]
    simp only [supervisor, readSr_updateBefore]
  rw [memoryResult, effectiveAddress_withSr hs, updateBefore_withSr hs, dataFlags_withSr hlow, hbyte]
  exact updateAfter_withSystemByte (s := storeBytes sz (dataFlags (updateBefore sz s m) (old &&& imm)) _ _) hmode sz m

/-- No form but ANDI to SR reads more of SR than S and the low byte (R197): each form is a check of values, at most one read, and a
result. -/
theorem exec_withSr (hs : supervisor (withSr v s) = supervisor s) (hc : readCcr (withSr v s) = readCcr s) {i : Instr}
    (hi : ∀ imm, i ≠ .andiWSr imm) :
    exec i (withSr v s) = andThen (exec i s) fun t => .next (withSystemByte (systemByte (withSr v s)) t) := by
  have hreq (rs : List RegName) : require rs (withSr v s) = require rs s := require_congr rfl
  rcases instr_cases i with ⟨imm, rfl⟩ | ⟨imm, rfl⟩ | ⟨sz, imm, r, rfl⟩ | ⟨sz, imm, m, rfl⟩
  · rw [exec_andiBCcr, exec_andiBCcr, hreq, hc, writeCcr_withSr]
    cases require [.flags] s <;> rfl
  · exact absurd rfl (hi imm)
  · rw [exec_register, exec_register, hreq, registerResult_withSr hc]
    cases require [.d r] s <;> rfl
  · rw [exec_memory, exec_memory, hreq, eaRegisters_congr hs, effectiveAddress_withSr hs, memRead_congr withSr_mem withSr_cfg]
    simp only [memoryResult_withSr hs hc]
    cases require (eaRegisters s m) s with
    | next u => cases memRead .data sz s (effectiveAddress sz s m) <;> rfl
    | fault e | refused e => rfl
end withSr

/-- A new SR that agrees with the old one in S and in the low byte is read as such. -/
theorem sees_withSr {v : Word} {s : State} (h : v &&& 0x20FF = s.sr &&& 0x20FF) :
    supervisor (withSr v s) = supervisor s ∧ readCcr (withSr v s) = readCcr s := by
  have hbit : ∀ i, (0x20FF : Word).getLsbD i = true → (readSr (withSr v s)).getLsbD i = (readSr s).getLsbD i := by
    intro i hi
    have := and_eq_and_iff.1 h i hi
    simp [readSr, withSr, this]
  refine ⟨?_, ?_⟩
  · simp only [supervisor, ← BitVec.getLsbD_eq_getElem]
    exact hbit 13 (by decide)
  · apply BitVec.eq_of_getLsbD_eq
    intro i hi
    simp only [readCcr, BitVec.getLsbD_extractLsb', hi, decide_true, Bool.true_and, Nat.zero_add]
    refine hbit i ?_
    interval_cases i <;> rfl

/-! ### Where the fetch and the launch check stop (R190, R188) -/

/-- A word is fetched at an even address only. -/
theorem even_of_fetchWord {s : State} {w : Word} (h : memRead .fetch .word s s.pc = .next w) : s.pc[0] = false := by
  simpa [aligned] using (memRead_eq_next h).1

/-- The first of the words at `pc` is the operation word. -/
theorem fetchWord_first {s : State} {w0 : Word} {ws : List Word}
    (hr : ∀ k (h : k < (w0 :: ws).length), memRead .fetch .word s (s.pc + BitVec.ofNat 32 (2 * k)) = .next (w0 :: ws)[k]) :
    memRead .fetch .word s s.pc = .next w0 := by
  rw [← BitVec.add_zero s.pc]
  exact hr 0 (by simp)

/-- Where the words so far leave the instruction incomplete, the fetch goes on to the next word and stops as its read does. -/
theorem fetch_of_next_word {s : State} {w0 : Word} {ws : List Word} (hv : violatesPrivilege s w0 = false)
    (hd : decodeWords (w0 :: ws) = .incomplete) (htop : s.pc.toNat + 2 * (w0 :: ws).length < 2 ^ 32)
    (hr : ∀ k (h : k < (w0 :: ws).length), memRead .fetch .word s (s.pc + BitVec.ofNat 32 (2 * k)) = .next (w0 :: ws)[k]) :
    (∀ e, memRead .fetch .word s (s.pc + BitVec.ofNat 32 (2 * (w0 :: ws).length)) = .fault e → fetch s = .fault e) ∧
    (∀ e, memRead .fetch .word s (s.pc + BitVec.ofNat 32 (2 * (w0 :: ws).length)) = .refused e → fetch s = .refused e) := by
  have hlen := length_of_decodeWords_incomplete hd
  have h0 := fetchWord_first hr
  have hfuel : 6 = 5 - ws.length + 1 + ws.length := by omega
  have hf : fetch s = fetchRest s (5 - ws.length + 1) (w0 :: ws) := by
    rw [fetch_of_word h0 hv, hfuel]
    exact fetchRest_append (ws := [w0]) (fun p q hpq _ => decodeWords_incomplete_of_append (more := q) (by rw [hpq]; exact hd)) htop.le hr
  rw [hf]
  refine ⟨fun e he => ?_, fun e he => ?_⟩ <;> simp only [fetchRest, hd, fetchWord, he, if_neg (Nat.not_le.2 htop)]

theorem step_of_fetch_fault {s : State} {e : Fault} (hl : launchRefusal s = none) (hf : fetch s = .fault e) : step s = .fault e := by
  rw [step_of_fetch hl, hf]

theorem step_of_fetch_refused {s : State} {e : Refusal} (hl : launchRefusal s = none) (hf : fetch s = .refused e) :
    step s = .refused e := by
  rw [step_of_fetch hl, hf]

theorem launchRefusal_of_trace {s : State} (hc : s.cfg.cpu.modelled = true) (ht : flagT s = true) : launchRefusal s = some .traceOn := by
  simp [launchRefusal, hc, ht]

theorem launchRefusal_of_cpu {s : State} (hc : s.cfg.cpu.modelled = false) :
    launchRefusal s = some (.cpuNotModelled s.cfg.cpu) := by
  simp [launchRefusal, hc]

theorem step_of_launchRefusal {s : State} {e : Refusal} (h : launchRefusal s = some e) : step s = .refused e := by
  simp only [step, h]

theorem modelled_iff {c : Cpu} : c.modelled = true ↔ c = .mc68000 ∨ c = .mc68010 := by
  cases c <;> simp [Cpu.modelled]

/-! ### The supervisor stack (R184) -/

/-- Reading the value just pushed. -/
theorem loadBytes_pushed_same (sz : Size) (v : BitVec sz.bits) {s : State} (hb : 3 ≤ s.cfg.addrBits) :
    loadBytes sz (pushed sz v s) (pushed sz v s).ssp = .next v := by
  rw [loadBytes_pushed]
  exact loadBytes_storeBytes sz s _ v hb

/-- A push leaves what stands on the stack, up to eight bytes above the new SSP. -/
theorem loadBytes_pushed_above (sz z : Size) (v : BitVec sz.bits) {s : State} (hb : 3 ≤ s.cfg.addrBits) (k : Nat)
    (hk : sz.bytes + k + z.bytes ≤ 8) :
    loadBytes z (pushed sz v s) ((pushed sz v s).ssp + BitVec.ofNat 32 (sz.bytes + k)) = loadBytes z s (s.ssp + BitVec.ofNat 32 k) := by
  have htop : (pushed sz v s).ssp + BitVec.ofNat 32 (sz.bytes + k) = s.ssp + BitVec.ofNat 32 k := by
    rw [← add_ofNat_add, pushed_ssp, BitVec.sub_add_cancel]
  rw [← htop, loadBytes_pushed]
  refine loadBytes_storeBytes_other fun j hj => ?_
  have := within_disjoint hb (pushed sz v s).ssp 0 sz.bytes (sz.bytes + k) z.bytes (.inl (by omega)) (by omega) hk j hj
  rwa [show (pushed sz v s).ssp + BitVec.ofNat 32 0 = (pushed sz v s).ssp from BitVec.add_zero _] at this

/-- A push leaves every byte but its own. -/
theorem byteAt_pushed_other {sz : Size} {v : BitVec sz.bits} {s : State} {x : Long}
    (h : within s.cfg (s.ssp - BitVec.ofNat 32 sz.bytes) sz.bytes x = false) : byteAt (pushed sz v s) x = byteAt s x :=
  byteAt_storeBytes_other h

theorem isSome_byteAt_pushed {sz : Size} {v : BitVec sz.bits} {s : State} {x : Long} (h : (byteAt s x).isSome = true) :
    (byteAt (pushed sz v s) x).isSome = true :=
  byteAt_storeBytes_isSome h

theorem push_of_writable {sz : Size} (v : BitVec sz.bits) {s : State} (h : writable sz s (s.ssp - BitVec.ofNat 32 sz.bytes) = true) :
    push sz v s = .next (pushed sz v s) := by
  simp only [writable, Bool.and_eq_true] at h
  exact push_of_ok v h.1 h.2

/-- What can be read goes on being readable while memory only grows. -/
theorem readable_mono {k : Access} {sz : Size} {s t : State} {a : Long} (h : readable k sz s a = true) (hc : t.cfg = s.cfg)
    (hm : ∀ x, (byteAt s x).isSome = true → (byteAt t x).isSome = true) : readable k sz t a = true := by
  simp only [readable, Bool.and_eq_true] at h ⊢
  obtain ⟨⟨ha, hadm⟩, hv⟩ := h
  exact ⟨⟨ha, by rw [hc]; exact hadm⟩, holdsValues_mono hv hm⟩

/-! ### The entry of an exception (R184, R186) -/

/-- The six bytes of every frame, pushed onto the stack of `s1`: `pc` and SR of `s`, the state that takes the exception. -/
def frame (s s1 : State) : State := pushed .word (readSr s) (pushed .long s.pc s1)

/-- The state after the entry: the frame, and `pc` from the vector. -/
def entered (s s1 : State) (target : Long) : State := { frame s s1 with pc := target }

section entered
variable {s s1 : State} {target : Long}
@[simp] theorem entered_cfg : (entered s s1 target).cfg = s1.cfg := rfl
@[simp] theorem entered_d : (entered s s1 target).d = s1.d := rfl
@[simp] theorem entered_a : (entered s s1 target).a = s1.a := rfl
@[simp] theorem entered_usp : (entered s s1 target).usp = s1.usp := rfl
@[simp] theorem entered_pc : (entered s s1 target).pc = target := rfl
@[simp] theorem entered_vbr : (entered s s1 target).vbr = s1.vbr := rfl
@[simp] theorem entered_noValue : (entered s s1 target).noValue = s1.noValue := rfl
@[simp] theorem readSr_entered : readSr (entered s s1 target) = readSr s1 := rfl
@[simp] theorem entered_ssp : (entered s s1 target).ssp = s1.ssp - 6 := BitVec.sub_sub ..

/-- Memory after the entry is that of the frame. -/
theorem loadBytes_entered (z : Size) (a : Long) : loadBytes z (entered s s1 target) a = loadBytes z (frame s s1) a :=
  loadBytes_congr_mem rfl rfl

/-- Bytes outside the frame are left. -/
theorem byteAt_entered_other {x : Long} (h : within s1.cfg (s1.ssp - 6) 6 x = false) :
    byteAt (entered s s1 target) x = byteAt s1 x := by
  have hsr : s1.ssp - 6 + BitVec.ofNat 32 0 = (pushed .long s.pc s1).ssp - BitVec.ofNat 32 2 := by
    change _ = s1.ssp - 4 - 2
    bv_omega
  have hpc : s1.ssp - 6 + BitVec.ofNat 32 2 = s1.ssp - BitVec.ofNat 32 4 := by bv_omega
  have hword := within_part (k := 0) (m := 2) h (by omega)
  have hlong := within_part (k := 2) (m := 4) h (by omega)
  rw [hsr] at hword
  rw [hpc] at hlong
  calc
    byteAt (entered s s1 target) x = byteAt (frame s s1) x := byteAt_congr rfl rfl x
    _ = byteAt (pushed .long s.pc s1) x := byteAt_pushed_other (sz := .word) hword
    _ = byteAt s1 x := byteAt_pushed_other (sz := .long) hlong

variable (hb : 3 ≤ s1.cfg.addrBits)
include hb

/-- The saved SR stands at SSP. -/
theorem loadBytes_entered_sr : loadBytes .word (entered s s1 target) (entered s s1 target).ssp = .next (readSr s) := by
  rw [loadBytes_entered]
  exact loadBytes_pushed_same .word (readSr s) (s := pushed .long s.pc s1) hb

/-- The saved `pc` stands at SSP + 2. -/
theorem loadBytes_entered_pc : loadBytes .long (entered s s1 target) ((entered s s1 target).ssp + 2) = .next s.pc := by
  rw [loadBytes_entered]
  refine (loadBytes_pushed_above .word .long (readSr s) (s := pushed .long s.pc s1) hb 0 (by decide)).trans ?_
  rw [BitVec.add_zero]
  exact loadBytes_pushed_same .long s.pc hb

/-- What stood at SSP before the frame stands at SSP + 6. -/
theorem loadBytes_entered_above :
    loadBytes .word (entered s s1 target) ((entered s s1 target).ssp + 6) = loadBytes .word s1 s1.ssp := by
  rw [loadBytes_entered]
  refine (loadBytes_pushed_above .word .word (readSr s) (s := pushed .long s.pc s1) hb 4 (by decide)).trans ?_
  refine (loadBytes_pushed_above .long .word s.pc hb 0 (by decide)).trans ?_
  rw [BitVec.add_zero]
end entered

/-- An exception whose frame can be written and whose vector can be read answers: `s1` is the state after the format word, which the
MC68000 does not push (R184, R186). -/
theorem takeException_of_ready {n : Nat} {s s1 : State} (hh : holds s [.flags, .ssp] = true)
    (hf : pushFormat n (enterSupervisor s) = .next s1) (hpc : writable .long s1 (s1.ssp - 4) = true)
    (hsr : writable .word s1 (s1.ssp - 6) = true) (hv : readable .vector .long s1 (vectorBase s1 + vectorAddress n) = true) :
    ∃ target, takeException n s = .next (entered s s1 target) ∧
      loadBytes .long (entered s s1 target) (vectorBase s1 + vectorAddress n) = .next target := by
  obtain ⟨target, hread, hload⟩ := memRead_of_readable
    (readable_mono hv (t := frame s s1) rfl fun _ h => isSome_byteAt_pushed (isSome_byteAt_pushed h))
  have hsr' : writable .word (pushed .long s.pc s1) ((pushed .long s.pc s1).ssp - BitVec.ofNat 32 2) = true := by
    rw [pushed_ssp, BitVec.sub_sub]
    exact hsr
  refine ⟨target, ?_, by rw [loadBytes_entered, hload]⟩
  rw [takeException, require_andThen _ hh, hf, andThen_next, push_of_writable s.pc hpc, andThen_next,
    push_of_writable (readSr s) hsr', andThen_next]
  change andThen (memRead .vector .long (frame s s1) (vectorBase s1 + vectorAddress n)) _ = _
  rw [hread, andThen_next]
  rfl

/-- An exception on the MC68000 whose first push faults (R183). -/
theorem takeException_of_push_fault {n : Nat} {s : State} {e : Fault} (hc : s.cfg.cpu = .mc68000) (hh : holds s [.flags, .ssp] = true)
    (hp : push .long s.pc (enterSupervisor s) = .fault e) : takeException n s = .fault e := by
  rw [takeException, require_andThen _ hh, pushFormat, enterSupervisor_cfg, hc]
  simp only [andThen_next, hp, andThen_fault]

/-- The first push of the MC68000 is at an even address exactly when SSP is even (R184). -/
theorem getElem_zero_sub_four (a : Long) : (a - 4)[0] = a[0] := by
  have h (x : Long) : x[0] = decide (x.toNat % 2 = 1) := by rw [← BitVec.getLsbD_eq_getElem, BitVec.getLsbD, Nat.testBit_zero]
  rw [h, h]
  exact decide_eq_decide.2 (by bv_omega)

/-- Returning from an exception in supervisor mode on the MC68000, where SR and `pc` can be popped (R192). -/
theorem returnFromException_of_frame {t : State} {sr : Word} {pc : Long} (hs : supervisor t = true) (hc : t.cfg.cpu = .mc68000)
    (hh : holds t [.ssp] = true) (hsr : memRead .data .word t t.ssp = .next sr) (hpc : memRead .data .long t (t.ssp + 2) = .next pc) :
    returnFromException t =
      .next { writeSr t sr with ssp := t.ssp + 6, pc := pc, noValue := t.noValue.give .flags } := by
  rw [returnFromException, hs, hc]
  simp only [require_andThen _ hh, hsr, hpc, andThen_next]
  rfl

end Sys2Proof.Machine

open Sys2Proof Sys2Proof.Machine

/-! ### The obligations -/

/-- Settles O41: of the three things a step can do to SR[15:8] (`step_systemByte`), ANDI to SR starts in supervisor mode and leaves S as
bit 13 of its datum, and the violation starts in user mode. -/
theorem modeChanges : Obligations.ModeChanges := by
  intro s t h
  rcases step_systemByte h with hb | ⟨hs, imm, hf, he⟩ | ⟨hs, ht, hp⟩
  · have hm := supervisor_of_systemByte hb
    exact ⟨fun h0 h1 => by simp [hm, h0] at h1, fun h1 h0 => by simp [hm, h1] at h0⟩
  · exact ⟨fun h0 => by simp [hs] at h0, fun _ h0 => ⟨imm, hf, (supervisor_of_andiWSr hs he).symm.trans h0⟩⟩
  · exact ⟨fun _ _ => ⟨ht, hp⟩, fun h1 => by simp [hs] at h1⟩

/-- Settles O44: S and the low byte are all that the forms read of SR (`exec_withSr`). -/
theorem systemByteUnreadable : Obligations.SystemByteUnreadable := by
  intro i s v hi h
  obtain ⟨hs, hc⟩ := sees_withSr h
  exact exec_withSr hs hc hi

/-- Settles O10: the word is fetched at an even address, so the map alone can stop it; the step ends as that fetch does
(`fetch_of_next_word`). -/
theorem laterFetchStops : Obligations.LaterFetchStops := by
  intro s w0 ws hl hv hd htop hr a
  obtain ⟨hfault, hrefused⟩ := fetch_of_next_word hv hd htop hr
  have ha : a[0] = false := even_add (even_of_fetchWord (fetchWord_first hr)) (by omega)
  exact ⟨fun hm => step_of_fetch_fault hl (hfault _ (memRead_notAdmitted (aligned_even .word ha) hm)),
    fun e he => step_of_fetch_refused hl (hrefused e he)⟩

/-- Settles O20: the frame is pushed on the stack as it was, the MC68000 having no format word. -/
theorem privilegeViolationEntry : Obligations.PrivilegeViolationEntry := by
  intro imm s hc hb hs hready
  simp only [trapReady, Bool.and_eq_true] at hready
  obtain ⟨⟨⟨hh, hpc⟩, hsr⟩, hv⟩ := hready
  have hf : pushFormat privilegeViolationVector (enterSupervisor s) = .next (enterSupervisor s) := by
    rw [pushFormat, enterSupervisor_cfg, hc]
  have hbase : vectorBase (enterSupervisor s) + vectorAddress privilegeViolationVector = 0x20 := by
    rw [vectorBase, enterSupervisor_cfg, hc]
    rfl
  obtain ⟨target, ht, hload⟩ := takeException_of_ready hh hf hpc hsr (by rw [hbase]; exact hv)
  rw [hbase] at hload
  refine ⟨_, (exec_andiWSr_of_user hs).trans ht, ?_, entered_ssp, loadBytes_entered_sr hb, loadBytes_entered_pc hb, hload, rfl, rfl, rfl,
    rfl, rfl, rfl, fun x hx => byteAt_entered_other hx⟩
  rw [readSr_entered, readSr_enterSupervisor s (by rw [hc]; rfl)]

/-- Settles O21: the frame is pushed on the format word, which stands above it. -/
theorem privilegeViolationEntry68010 : Obligations.PrivilegeViolationEntry68010 := by
  intro imm s hc hb hs hready
  simp only [trapReady010, Bool.and_eq_true] at hready
  obtain ⟨⟨⟨⟨hh, hfmt⟩, hpc⟩, hsr⟩, hv⟩ := hready
  have hf : pushFormat privilegeViolationVector (enterSupervisor s) = .next (pushed .word 0x0020 (enterSupervisor s)) := by
    rw [pushFormat, enterSupervisor_cfg, hc]
    exact push_of_writable 0x0020 (s := enterSupervisor s) hfmt
  have hbase : vectorBase (pushed .word 0x0020 (enterSupervisor s)) + vectorAddress privilegeViolationVector = s.vbr + 0x20 := by
    rw [vectorBase, pushed_cfg, enterSupervisor_cfg, hc]
    rfl
  have hssp (k : Long) : (pushed .word 0x0020 (enterSupervisor s)).ssp - k = s.ssp - (2 + k) := BitVec.sub_sub ..
  obtain ⟨target, ht, hload⟩ := takeException_of_ready hh hf (by rw [hssp]; exact hpc) (by rw [hssp]; exact hsr)
    (by rw [hbase]; exact readable_mono hv rfl fun _ => isSome_byteAt_pushed)
  rw [hbase] at hload
  refine ⟨_, (exec_andiWSr_of_user hs).trans ht, ?_, ?_, ?_, ?_, ?_, hload, by simp, by simp, by simp, by simp, by simp, by simp,
    fun x hx => ?_⟩
  · rw [readSr_entered, readSr_pushed, readSr_enterSupervisor s (by rw [hc]; rfl)]
  · rw [entered_ssp, hssp]
    rfl
  · exact loadBytes_entered_sr (s1 := pushed .word 0x0020 (enterSupervisor s)) hb
  · exact loadBytes_entered_pc (s1 := pushed .word 0x0020 (enterSupervisor s)) hb
  · rw [loadBytes_entered_above (s1 := pushed .word 0x0020 (enterSupervisor s)) hb]
    exact loadBytes_pushed_same .word 0x0020 (s := enterSupervisor s) hb
  · have hframe := within_part (k := 0) (m := 6) hx (by omega)
    have hformat := within_part (k := 6) (m := 2) hx (by omega)
    rw [show s.ssp - 8 + BitVec.ofNat 32 0 = s.ssp - (2 + 6) by bv_omega, ← hssp] at hframe
    rw [show s.ssp - 8 + BitVec.ofNat 32 6 = s.ssp - 2 by bv_omega] at hformat
    exact (byteAt_entered_other hframe).trans (byteAt_pushed_other (sz := .word) hformat)

/-- Settles O22: what must hold values is asked first (`require`), then the first push checks its address. -/
theorem trapEntryFaults : Obligations.TrapEntryFaults := by
  intro imm s hc hs
  rw [exec_andiWSr_of_user hs]
  refine ⟨fun hh hodd => ?_, fun hh heven hm => ?_, fun hf => ?_, fun hf hp => ?_⟩
  · refine takeException_of_push_fault hc hh (memWrite_odd (aligned_odd (by decide) ?_))
    rw [← hodd]
    exact getElem_zero_sub_four s.ssp
  · refine takeException_of_push_fault hc hh (memWrite_notAdmitted (aligned_even .long ?_) hm)
    rw [← heven]
    exact getElem_zero_sub_four s.ssp
  · simp only [takePrivilegeViolation, takeException, require, hf, if_true, andThen_refused]
  · simp only [takePrivilegeViolation, takeException, require, hf, hp, if_true, Bool.false_eq_true, if_false, andThen_refused]

/-- Settles O23: the return reads the frame that the entry wrote. -/
theorem returnRestoresTrappedState : Obligations.ReturnRestoresTrappedState := by
  intro s t hc hb h
  obtain ⟨target, hh, hpc, hsr, -, ht⟩ := takeException_mc68000 hc h
  replace ht : t = entered s (enterSupervisor s) target := ht
  simp only [writable, Bool.and_eq_true] at hpc hsr
  obtain ⟨hf, hp⟩ : s.noValue.lacks .flags = false ∧ s.noValue.lacks .ssp = false := by simpa using hh
  have hsp : s.ssp - 4 - 2 = t.ssp := by rw [ht]; rfl
  rw [hsp] at hsr
  rw [show s.ssp - 4 = t.ssp + 2 by rw [← hsp, BitVec.sub_add_cancel]] at hpc
  have hcfg : t.cfg = s.cfg := by rw [ht]; rfl
  have hpopSr : memRead .data .word t t.ssp = .next (readSr s) := by
    rw [memRead_of_ok hsr.1 (by rw [hcfg]; exact hsr.2), ht]
    exact loadBytes_entered_sr hb
  have hpopPc : memRead .data .long t (t.ssp + 2) = .next s.pc := by
    rw [memRead_of_ok hpc.1 (by rw [hcfg]; exact hpc.2), ht]
    exact loadBytes_entered_pc hb
  subst ht
  refine ⟨_, returnFromException_of_frame (supervisor_enterSupervisor s) hc (by simp [hp]) hpopSr hpopPc, rfl, ?_, ?_, ?_⟩
  · exact (readSr_writeSr ..).trans (readSr_and_mask s)
  · exact (congrArg (· + 6) entered_ssp).trans (BitVec.sub_add_cancel ..)
  · simp [NoValue.give_of_not_lacks hf]

/-- Settles O42: in user mode a step that writes SR[15:8] is the violation (`step_systemByte`). -/
theorem userModeKeepsSystemByte : Obligations.UserModeKeepsSystemByte := by
  intro s t h hu
  rcases step_systemByte h with hb | ⟨hs, -⟩ | ⟨-, ht, -⟩
  · exact .inl hb
  · simp [hu] at hs
  · exact .inr ht

/-- Settles O9: the fetch of the operation word stops at an odd address, then at the map; a word that is fetched and spells no ANDI is not
that of ANDI to SR, so it passes the privilege check and is rejected by the decoder. -/
theorem fetchStops : Obligations.FetchStops := by
  refine fun s hl => ⟨fun hodd => step_of_fetch_fault hl ?_, fun heven hm => step_of_fetch_fault hl ?_,
    fun w0 why hr ho => step_of_fetch_refused hl ?_⟩
  · rw [fetch, fetchWord, memRead_odd (aligned_odd (by decide) hodd)]
  · rw [fetch, fetchWord, memRead_notAdmitted (aligned_even .word heven) hm]
  · have hv : violatesPrivilege s w0 = false := Bool.eq_false_iff.2 fun hv => by
      obtain ⟨rfl, -⟩ := violatesPrivilege_iff.1 hv
      cases ho
    have hd : decodeWords [w0] = .error (.notAndi why w0) := by simp only [decodeWords, ho]
    rw [fetch_of_word hr hv, fetchRest_of_error 5 hd]

/-- Settles O12: a step asks what a launch asks (`launchRefusal`). -/
theorem stepRefusesTraceAndOtherProcessors : Obligations.StepRefusesTraceAndOtherProcessors := by
  refine fun s => ⟨fun hc ht => step_of_launchRefusal (launchRefusal_of_trace (modelled_iff.2 hc) ht), fun h0 h1 => ?_⟩
  exact step_of_launchRefusal (launchRefusal_of_cpu (Bool.eq_false_iff.2 fun hm => (modelled_iff.1 hm).elim h0 h1))

end

section
/-! PROOFS of the family 70_reset_and_hazards.md: the reset sequence (R210), launch states (R212), the set-up before ANDI to SR (R213), and
the bus cycles of the time tables (R224). First SR at reset, the entry on the MC68000 and the times of the data forms; then the four
obligations. -/

namespace Sys2Proof.Machine

/-! ### The reset sequence (R210) -/

section resetSr
variable (s : State)

/-- SR at reset is SR at trap entry with the mask raised to 7 (R184, R210). -/
theorem readSr_resetSr : readSr (resetSr s) = readSr (enterSupervisor s) ||| 0x0700 := by
  have hset : (0x2700 : Word) = 0x2000 ||| 0x0700 := rfl
  have hmask : 0x0700 &&& ~~~traceBits s.cfg.cpu &&& srMask s.cfg.cpu = 0x0700 := by cases s.cfg.cpu <;> rfl
  unfold resetSr enterSupervisor
  rw [readSr_writeSr, readSr_writeSr, hset, ← BitVec.or_assoc, BitVec.and_or_distrib_right, BitVec.and_or_distrib_right, hmask]

theorem supervisor_resetSr : supervisor (resetSr s) = true := by
  have h := supervisor_enterSupervisor s
  simp only [supervisor] at h ⊢
  simp [readSr_resetSr, h]

theorem flagT_resetSr : flagT (resetSr s) = false := by
  have h := flagT_enterSupervisor s
  simp only [flagT] at h ⊢
  simp [readSr_resetSr, h]

theorem interruptMask_resetSr : interruptMask (resetSr s) = 0b111 := by
  rw [interruptMask, readSr_resetSr, BitVec.extractLsb'_or]
  exact BitVec.or_allOnes

/-- Reset leaves the flags (log 19). -/
theorem readCcr_resetSr : readCcr (resetSr s) = readCcr s := by
  rw [readCcr, readSr_resetSr, BitVec.extractLsb'_or]
  exact BitVec.or_zero.trans (readCcr_enterSupervisor s)

end resetSr

/-- Giving SSP a value leaves which other registers hold one. -/
theorem NoValue.lacks_give_ssp {n : NoValue} {r : RegName} (h : r ≠ .ssp) : (n.give .ssp).lacks r = n.lacks r := by
  cases r with
  | ssp => exact absurd rfl h
  | d r | a r | usp | flags => rfl

/-- The reset sequence where both vectors can be read. -/
theorem takeReset_of_readable {s : State} (h0 : readable .vector .long s 0x000000 = true) (h4 : readable .vector .long s 0x000004 = true) :
    ∃ ssp pc, loadBytes .long s 0x000000 = .next ssp ∧ loadBytes .long s 0x000004 = .next pc ∧
      takeReset s = .next { resetSr s with vbr := 0, ssp := ssp, pc := pc, noValue := s.noValue.give .ssp } := by
  obtain ⟨ssp, hread0, hload0⟩ := memRead_of_readable h0
  obtain ⟨pc, hread4, hload4⟩ := memRead_of_readable h4
  exact ⟨ssp, pc, hload0, hload4, by rw [takeReset, hread0, andThen_next, hread4, andThen_next]⟩

/-! ### Launch states (R212) -/

theorem launchRefusal_of_launchState {e : Long} {s : State} (h : LaunchState e s) : launchRefusal s = none := by
  obtain ⟨-, -, -, ht, ⟨hwf, -⟩, -⟩ := h
  simp only [Config.wf, Bool.and_eq_true] at hwf
  obtain ⟨⟨⟨hcpu, -⟩, -⟩, -⟩ := hwf
  simp [launchRefusal, hcpu, ht]

/-- Before `END` the word at `pc` lies in `code`: both ends are even, so a whole word is left. -/
theorem checkAccess_of_launchState {e : Long} {s : State} (h : LaunchState e s) (hne : s.pc ≠ e) :
    checkAccess .fetch .word s s.pc = .next () := by
  obtain ⟨hpc, hend, -, -, -, hcode, -⟩ := h
  have htwo := two_le_distance hpc hend hne
  refine checkAccess_next.2 ⟨aligned_even .word hpc, List.all_eq_true.2 fun a ha => ?_⟩
  obtain ⟨k, hk, rfl⟩ := mem_byteAddrs.1 ha
  exact hcode k (hk.trans_le htwo)

/-! ### ANDI to SR in user mode on the MC68000 (R184, R213) -/

/-- Where the frame can be written and the vector can be read, the violation is taken, and `pc` is what vector 8 holds after the frame is
written, at any address width. -/
theorem exec_andiWSr_of_trapReady {imm : Word} {s : State} (hc : s.cfg.cpu = .mc68000) (hs : supervisor s = false)
    (h : trapReady s = true) :
    ∃ target, exec (.andiWSr imm) s = .next (entered s (enterSupervisor s) target) ∧
      loadBytes .long (entered s (enterSupervisor s) target) 0x000020 = .next target := by
  simp only [trapReady, Bool.and_eq_true] at h
  obtain ⟨⟨⟨hh, hpc⟩, hsr⟩, hv⟩ := h
  have hf : pushFormat privilegeViolationVector (enterSupervisor s) = .next (enterSupervisor s) := by
    rw [pushFormat, enterSupervisor_cfg, hc]
  have hbase : vectorBase (enterSupervisor s) + vectorAddress privilegeViolationVector = 0x000020 := by
    rw [vectorBase, enterSupervisor_cfg, hc]
    rfl
  obtain ⟨target, ht, hload⟩ := takeException_of_ready hh hf hpc hsr (by rw [hbase]; exact hv)
  rw [hbase] at hload
  exact ⟨target, (exec_andiWSr_of_user hs).trans ht, hload⟩

/-- A frame that does not lie over vector 8 leaves what it holds. -/
theorem loadBytes_entered_vector {s : State} {target : Long}
    (h : ∀ k < 4, within s.cfg (s.ssp - 6) 6 (0x000020 + BitVec.ofNat 32 k) = false) :
    loadBytes .long (entered s (enterSupervisor s) target) 0x000020 = loadBytes .long s 0x000020 :=
  loadBytes_congr rfl fun k hk => byteAt_entered_other (s1 := enterSupervisor s) (h k hk)

/-! ### Times (R221 to R224) -/

/-- The time of a data form: the table of its size (R222, R223). -/
def eaTime : Size → Ea → ExecTime
  | .byte, e | .word, e => timeByteWord e
  | .long, e => timeLong e

/-- The two modelled processors have one table. -/
theorem execTime_of_modelled {cpu : Cpu} (hc : cpu.modelled = true) (i : Instr) : execTime cpu i = execTime .mc68000 i := by
  rcases modelled_iff.1 hc with rfl | rfl <;> rfl

theorem execTime_andi {cpu : Cpu} (hc : cpu.modelled = true) (sz : Size) (imm : BitVec sz.bits) (e : Ea) :
    execTime cpu (Instr.andi sz imm e) = some (eaTime sz e) := by
  rw [execTime_of_modelled hc, execTime, form_andi]
  cases sz <;> rfl

/-- The cycles of a data form's cell: its words and data reads, and its data writes. -/
theorem eaTime_cycles (sz : Size) (imm : BitVec sz.bits) (e : Ea) :
    eaTime sz e = ⟨(eaTime sz e).clocks, (encode (Instr.andi sz imm e)).length + dataCycles (Instr.andi sz imm e),
      dataCycles (Instr.andi sz imm e)⟩ := by
  rw [dataCycles, form_andi, encode_andi]
  cases sz <;> cases e with
  | dr r => rfl
  | mem m => cases m <;> rfl

end Sys2Proof.Machine

open Sys2Proof Sys2Proof.Machine

/-! ### The obligations -/

/-- Settles O45: the sequence answers (`takeReset_of_readable`), SR is that of `resetSr`, and SSP alone is given a value. -/
theorem resetSequence : Obligations.ResetSequence := by
  intro s h0 h4
  obtain ⟨ssp, pc, hssp, hpc, ht⟩ := takeReset_of_readable h0 h4
  exact ⟨_, ht, supervisor_resetSr s, flagT_resetSr s, interruptMask_resetSr s, hssp, hpc, rfl, rfl, rfl, rfl, readCcr_resetSr s, rfl, rfl,
    NoValue.lacks_give s.noValue .ssp, fun _ hr => NoValue.lacks_give_ssp hr⟩

/-- Settles O48: the premises of R212, one by one. -/
theorem launchStateIsReady : Obligations.LaunchStateIsReady :=
  fun _ _ h => ⟨inv_of_launchState h, launchRefusal_of_launchState h, checkAccess_of_launchState h⟩

/-- Settles O49: the entry reads vector 8 after writing the frame, which leaves the even address that stood there. -/
theorem preparedTrapReachesEvenHandler : Obligations.PreparedTrapReachesEvenHandler := by
  intro imm s hc hs h
  obtain ⟨hready, heven⟩ := Bool.and_eq_true_iff.1 h
  obtain ⟨target, hexec, hload⟩ := exec_andiWSr_of_trapReady (imm := imm) hc hs hready
  obtain ⟨handler, hvector, h0⟩ := handlerEven_iff.1 heven
  refine ⟨_, hexec, fun hframe => ?_⟩
  rw [loadBytes_entered_vector hframe] at hload
  have htarget : handler = target := by
    rw [hvector] at hload
    exact Host.Outcome.next.inj hload
  exact ⟨hload, htarget ▸ h0⟩

/-- Settles O47: the cell of R221, and cell by cell of R222 and R223 (`eaTime_cycles`). -/
theorem busCyclesAgree : Obligations.BusCyclesAgree := by
  intro cpu i hc
  have andi (sz : Size) (imm : BitVec sz.bits) (e : Ea) := (execTime_andi hc sz imm e).trans (congrArg some (eaTime_cycles sz imm e))
  rcases instr_cases i with ⟨imm, rfl⟩ | ⟨imm, rfl⟩ | ⟨sz, imm, r, rfl⟩ | ⟨sz, imm, m, rfl⟩
  · exact ⟨20, execTime_of_modelled hc _⟩
  · exact ⟨20, execTime_of_modelled hc _⟩
  · exact ⟨_, andi sz imm (.dr r)⟩
  · exact ⟨_, andi sz imm (.mem m)⟩

end

section
/-! PROOFS of the family other: the decoder against the encoder, both ways (R81 to R89, R96). First each way by the shapes of an instruction:
to CCR, to SR, and format `F-EA`; then the three obligations. -/

namespace Sys2Proof

/-! ### From an instruction to its words and back -/

/-- Bytes in address order are put together to the words they came from (R52). -/
@[simp] theorem wordsOfBytes_bytesOfWords (ws : List Word) : wordsOfBytes (bytesOfWords ws) = ws := by
  induction ws with
  | nil => rfl
  | cons w ws ih => exact congrArg₂ List.cons (byte_append w) ih

theorem decodeWords_andi (sz : Size) (imm : BitVec sz.bits) (e : Ea) (rest : List Word) :
    decodeWords (encode (Instr.andi sz imm e) ++ rest) = .done (Instr.andi sz imm e) rest := by
  rw [encode_andi, List.cons_append, List.append_assoc]
  simp only [decodeWords, decodeOp_eaOperationWord, decodeOperands, decodeImm_immWords, decodeEa_eaWords, Parsed.map]

theorem decodeWords_encode (i : Instr) (rest : List Word) : decodeWords (encode i ++ rest) = .done i rest := by
  rcases Machine.instr_cases i with ⟨imm, rfl⟩ | ⟨imm, rfl⟩ | ⟨sz, imm, r, rfl⟩ | ⟨sz, imm, m, rfl⟩
  · exact congrArg (Parsed.map Instr.andiBCcr) (decodeImm_immWords .byte imm rest)
  · rfl
  · exact decodeWords_andi sz imm (.dr r) rest
  · exact decodeWords_andi sz imm (.mem m) rest

/-! ### From an operation word to its fields (R81 to R83) -/

/-- A word is the concatenation of the four fields of format `F-EA` (R81). -/
theorem eaFields_append (w : Word) : w.extractLsb' 8 8 ++ w.extractLsb' 6 2 ++ w.extractLsb' 3 3 ++ w.extractLsb' 0 3 = w := by
  have join (start len n : Nat) : w.extractLsb' (start + len) n ++ w.extractLsb' start len = w.extractLsb' start (n + len) :=
    BitVec.extractLsb'_append_extractLsb'_eq_extractLsb' rfl
  rw [join 6 2 8, join 3 3 10, join 0 3 13]
  exact BitVec.extractLsb'_eq_self

theorem sizeField_of_sizeOf? {f : BitVec 2} {sz : Size} (h : sizeOf? f = some sz) : sizeField sz = f := by
  unfold sizeOf? at h
  split_ifs at h with hbyte hword hlong
  · cases h; exact hbyte.symm
  · cases h; exact hword.symm
  · cases h; exact hlong.symm

/-- The fields of a row of the mode table (R83). -/
def Mode.fields : Mode → BitVec 3 × BitVec 3
  | .dr r => (0b000, regField r)
  | .ind r => (0b010, regField r)
  | .postInc r => (0b011, regField r)
  | .preDec r => (0b100, regField r)
  | .disp r => (0b101, regField r)
  | .index r => (0b110, regField r)
  | .absW => (0b111, 0b000)
  | .absL => (0b111, 0b001)

theorem modeField_eq_fields (e : Ea) : modeField e = (modeOf e).fields := by
  cases e with
  | dr r => rfl
  | mem m => cases m <;> rfl

/-- A row of the mode table is accepted by its own fields only, among the 64 pairs. -/
theorem fields_of_decodeMode {mode reg : BitVec 3} {m : Mode} (h : decodeMode mode reg = .ok m) : m.fields = (mode, reg) := by
  have table : ∀ mode reg : BitVec 3, ∀ m ∈ (decodeMode mode reg).toOption, m.fields = (mode, reg) := by decide
  exact table mode reg m (congrArg Except.toOption h)

/-- An operation word is one of the two fixed words (R91), or put together from the fields of its size and its mode. -/
theorem decodeOp_cases {w0 : Word} {op : Op} (h : decodeOp w0 = .ok op) :
    (op = .ccr ∧ w0 = 0x023C) ∨ (op = .sr ∧ w0 = 0x027C) ∨
    (∃ sz m, op = .ea sz m ∧ 0x02#8 ++ sizeField sz ++ m.fields.1 ++ m.fields.2 = w0) := by
  unfold decodeOp at h
  split_ifs at h with hccr hsr hhigh
  · cases h
    exact .inl ⟨rfl, hccr⟩
  · cases h
    exact .inr (.inl ⟨rfl, hsr⟩)
  · split at h
    · cases h
    · rename_i sz hsz
      split at h
      · cases h
      · rename_i m hm
        cases h
        refine .inr (.inr ⟨sz, m, rfl, ?_⟩)
        have hfixed : w0.extractLsb' 8 8 = 0x02#8 := of_not_not hhigh
        rw [sizeField_of_sizeOf? hsz, fields_of_decodeMode hm, ← hfixed]
        exact eaFields_append w0

theorem eaOperationWord_of_decodeOp {w0 : Word} {sz : Size} {e : Ea} (h : decodeOp w0 = .ok (.ea sz (modeOf e))) :
    eaOperationWord sz e = w0 := by
  obtain ⟨hop, -⟩ | ⟨hop, -⟩ | ⟨sz', m, hop, hw⟩ := decodeOp_cases h
  · cases hop
  · cases hop
  · cases hop
    rw [eaOperationWord, modeField_eq_fields]
    exact hw

/-! ### From words to the instruction they encode -/

/-- The EA extension words that were read are those of the destination (R89). -/
theorem eaWords_of_decodeEa {m : Mode} {e : Ea} {ws rest : List Word} (h : decodeEa m ws = .done e rest) : ws = eaWords e ++ rest := by
  cases m with
  | dr r | ind r | postInc r | preDec r => cases h; rfl
  | disp r | absW =>
    obtain ⟨w, hw, rfl⟩ := map_eq_done h
    exact immWords_of_decodeImm (sz := .word) hw
  | index r =>
    obtain ⟨x, hx, rfl⟩ := map_eq_done h
    exact briefWord_of_decodeBrief hx
  | absL =>
    obtain ⟨a, ha, rfl⟩ := map_eq_done h
    exact immWords_of_decodeImm (sz := .long) ha

theorem decodeOperands_ea {sz : Size} {m : Mode} {ws rest : List Word} {i : Instr} (h : decodeOperands (.ea sz m) ws = .done i rest) :
    ∃ (imm : BitVec sz.bits) (e : Ea), m = modeOf e ∧ i = Instr.andi sz imm e ∧ ws = immWords sz imm ++ (eaWords e ++ rest) := by
  simp only [decodeOperands] at h
  split at h
  · cases h
  · cases h
  · rename_i imm ws' himm
    obtain ⟨e, he, rfl⟩ := map_eq_done h
    refine ⟨imm, e, (modeOf_of_decodeEa he).symm, rfl, ?_⟩
    rw [immWords_of_decodeImm himm, eaWords_of_decodeEa he]

/-- Words whose first one says what they are, and that were read as it says, are an encoding and what follows it. -/
theorem encode_of_decodeOperands {w0 : Word} {op : Op} {ws rest : List Word} {i : Instr} (ho : decodeOp w0 = .ok op)
    (h : decodeOperands op ws = .done i rest) : encode i ++ rest = w0 :: ws := by
  obtain ⟨rfl, rfl⟩ | ⟨rfl, rfl⟩ | ⟨sz, m, rfl, -⟩ := decodeOp_cases ho
  · obtain ⟨imm, himm, rfl⟩ := map_eq_done h
    rw [immWords_of_decodeImm (sz := .byte) himm]
    rfl
  · obtain ⟨imm, himm, rfl⟩ := map_eq_done h
    rw [immWords_of_decodeImm (sz := .word) himm]
    rfl
  · obtain ⟨imm, e, rfl, rfl, rfl⟩ := decodeOperands_ea h
    rw [encode_andi, eaOperationWord_of_decodeOp ho, List.cons_append, List.append_assoc]

end Sys2Proof

open Sys2Proof Sys2Proof.Machine

/-! ### The obligations -/

/-- Settles O1: the round trip on words (`decodeWords_encode`), and bytes are put together to the words they came from. -/
theorem decodeOfEncode : Obligations.DecodeOfEncode := by
  refine fun i rest => ⟨decodeWords_encode i rest, ?_⟩
  rw [decode, wordsOfBytes_bytesOfWords]
  exact decodeWords_encode i rest

/-- Settles O2: the operation word is put together from the fields it was read for (`eaOperationWord_of_decodeOp`), and the words after it
are those of the operands (`decodeOperands_ea`). -/
theorem encodeOfDecode : Obligations.EncodeOfDecode := by
  intro ws i rest h
  cases ws with
  | nil => cases h
  | cons w0 ws =>
    obtain ⟨op, ho, hops⟩ := decodeOp_of_decodeWords h
    exact encode_of_decodeOperands ho hops

/-- Settles O3: the decoder, run on each of the seven. -/
theorem specWordsDecode : Obligations.SpecWordsDecode := by
  unfold Obligations.SpecWordsDecode
  decide

end
